-- ==== Sys2Proof/Word.lean ====
section
/-! DEFINITION. The words of BFX: bytes of the buffer, the 128-bit value port, and the mask of rule R8. -/

namespace Sys2Proof

/-- One byte of the buffer (R9, R26). -/
abbrev Byte := BitVec 8

/-- What the value ports `req_wval` and `rsp_rd_value` carry: `WMAX` = 128 bits (R6, R18). -/
abbrev Value := BitVec 128

/-- `mask(L)` of R8: the number with its `l` low bits set. -/
def mask (l : Nat) : Nat := 2 ^ l - 1

end Sys2Proof
end

