-- ==== Sys2Proof/Syntax.lean ====
section
/-! DEFINITION. The requests of BFX as syntax: one constructor of `Instr` per row of spec/opcode_table.json (R53). -/

namespace Sys2Proof

/-- `ctl[0]` (R49): which of the two operations. -/
inductive Op where
  /-- `RDF`, the source's `read_field`. -/
  | read
  /-- `WRF`, the source's `write_field`. -/
  | write
deriving DecidableEq, Repr

/-- `ctl[1]` (R49): how the two bounds are read. -/
inductive RangeForm where
  /-- `HO`: `[lo, hi)`. -/
  | halfOpen
  /-- `CL`: `[lo, hi]`. -/
  | closed
deriving DecidableEq, Repr

/-- The legal field-value widths, `WSET` of R6. -/
inductive Width where
  | w8 | w16 | w32 | w64 | w128
deriving DecidableEq, Repr

/-- A request as the ports carry it (R18, R24, R48): `req = (ctl, lo, hi, wval)`. The bounds are numbers of `IDX_W`
bits; that they fit is `Request.fits`. -/
structure Request where
  /-- `req_ctl` -/
  ctl : Byte
  /-- `req_lo` -/
  lo : Nat
  /-- `req_hi` -/
  hi : Nat
  /-- `req_wval` -/
  wval : Value
deriving DecidableEq, Repr

/-- The instructions: one constructor per row of the opcode table (R53). `chk` is the modifier `CHK` of every row (true:
checked, the suffix `.C`), `lo` and `hi` are the range bounds (R51). A write carries the whole of `req_wval`, of which it
uses `wval[W-1:0]` (R52); a read ignores `req_wval`, so it carries none (assumption 16). -/
inductive Instr where
  /-- `RDF.HO.W8` (R68) -/
  | rdfHoW8 (chk : Bool) (lo hi : Nat)
  /-- `RDF.CL.W8` (R69) -/
  | rdfClW8 (chk : Bool) (lo hi : Nat)
  /-- `WRF.HO.W8` (R75) -/
  | wrfHoW8 (chk : Bool) (lo hi : Nat) (wval : Value)
  /-- `WRF.CL.W8` (R76) -/
  | wrfClW8 (chk : Bool) (lo hi : Nat) (wval : Value)
  /-- `RDF.HO.W16` (R68) -/
  | rdfHoW16 (chk : Bool) (lo hi : Nat)
  /-- `RDF.CL.W16` (R69) -/
  | rdfClW16 (chk : Bool) (lo hi : Nat)
  /-- `WRF.HO.W16` (R75) -/
  | wrfHoW16 (chk : Bool) (lo hi : Nat) (wval : Value)
  /-- `WRF.CL.W16` (R76) -/
  | wrfClW16 (chk : Bool) (lo hi : Nat) (wval : Value)
  /-- `RDF.HO.W32` (R68) -/
  | rdfHoW32 (chk : Bool) (lo hi : Nat)
  /-- `RDF.CL.W32` (R69) -/
  | rdfClW32 (chk : Bool) (lo hi : Nat)
  /-- `WRF.HO.W32` (R75) -/
  | wrfHoW32 (chk : Bool) (lo hi : Nat) (wval : Value)
  /-- `WRF.CL.W32` (R76) -/
  | wrfClW32 (chk : Bool) (lo hi : Nat) (wval : Value)
  /-- `RDF.HO.W64` (R68) -/
  | rdfHoW64 (chk : Bool) (lo hi : Nat)
  /-- `RDF.CL.W64` (R69) -/
  | rdfClW64 (chk : Bool) (lo hi : Nat)
  /-- `WRF.HO.W64` (R75) -/
  | wrfHoW64 (chk : Bool) (lo hi : Nat) (wval : Value)
  /-- `WRF.CL.W64` (R76) -/
  | wrfClW64 (chk : Bool) (lo hi : Nat) (wval : Value)
  /-- `RDF.HO.W128` (R68) -/
  | rdfHoW128 (chk : Bool) (lo hi : Nat)
  /-- `RDF.CL.W128` (R69) -/
  | rdfClW128 (chk : Bool) (lo hi : Nat)
  /-- `WRF.HO.W128` (R75) -/
  | wrfHoW128 (chk : Bool) (lo hi : Nat) (wval : Value)
  /-- `WRF.CL.W128` (R76) -/
  | wrfClW128 (chk : Bool) (lo hi : Nat) (wval : Value)
deriving DecidableEq, Repr

/-- The operands of an instruction that the table does not fix: `CHK`, `lo`, `hi`, and the write value (0 for a read). -/
def Instr.operands : Instr → Bool × Nat × Nat × Value
  | .rdfHoW8 c l h | .rdfClW8 c l h | .rdfHoW16 c l h | .rdfClW16 c l h | .rdfHoW32 c l h | .rdfClW32 c l h
  | .rdfHoW64 c l h | .rdfClW64 c l h | .rdfHoW128 c l h | .rdfClW128 c l h => (c, l, h, 0)
  | .wrfHoW8 c l h v | .wrfClW8 c l h v | .wrfHoW16 c l h v | .wrfClW16 c l h v | .wrfHoW32 c l h v | .wrfClW32 c l h v
  | .wrfHoW64 c l h v | .wrfClW64 c l h v | .wrfHoW128 c l h v | .wrfClW128 c l h v => (c, l, h, v)

/-- `CHK` of an instruction: true when it is the checked variant `.C`. -/
def Instr.chk (i : Instr) : Bool := i.operands.1

/-- The bound `lo`. -/
def Instr.lo (i : Instr) : Nat := i.operands.2.1

/-- The bound `hi`. -/
def Instr.hi (i : Instr) : Nat := i.operands.2.2.1

/-- The write value; 0 for a read, which carries none. -/
def Instr.wval (i : Instr) : Value := i.operands.2.2.2

end Sys2Proof
end

