-- ==== Sys2Proof/Config.lean ====
section
/-! DEFINITION. The elaboration parameters of an instance (R6), and the ones `State.reset` is an instance of. -/

namespace Sys2Proof

/-- What fixes a BFX instance (R6). State carries it and no step changes it (R16), so that a statement over every state
is a statement over every parameter value. -/
structure Params where
  /-- `N_BYTES`, the buffer length `N` in bytes. -/
  nBytes : Nat
  /-- `IDX_W`, the width in bits of `req_lo` and `req_hi`. -/
  idxW : Nat
  /-- `STATIC_RANGE`: the range is fixed at elaboration. -/
  staticRange : Bool
  /-- `S_FORM` -/
  sForm : RangeForm
  /-- `S_LO` -/
  sLo : Nat
  /-- `S_HI` -/
  sHi : Nat
  /-- `LATENCY`, the cycles from request to response. -/
  latency : Nat
deriving DecidableEq, Repr

/-- The instance that `State.reset` and `decodeTableWord` speak of. DESIGN CHOICE (assumption 1), unsafe: R6 leaves
`N_BYTES`, `IDX_W`, `STATIC_RANGE` and the static range OPEN; 20 bytes and 8 index bits are the instance of program P1 of
95_test_vectors.md, and `LATENCY` is R6's default 0. No statement over every state rests on it. -/
def Config.resetParams : Params :=
  { nBytes := 20, idxW := 8, staticRange := false, sForm := .halfOpen, sLo := 0, sHi := 0, latency := 0 }

end Sys2Proof
end

