-- ==== Sys2Proof/WellFormed.lean ====
section
/-! DEFINITION. Which requests and instructions an instance's ports can carry (R18, R51, R55). -/

namespace Sys2Proof

/-- `req_lo` and `req_hi` are `IDX_W` bits wide (R18): the bounds a port can carry. `ctl` and `wval` fit by their types. -/
def Request.fits (idxW : Nat) (r : Request) : Bool :=
  decide (r.lo < 2 ^ idxW) && decide (r.hi < 2 ^ idxW)

/-- An instruction is well formed for `IDX_W` when its two bounds fit in their fields (R48, R51). Nothing else can be
wrong: the range checks of R57 are the hardware's own, and `wval[127:W]` is ignored (R52). -/
def Instr.wf (idxW : Nat) (i : Instr) : Bool :=
  decide (i.lo < 2 ^ idxW) && decide (i.hi < 2 ^ idxW)

end Sys2Proof
end

