-- ==== Sys2Proof/Decode.lean ====
section
/-! DEFINITION. The encoding (30_encoding.md): the packed `REQ` word, the control byte, the decoder and the encoder. -/

namespace Sys2Proof

/-- `W` in bits: `W = 8 << WSEL` (R50). -/
def Width.bits : Width → Nat
  | .w8 => 8
  | .w16 => 16
  | .w32 => 32
  | .w64 => 64
  | .w128 => 128

/-- The code `WSEL` of a width (R50). -/
def Width.wsel : Width → Nat
  | .w8 => 0
  | .w16 => 1
  | .w32 => 2
  | .w64 => 3
  | .w128 => 4

/-- The width a `WSEL` code names; 5, 6 and 7 are reserved (R50, R54). -/
def Width.ofWsel (c : Nat) : Option Width :=
  match c with
  | 0 => some .w8
  | 1 => some .w16
  | 2 => some .w32
  | 3 => some .w64
  | 4 => some .w128
  | _ => none

/-- `v[hi:lo]` of R7: the number `(v >> lo) mod 2^(hi-lo+1)`, for `lo <= hi`. -/
def slice (v hi lo : Nat) : Nat := v / 2 ^ lo % 2 ^ (hi - lo + 1)

/-- The length of a `REQ` word in bits: `REQ_W = 136 + 2*IDX_W` (R48). -/
def reqW (idxW : Nat) : Nat := 136 + 2 * idxW

/-- A request's packed `REQ` word (R48): `ctl` lowest, then `lo`, `hi`, and `wval` on top. -/
def Request.pack (idxW : Nat) (r : Request) : Nat :=
  r.ctl.toNat + 2 ^ 8 * r.lo + 2 ^ (8 + idxW) * r.hi + 2 ^ (8 + 2 * idxW) * r.wval.toNat

/-- The port fields of a `REQ` word, each the slice R48 gives. -/
def Request.unpack (idxW : Nat) (w : Nat) : Request :=
  { ctl := BitVec.ofNat 8 w
    lo := w / 2 ^ 8 % 2 ^ idxW
    hi := w / 2 ^ (8 + idxW) % 2 ^ idxW
    wval := BitVec.ofNat 128 (w / 2 ^ (8 + 2 * idxW)) }

/-- Why a word or a request names no instruction. -/
inductive DecodeError where
  /-- The control byte is reserved (R54): the request raises `IllegalControl` (R79). -/
  | illegalControl (ctl : Byte)
  /-- A bound does not fit in its `IDX_W`-bit port: no such request can be presented (assumption 15). -/
  | portOverflow
  /-- The number does not fit in `REQ_W` bits; a `REQ` word has no other length (R48). -/
  | notAReqWord
deriving DecidableEq, Repr

/-- `OP`, from `ctl[0]` (R49). -/
def Op.ofBit (b : Nat) : Op := if b = 1 then .write else .read

/-- `FORM`, from `ctl[1]` (R49). -/
def RangeForm.ofBit (b : Nat) : RangeForm := if b = 1 then .closed else .halfOpen

/-- The fields of a legal control byte, `none` for a reserved one (R49, R53, R54). -/
def decodeControl (ctl : Byte) : Option (Op × RangeForm × Bool × Width) :=
  if slice ctl.toNat 7 6 = 0 then
    match Width.ofWsel (slice ctl.toNat 5 3) with
    | some w =>
      some (Op.ofBit (slice ctl.toNat 0 0), RangeForm.ofBit (slice ctl.toNat 1 1), slice ctl.toNat 2 2 == 1, w)
    | none => none
  else none

/-- The row that `WSEL`, `FORM` and `OP` select (R53), with its operands. -/
def Instr.make : Op → RangeForm → Width → Bool → Nat → Nat → Value → Instr
  | .read, .halfOpen, .w8, c, l, h, _ => .rdfHoW8 c l h
  | .read, .closed, .w8, c, l, h, _ => .rdfClW8 c l h
  | .write, .halfOpen, .w8, c, l, h, v => .wrfHoW8 c l h v
  | .write, .closed, .w8, c, l, h, v => .wrfClW8 c l h v
  | .read, .halfOpen, .w16, c, l, h, _ => .rdfHoW16 c l h
  | .read, .closed, .w16, c, l, h, _ => .rdfClW16 c l h
  | .write, .halfOpen, .w16, c, l, h, v => .wrfHoW16 c l h v
  | .write, .closed, .w16, c, l, h, v => .wrfClW16 c l h v
  | .read, .halfOpen, .w32, c, l, h, _ => .rdfHoW32 c l h
  | .read, .closed, .w32, c, l, h, _ => .rdfClW32 c l h
  | .write, .halfOpen, .w32, c, l, h, v => .wrfHoW32 c l h v
  | .write, .closed, .w32, c, l, h, v => .wrfClW32 c l h v
  | .read, .halfOpen, .w64, c, l, h, _ => .rdfHoW64 c l h
  | .read, .closed, .w64, c, l, h, _ => .rdfClW64 c l h
  | .write, .halfOpen, .w64, c, l, h, v => .wrfHoW64 c l h v
  | .write, .closed, .w64, c, l, h, v => .wrfClW64 c l h v
  | .read, .halfOpen, .w128, c, l, h, _ => .rdfHoW128 c l h
  | .read, .closed, .w128, c, l, h, _ => .rdfClW128 c l h
  | .write, .halfOpen, .w128, c, l, h, v => .wrfHoW128 c l h v
  | .write, .closed, .w128, c, l, h, v => .wrfClW128 c l h v

/-- The decoder over port fields (R51, R53, R54). Total; each refusal has its name. -/
def decodeRequest (idxW : Nat) (r : Request) : Except DecodeError Instr :=
  if r.fits idxW then
    match decodeControl r.ctl with
    | some (op, form, chk, w) => .ok (Instr.make op form w chk r.lo r.hi r.wval)
    | none => .error (.illegalControl r.ctl)
  else .error .portOverflow

/-- The decoder over packed `REQ` words (R48). Total on every number. -/
def decode (idxW : Nat) (w : Nat) : Except DecodeError Instr :=
  if w < 2 ^ reqW idxW then decodeRequest idxW (Request.unpack idxW w) else .error .notAReqWord

/-- The operation, range form and width of an instruction's row in the opcode table (R53). -/
def Instr.row : Instr → Op × RangeForm × Width
  | .rdfHoW8 .. => (.read, .halfOpen, .w8)
  | .rdfClW8 .. => (.read, .closed, .w8)
  | .wrfHoW8 .. => (.write, .halfOpen, .w8)
  | .wrfClW8 .. => (.write, .closed, .w8)
  | .rdfHoW16 .. => (.read, .halfOpen, .w16)
  | .rdfClW16 .. => (.read, .closed, .w16)
  | .wrfHoW16 .. => (.write, .halfOpen, .w16)
  | .wrfClW16 .. => (.write, .closed, .w16)
  | .rdfHoW32 .. => (.read, .halfOpen, .w32)
  | .rdfClW32 .. => (.read, .closed, .w32)
  | .wrfHoW32 .. => (.write, .halfOpen, .w32)
  | .wrfClW32 .. => (.write, .closed, .w32)
  | .rdfHoW64 .. => (.read, .halfOpen, .w64)
  | .rdfClW64 .. => (.read, .closed, .w64)
  | .wrfHoW64 .. => (.write, .halfOpen, .w64)
  | .wrfClW64 .. => (.write, .closed, .w64)
  | .rdfHoW128 .. => (.read, .halfOpen, .w128)
  | .rdfClW128 .. => (.read, .closed, .w128)
  | .wrfHoW128 .. => (.write, .halfOpen, .w128)
  | .wrfClW128 .. => (.write, .closed, .w128)

/-- `OP` of an instruction. -/
def Instr.op (i : Instr) : Op := i.row.1

/-- `FORM` of an instruction. -/
def Instr.form (i : Instr) : RangeForm := i.row.2.1

/-- The field-value width of an instruction. -/
def Instr.width (i : Instr) : Width := i.row.2.2

/-- `ctl[0]` of an operation (R49). -/
def Op.bit : Op → Nat
  | .read => 0
  | .write => 1

/-- `ctl[1]` of a range form (R49). -/
def RangeForm.bit : RangeForm → Nat
  | .halfOpen => 0
  | .closed => 1

/-- `match` of a row: `(WSEL << 3) | (FORM << 1) | OP` (R53). -/
def rowMatch (op : Op) (form : RangeForm) (w : Width) : Byte :=
  BitVec.ofNat 8 (w.wsel * 8 + form.bit * 2 + op.bit)

/-- The control byte of an instruction: its row's `match` with `CHK` in bit 2 (R49, R53). -/
def Instr.ctl (i : Instr) : Byte :=
  rowMatch i.op i.form i.width + (if i.chk then 4 else 0)

/-- The request that presents an instruction. A read ignores `req_wval` (R52); the encoder drives it as 0 there
(assumption 16). -/
def Instr.request (i : Instr) : Request :=
  { ctl := i.ctl, lo := i.lo, hi := i.hi, wval := i.wval }

/-- The encoder: the `REQ` word of an instruction (R48). -/
def encode (idxW : Nat) (i : Instr) : Nat := i.request.pack idxW

/-- The instruction the decoder reads from a word of `nbits` bits, at the index width of `Config.resetParams`; the bits
from `nbits` on are 0. -/
def decodeTableWord (nbits w : Nat) : Option Instr :=
  match decode Config.resetParams.idxW (w % 2 ^ nbits) with
  | .ok i => some i
  | .error _ => none

end Sys2Proof
end

