-- ==== Sys2Proof/Machine/State.lean ====
section
/-! DEFINITION. The state of the machine as plain data: the buffer, the marks, the pipeline, the response outputs and the
host's side of a run (10_state.md), the reasons a step can stop, and the state after reset (R95). -/

namespace Sys2Proof.Machine

/-- The buffer's bytes: (byte index, byte) pairs in the canonical form `Memory.wf` of Machine/Ops.lean. The length `N` is
`params.nBytes` (R21). -/
abbrev Memory := List Host.Cell

/-- The error kinds of the range resolver (R57, R78). -/
inductive RangeError where
  /-- The range is inverted, or its exclusive end passes the buffer. -/
  | outOfBounds
  /-- The range is longer than the width. -/
  | fieldTooWide
deriving DecidableEq, Repr

/-- Why the mark `faulted` is set (R23). -/
inductive FaultReason where
  /-- An unchecked request failed (R81). -/
  | unchecked (e : RangeError)
  /-- Requests or accesses that overlap in time touched a byte of a write in flight (R42, R102). -/
  | race
deriving DecidableEq, Repr

/-- Why the mark `refused` is set (R23). -/
inductive RefuseReason where
  /-- A reserved control byte (R79). -/
  | illegalControl
  /-- A request issued over the footprint of an uncommitted write in flight (R101). -/
  | hazard
deriving DecidableEq, Repr

/-- An outcome that a run observes (R24, R25). R24 writes `ok(rd, buf')`, and R25 has a run observe its outcomes "and the final
buffer". DESIGN CHOICE (assumption 17): the recorded `ok` keeps `rd` alone and drops `buf'`. -/
inductive Observation where
  /-- A request with no error, and the value read (0 for a write). -/
  | ok (rd : Value)
  /-- A checked request that failed. -/
  | err (e : RangeError)
deriving DecidableEq, Repr

/-- The output ports of R18. The `N`-bit enables are numbers whose bit `i` is the enable of byte `i` (R7, R18), and
`bufOut` holds the bytes of `rsp_buf_out` as a buffer; `Memory.bus` gives its lanes (assumption 18). -/
structure Response where
  /-- `rsp_valid` -/
  valid : Bool
  /-- `rsp_rd_value` -/
  rdValue : Value
  /-- `rsp_err` -/
  err : BitVec 2
  /-- `rsp_fault` -/
  fault : Bool
  /-- `rsp_byte_re` -/
  byteRe : Nat
  /-- `rsp_byte_we` -/
  byteWe : Nat
  /-- `rsp_buf_out` -/
  bufOut : Memory
deriving DecidableEq, Repr

/-- What a pipeline stage with its valid bit set holds: one request and the `buf_in` bytes sampled with it (R17, R99).
`host` is the model's own note of who issued it (assumption 26): BFX has no identifiers for its requesters (R92). -/
structure InFlight where
  host : Nat
  req : Request
  bufIn : Memory
deriving DecidableEq, Repr

/-- One BFX instance beside the one the state is written around (R42, R92): its own parameters (R6), pipeline (R17) and
output ports (R18). The buffer is shared. -/
structure Block where
  params : Params
  /-- As `State.pipe`. -/
  pipe : List (Option InFlight)
  /-- As `State.rsp`. -/
  rsp : Response
deriving DecidableEq, Repr

/-- The input ports of one instance in one clock cycle (R18), less `buf_in`, which carries the buffer. -/
structure Pins where
  /-- `rst` -/
  rst : Bool
  /-- `req_valid` -/
  reqValid : Bool
  /-- Which of the instance's hosts presents the request (R42): no port, the model's own note (assumption 26). -/
  host : Nat
  /-- `req_ctl`, `req_lo`, `req_hi`, `req_wval` -/
  req : Request
deriving DecidableEq, Repr

/-- One requester's request in a group: the instance it is presented to (0 is the state's own, `k + 1` is `peers[k]`) and
the request (R42). -/
structure Member where
  block : Nat
  req : Request
deriving DecidableEq, Repr

/-- What the host, the other requesters and the other agents do next (assumption 5). -/
inductive HostAction where
  /-- The host issues one request to the state's own instance and waits for its response to be committed: one step of R24. -/
  | issue (r : Request)
  /-- The requests of several requesters, each its own, in flight together on the one buffer (R42). -/
  | overlap (ms : List Member)
  /-- One clock cycle of every instance (R18, R94, R98): the first pins drive the state's own, the next `peers[0]`, and so on;
  an instance without pins here is driven idle (assumption 26). -/
  | clock (ps : List Pins)
  /-- Another agent reaches byte `a` of the buffer: it writes `new`, or reads when `new` is `none` (R102). -/
  | access (a : Nat) (new : Option Byte)
deriving DecidableEq, Repr

/-- The machine's state, written around one BFX instance; `peers` are the other instances that share its buffer (R42). `params` is fixed for the instance (R6, R16); `buf`, `faulted` and `refused` are the state of
R23; `pipe` is R17's; `rsp` is what the output ports of R18 carry; `index`, `pending` and `observed` are the host's side of
a run (R14, R25). -/
structure State where
  /-- The elaboration parameters. No step changes them. -/
  params : Params
  /-- The buffer bytes. -/
  buf : Memory
  /-- The mark `faulted`, with its reason. -/
  faulted : Option FaultReason
  /-- The mark `refused`, with its reason. -/
  refused : Option RefuseReason
  /-- The pipeline stages, newest first, `latency` of them. A stage whose valid bit is 0 is `none` (assumption 8). -/
  pipe : List (Option InFlight)
  /-- The response outputs of the last step, from the inputs of that step; a response's commit follows them (R20,
  assumption 9). -/
  rsp : Response
  /-- The position in the run: how many requests have been issued, to any instance (R14, assumption 21). -/
  index : Nat
  /-- The other instances that share the buffer (R42, R92), none in a serial run. -/
  peers : List Block
  /-- What the host does next, first action first. -/
  pending : List HostAction
  /-- The outcomes the run has observed, oldest first (R25), each `ok` without its `buf'` (assumption 17). -/
  observed : List Observation
deriving DecidableEq, Repr

/-- Why the machine stops with a fault. -/
inductive Fault where
  /-- The step after the one that set `faulted`: the run ended there and the host performs none of the remaining requests
  (R25, R81). Raised by `step`. Safe: the spec gives the run no further step. -/
  | runFaulted (r : FaultReason)
  /-- Another agent's access names a byte index of `N` or more, which does not exist (R26). Raised by
  `State.access`. Safe: there is no such byte. -/
  | noSuchByte (a : Nat)
deriving DecidableEq, Repr

/-- Why the machine refuses a step. -/
inductive Refusal where
  /-- An instruction without a meaning. No arm of `exec` answers it. Safe. -/
  | notModelled (mnemonic : String)
  /-- The step after the one that set `refused` (R25, R79, R101). Raised by `step`. Safe: the spec gives the run no
  further step. -/
  | runRefused (r : RefuseReason)
  /-- An instance's parameters are not legal, or its static range fails checks 1 or 2: not a BFX (R6, R64); or instances
  with different buffer lengths are to share one buffer (assumption 25). Raised by `step`. Safe: the spec has the model refuse
  the instance. -/
  | illFormedInstance
  /-- A bound of a presented request does not fit in its `IDX_W`-bit port (R18, R55). Raised by `State.perform` and
  `State.clock`. Safe: no such request can be presented. -/
  | portOverflow
  /-- A request of a group names an instance that does not exist. Raised by `State.overlap`. Safe: there is no such
  instance. -/
  | noSuchBlock
deriving DecidableEq, Repr

/-- The idle values of R19, with `buf_in` on `rsp_buf_out`. -/
def Response.idle (bufIn : Memory) : Response :=
  { valid := false, rdValue := 0, err := 0, fault := false, byteRe := 0, byteWe := 0, bufOut := bufIn }

/-- The machine right after reset (R95): no mark, every valid bit 0, idle outputs, nothing performed. The buffer lists
nothing, so every byte reads as `unlistedByte` (DESIGN CHOICE, assumption 2, unsafe: R96 does not fix it), the parameters
are `Config.resetParams` (DESIGN CHOICE, assumption 1), no other instance shares the buffer (DESIGN CHOICE, assumption 25), and
the host has nothing to do (assumption 5). -/
def State.reset : State :=
  { params := Config.resetParams
    buf := []
    faulted := none
    refused := none
    pipe := List.replicate Config.resetParams.latency none
    rsp := Response.idle []
    index := 0
    peers := []
    pending := []
    observed := [] }

end Sys2Proof.Machine
end

