-- ==== Sys2Proof/Machine/Flags.lean ====
section
/-! DEFINITION. BFX has no status flags and no condition codes (R15). This file holds what reports a request's outcome in
their place: the error codes of `rsp_err` and the reason marks (R78, R81). -/

namespace Sys2Proof.Machine

/-- The code of a range error on `rsp_err` (R78). -/
def RangeError.code : RangeError → BitVec 2
  | .outOfBounds => 1
  | .fieldTooWide => 2

/-- The code of `IllegalControl` on `rsp_err` (R78). -/
def illegalControlCode : BitVec 2 := 3

/-- `rsp_fault` for a range error: set exactly when the request is unchecked (R81). -/
def rangeFault (chk : Bool) : Bool := !chk

/-- The mark `faulted` after a range error: an unchecked request sets it, a checked one leaves it (R81). -/
def markAfter (chk : Bool) (e : RangeError) (before : Option FaultReason) : Option FaultReason :=
  if chk then before else some (.unchecked e)

/-- What a run observes of a range error: `err(kind)` for a checked request, nothing for an unchecked one, whose run ends
(R24, R25). -/
def observationsOf (chk : Bool) (e : RangeError) : List Observation :=
  if chk then [.err e] else []

end Sys2Proof.Machine
end

