-- ==== Sys2Proof/Machine/Operands.lean ====
section
/-! DEFINITION. The operands of a request: the range it resolves to (40_resolver.md), the footprint of that range
(R33), the write value (R52), and which parameters are legal (R6, R64). -/

namespace Sys2Proof.Machine

/-- The length a range has before it is checked: `hi - lo` half-open, `hi - lo + 1` closed (R57). Used where `lo <= hi`. -/
def rangeLength (form : RangeForm) (lo hi : Nat) : Nat :=
  match form with
  | .halfOpen => hi - lo
  | .closed => hi - lo + 1

/-- The resolver of R57: the three checks in their order, over exact numbers (R58). Answers `(s, L)`. -/
def resolve (form : RangeForm) (lo hi w n : Nat) : Except RangeError (Nat × Nat) :=
  if lo > hi then .error .outOfBounds
  else if lo + rangeLength form lo hi > 8 * n then .error .outOfBounds
  else if rangeLength form lo hi > w then .error .fieldTooWide
  else .ok (lo, rangeLength form lo hi)

/-- The range a request stands for: the one it carries, or the instance's own when the range is static (R64). -/
def effectiveRange (p : Params) (form : RangeForm) (lo hi : Nat) : RangeForm × Nat × Nat :=
  if p.staticRange then (p.sForm, p.sLo, p.sHi) else (form, lo, hi)

/-- The resolver of an instance: R57 on the range that the request stands for (R64). -/
def resolveFor (p : Params) (form : RangeForm) (w : Width) (lo hi : Nat) : Except RangeError (Nat × Nat) :=
  let r := effectiveRange p form lo hi
  resolve r.1 r.2.1 r.2.2 w.bits p.nBytes

/-- Legal elaboration parameters: `2^IDX_W > 8*N` (R6), and a static range passes checks 1 and 2 of R57 (R64). -/
def legal (p : Params) : Bool :=
  decide (8 * p.nBytes < 2 ^ p.idxW) &&
    (!p.staticRange ||
      (decide (p.sLo ≤ p.sHi) && decide (p.sLo + rangeLength p.sForm p.sLo p.sHi ≤ 8 * p.nBytes)))

/-- The first byte of a footprint: `s >> 3` (R33). -/
def firstByte (s : Nat) : Nat := s / 8

/-- The last byte of a footprint, for `L > 0`: `(s + L - 1) >> 3` (R33). -/
def lastByte (s l : Nat) : Nat := (s + l - 1) / 8

/-- The footprint as byte enables: bit `i` is set exactly for the bytes `first .. last`; empty for `L = 0` (R33, C3). -/
def footprint (s l : Nat) : Nat :=
  if l = 0 then 0 else mask (lastByte s l - firstByte s + 1) <<< firstByte s

/-- The footprint of an instruction on an instance: empty when the request ends in an error (R34, R35, R82). -/
def instrFootprint (p : Params) (i : Instr) : Nat :=
  match resolveFor p i.form i.width i.lo i.hi with
  | .ok (s, l) => footprint s l
  | .error _ => 0

/-- The value a write stores from: `wval[W-1:0]` (R52). -/
def writeValue (w : Width) (wval : Value) : Nat := wval.toNat % 2 ^ w.bits

end Sys2Proof.Machine
end

