-- ==== Sys2Proof/Machine/Ops.lean ====
section
/-! DEFINITION. The named operations over the buffer, the field read and write (R28, R65, R71), the responses (R67, R74,
R82), the host's commit (R20), and taking an error (R81, R82, R79) with the restart after it (R85). -/

namespace Sys2Proof.Machine

/-- One step's outcome. -/
abbrev Outcome := Host.Outcome State Fault Refusal

/-- What an unlisted byte of the buffer reads as. DESIGN CHOICE (assumption 2), unsafe: R96 does not fix the buffer's
contents at reset. Every buffer is some list, so no statement over every state rests on it. -/
def unlistedByte : Byte := 0

/-- Byte `a` of the buffer, `MemRead(a, 1)` (R9). -/
def Memory.read : Memory → Nat → Byte
  | [], _ => unlistedByte
  | c :: m, a => if c.1 = a then c.2 else Memory.read m a

/-- `MemWrite(a, 1, b)` (R9), keeping the canonical form: rising addresses, and no entry equal to `unlistedByte`. -/
def Memory.write : Memory → Nat → Byte → Memory
  | [], a, b => if b = unlistedByte then [] else [(a, b)]
  | c :: m, a, b =>
    if a < c.1 then (if b = unlistedByte then c :: m else (a, b) :: c :: m)
    else if a = c.1 then (if b = unlistedByte then m else (a, b) :: m)
    else c :: Memory.write m a b

/-- Every address of the list is `lo` or more, the addresses rise strictly, and no entry is `unlistedByte`. -/
def Memory.canonicalFrom : Nat → Memory → Bool
  | _, [] => true
  | lo, c :: m => decide (lo ≤ c.1) && decide (c.2 ≠ unlistedByte) && Memory.canonicalFrom (c.1 + 1) m

/-- The canonical form of the buffer: equal buffers are equal lists. -/
def Memory.wf (m : Memory) : Bool := Memory.canonicalFrom 0 m

/-- Every listed byte is one of the `n` bytes of the buffer (R26). -/
def Memory.within (n : Nat) (m : Memory) : Bool := m.all fun c => decide (c.1 < n)

/-- The buffer that holds the bytes `bs` from index `i` on. -/
def Memory.ofBytesFrom : Nat → List Byte → Memory
  | _, [] => []
  | i, b :: bs => (Memory.ofBytesFrom (i + 1) bs).write i b

/-- The buffer that holds the bytes `bs`: a start buffer of R25. -/
def Memory.ofBytes (bs : List Byte) : Memory := Memory.ofBytesFrom 0 bs

/-- The first `n` bytes of a buffer, in order. -/
def Memory.bytes (n : Nat) (m : Memory) : List Byte := (List.range n).map m.read

/-- The lanes of `buf_in` and `rsp_buf_out` (R18): the number of `8*n` bits whose bits `[8*i+7 : 8*i]` are byte `i`. -/
def Memory.bus : Nat → Memory → Nat
  | 0, _ => 0
  | n + 1, m => Memory.bus n m + 2 ^ (8 * n) * (m.read n).toNat

/-- `BitAt(buf, p)` of R28: the bit of byte `p / 8` with weight `2^(7 - p mod 8)`. -/
def bitAt (m : Memory) (p : Nat) : Bool := (m.read (p / 8)).getLsbD (7 - p % 8)

/-- A byte with the bit of weight `2^k` set to `x`: `(b & ~(1 << k)) | (x << k)` (R28). -/
def setByteBit (b : Byte) (k : Nat) (x : Bool) : Byte :=
  (b &&& ~~~(1#8 <<< k)) ||| (BitVec.setWidth 8 (BitVec.ofBool x) <<< k)

/-- `SetBit(buf, p, x)` of R28. -/
def setBit (m : Memory) (p : Nat) (x : Bool) : Memory :=
  m.write (p / 8) (setByteBit (m.read (p / 8)) (7 - p % 8) x)

/-- `ReadField(buf, s, L)` of R65: `L` times `v = (v << 1) | BitAt(buf, s + k)`. -/
def readField (m : Memory) (s : Nat) : Nat → Nat
  | 0 => 0
  | k + 1 => 2 * readField m s k + (bitAt m (s + k)).toNat

/-- `WriteField(buf, s, L, v)` of R71: position `s + k` takes bit `L-1-k` of `v`, for `k = 0 .. L-1` in that order. -/
def writeField (m : Memory) (s : Nat) : Nat → Nat → Memory
  | 0, _ => m
  | l + 1, v => writeField (setBit m s (v.testBit l)) (s + 1) l v

/-- The response of a read with no error (R67). -/
def Response.ofRead (buf : Memory) (s l : Nat) : Response :=
  { valid := true, rdValue := BitVec.ofNat 128 (readField buf s l), err := 0, fault := false
    byteRe := footprint s l, byteWe := 0, bufOut := buf }

/-- The response of a write of `v` with no error (R74). -/
def Response.ofWrite (buf : Memory) (s l v : Nat) : Response :=
  { valid := true, rdValue := 0, err := 0, fault := false
    byteRe := footprint s l, byteWe := footprint s l, bufOut := writeField buf s l v }

/-- The response of a request that ends in an error (R82). -/
def Response.ofError (buf : Memory) (code : BitVec 2) (fault : Bool) : Response :=
  { valid := true, rdValue := 0, err := code, fault := fault, byteRe := 0, byteWe := 0, bufOut := buf }

/-- The host's commit of a response (R20): every byte `i < n` with its write enable set takes its byte of `rsp_buf_out`,
and no other byte changes. -/
def commit : Nat → Memory → Response → Memory
  | 0, m, _ => m
  | n + 1, m, r =>
    if r.byteWe.testBit n then (commit n m r).write n (r.bufOut.read n) else commit n m r

/-- A request with no error: the response is driven, the host commits it, and the run observes `ok` (R24, R67, R74), of which
`observed` keeps the value alone (assumption 17). -/
def State.takeOk (s : State) (r : Response) : State :=
  { s with rsp := r, buf := commit s.params.nBytes s.buf r, observed := s.observed ++ [.ok r.rdValue] }

/-- Taking a range error, the only trap-like event of an instruction (R84): no state is saved, no control is
transferred. The response of R82 is driven with the error's code; a checked request observes `err(kind)` and the run goes
on, an unchecked one drives `rsp_fault` and sets `faulted` (R81). -/
def State.takeError (s : State) (e : RangeError) (chk : Bool) : State :=
  { s with
    rsp := Response.ofError s.buf e.code (rangeFault chk)
    faulted := markAfter chk e s.faulted
    observed := s.observed ++ observationsOf chk e }

/-- Taking `IllegalControl` (R79): `rsp_err = 3`, `rsp_fault = 1` whatever `CHK` is, and the mark `refused`. -/
def State.takeIllegal (s : State) : State :=
  { s with rsp := Response.ofError s.buf illegalControlCode true, refused := some .illegalControl }

/-- An instance's outputs in a cycle with no response, `bufIn` being on its `buf_in` (R19). -/
def State.idleOn (bufIn : Memory) (s : State) : State := { s with rsp := Response.idle bufIn }

/-- The other instances' outputs in a step that gives them no response (R19). -/
def State.idlePeers (s : State) : State :=
  { s with peers := s.peers.map fun b => { b with rsp := Response.idle s.buf } }

/-- A step in which no instance gives a response (R19). -/
def State.idle (s : State) : State := (s.idleOn s.buf).idlePeers

/-- An instance right after reset (R95), `bufIn` being on its `buf_in`. -/
def Block.fresh (bufIn : Memory) (p : Params) : Block :=
  { params := p, pipe := List.replicate p.latency none, rsp := Response.idle bufIn }

/-- The launch of a run (R23, R25, R97): an instance, the parameters of the other instances that share its buffer (R42), a
start buffer, and what the host will do. -/
def State.launch (p : Params) (others : List Params) (start : Memory) (actions : List HostAction) : State :=
  { params := p, buf := start, faulted := none, refused := none, pipe := List.replicate p.latency none
    rsp := Response.idle start, index := 0, peers := others.map (Block.fresh start), pending := actions, observed := [] }

/-- What stands in place of a return from a trap (R85): BFX has none; a host that restarts a stream starts a new run on the
buffer as it stands (assumption 19). -/
def State.restart (s : State) (actions : List HostAction) : State :=
  State.launch s.params (s.peers.map (·.params)) s.buf actions

/-- The instance a state is written around, as a block. -/
def State.block (s : State) : Block := { params := s.params, pipe := s.pipe, rsp := s.rsp }

/-- Every instance on the buffer, the state's own first. -/
def State.blocks (s : State) : List Block := s.block :: s.peers

/-- The state written around another instance. -/
def State.focus (b : Block) (s : State) : State := { s with params := b.params, pipe := b.pipe, rsp := b.rsp }

/-- Continue with the next state, or keep the stop. -/
def andThen (o : Outcome) (f : State → Outcome) : Outcome :=
  match o with
  | .next s => f s
  | .fault r => .fault r
  | .refused r => .refused r

/-- Do on `peers[k]` what `f` does on a state's own instance: the buffer, the marks and the host's side are shared, and of the
instances only that one changes (R12, R92). -/
def State.onPeer (k : Nat) (f : State → Outcome) (s : State) : Outcome :=
  match s.peers[k]? with
  | some b => andThen (f (s.focus b)) fun t => .next { t.focus s.block with peers := s.peers.set k t.block }
  | none => .refused .noSuchBlock

/-- Do on the instance of that number what `f` does on a state's own. -/
def State.onBlock (k : Nat) (f : State → Outcome) (s : State) : Outcome :=
  match k with
  | 0 => f s
  | j + 1 => s.onPeer j f

end Sys2Proof.Machine
end

