-- ==== Sys2Proof/Machine/Rdf.lean ====
section
/-! DEFINITION. The field reads (41_read.md): the shared read and one meaning per `RDF` row. -/

namespace Sys2Proof.Machine

/-- The pseudocode of R68 and R69: resolve, read the field, drive the response; or take the error of R81. -/
def execRead (form : RangeForm) (w : Width) (chk : Bool) (lo hi : Nat) (s : State) : Outcome :=
  match resolveFor s.params form w lo hi with
  | .ok (st, l) => .next (s.takeOk (Response.ofRead s.buf st l))
  | .error e => .next (s.takeError e chk)

/-- `RDF.HO.W8` (R68). -/
def execRdfHoW8 (chk : Bool) (lo hi : Nat) (s : State) : Outcome :=
  execRead .halfOpen .w8 chk lo hi s

/-- `RDF.CL.W8` (R69). -/
def execRdfClW8 (chk : Bool) (lo hi : Nat) (s : State) : Outcome :=
  execRead .closed .w8 chk lo hi s

/-- `RDF.HO.W16` (R68). -/
def execRdfHoW16 (chk : Bool) (lo hi : Nat) (s : State) : Outcome :=
  execRead .halfOpen .w16 chk lo hi s

/-- `RDF.CL.W16` (R69). -/
def execRdfClW16 (chk : Bool) (lo hi : Nat) (s : State) : Outcome :=
  execRead .closed .w16 chk lo hi s

/-- `RDF.HO.W32` (R68). -/
def execRdfHoW32 (chk : Bool) (lo hi : Nat) (s : State) : Outcome :=
  execRead .halfOpen .w32 chk lo hi s

/-- `RDF.CL.W32` (R69). -/
def execRdfClW32 (chk : Bool) (lo hi : Nat) (s : State) : Outcome :=
  execRead .closed .w32 chk lo hi s

/-- `RDF.HO.W64` (R68). -/
def execRdfHoW64 (chk : Bool) (lo hi : Nat) (s : State) : Outcome :=
  execRead .halfOpen .w64 chk lo hi s

/-- `RDF.CL.W64` (R69). -/
def execRdfClW64 (chk : Bool) (lo hi : Nat) (s : State) : Outcome :=
  execRead .closed .w64 chk lo hi s

/-- `RDF.HO.W128` (R68). -/
def execRdfHoW128 (chk : Bool) (lo hi : Nat) (s : State) : Outcome :=
  execRead .halfOpen .w128 chk lo hi s

/-- `RDF.CL.W128` (R69). -/
def execRdfClW128 (chk : Bool) (lo hi : Nat) (s : State) : Outcome :=
  execRead .closed .w128 chk lo hi s

end Sys2Proof.Machine
end

