-- ==== Sys2Proof/Machine/Wrf.lean ====
section
/-! DEFINITION. The field writes (42_write.md): the shared write and one meaning per `WRF` row. -/

namespace Sys2Proof.Machine

/-- The pseudocode of R75 and R76: resolve, write the low bits of `wval[W-1:0]`, drive the response and commit it; or take
the error of R81. -/
def execWrite (form : RangeForm) (w : Width) (chk : Bool) (lo hi : Nat) (wval : Value) (s : State) : Outcome :=
  match resolveFor s.params form w lo hi with
  | .ok (st, l) => .next (s.takeOk (Response.ofWrite s.buf st l (writeValue w wval)))
  | .error e => .next (s.takeError e chk)

/-- `WRF.HO.W8` (R75). -/
def execWrfHoW8 (chk : Bool) (lo hi : Nat) (wval : Value) (s : State) : Outcome :=
  execWrite .halfOpen .w8 chk lo hi wval s

/-- `WRF.CL.W8` (R76). -/
def execWrfClW8 (chk : Bool) (lo hi : Nat) (wval : Value) (s : State) : Outcome :=
  execWrite .closed .w8 chk lo hi wval s

/-- `WRF.HO.W16` (R75). -/
def execWrfHoW16 (chk : Bool) (lo hi : Nat) (wval : Value) (s : State) : Outcome :=
  execWrite .halfOpen .w16 chk lo hi wval s

/-- `WRF.CL.W16` (R76). -/
def execWrfClW16 (chk : Bool) (lo hi : Nat) (wval : Value) (s : State) : Outcome :=
  execWrite .closed .w16 chk lo hi wval s

/-- `WRF.HO.W32` (R75). -/
def execWrfHoW32 (chk : Bool) (lo hi : Nat) (wval : Value) (s : State) : Outcome :=
  execWrite .halfOpen .w32 chk lo hi wval s

/-- `WRF.CL.W32` (R76). -/
def execWrfClW32 (chk : Bool) (lo hi : Nat) (wval : Value) (s : State) : Outcome :=
  execWrite .closed .w32 chk lo hi wval s

/-- `WRF.HO.W64` (R75). -/
def execWrfHoW64 (chk : Bool) (lo hi : Nat) (wval : Value) (s : State) : Outcome :=
  execWrite .halfOpen .w64 chk lo hi wval s

/-- `WRF.CL.W64` (R76). -/
def execWrfClW64 (chk : Bool) (lo hi : Nat) (wval : Value) (s : State) : Outcome :=
  execWrite .closed .w64 chk lo hi wval s

/-- `WRF.HO.W128` (R75). -/
def execWrfHoW128 (chk : Bool) (lo hi : Nat) (wval : Value) (s : State) : Outcome :=
  execWrite .halfOpen .w128 chk lo hi wval s

/-- `WRF.CL.W128` (R76). -/
def execWrfClW128 (chk : Bool) (lo hi : Nat) (wval : Value) (s : State) : Outcome :=
  execWrite .closed .w128 chk lo hi wval s

end Sys2Proof.Machine
end

