-- ==== Sys2Proof/Machine/Dispatch.lean ====
section
/-! DEFINITION. The meaning of each instruction: one arm per row of spec/opcode_table.json, in the table's order. -/

namespace Sys2Proof.Machine

def exec (i : Instr) (s : State) : Host.Outcome State Fault Refusal :=
  match i with
  | .rdfHoW8 chk lo hi => Sys2Proof.Machine.execRdfHoW8 chk lo hi s
  | .rdfClW8 chk lo hi => Sys2Proof.Machine.execRdfClW8 chk lo hi s
  | .wrfHoW8 chk lo hi wval => Sys2Proof.Machine.execWrfHoW8 chk lo hi wval s
  | .wrfClW8 chk lo hi wval => Sys2Proof.Machine.execWrfClW8 chk lo hi wval s
  | .rdfHoW16 chk lo hi => Sys2Proof.Machine.execRdfHoW16 chk lo hi s
  | .rdfClW16 chk lo hi => Sys2Proof.Machine.execRdfClW16 chk lo hi s
  | .wrfHoW16 chk lo hi wval => Sys2Proof.Machine.execWrfHoW16 chk lo hi wval s
  | .wrfClW16 chk lo hi wval => Sys2Proof.Machine.execWrfClW16 chk lo hi wval s
  | .rdfHoW32 chk lo hi => Sys2Proof.Machine.execRdfHoW32 chk lo hi s
  | .rdfClW32 chk lo hi => Sys2Proof.Machine.execRdfClW32 chk lo hi s
  | .wrfHoW32 chk lo hi wval => Sys2Proof.Machine.execWrfHoW32 chk lo hi wval s
  | .wrfClW32 chk lo hi wval => Sys2Proof.Machine.execWrfClW32 chk lo hi wval s
  | .rdfHoW64 chk lo hi => Sys2Proof.Machine.execRdfHoW64 chk lo hi s
  | .rdfClW64 chk lo hi => Sys2Proof.Machine.execRdfClW64 chk lo hi s
  | .wrfHoW64 chk lo hi wval => Sys2Proof.Machine.execWrfHoW64 chk lo hi wval s
  | .wrfClW64 chk lo hi wval => Sys2Proof.Machine.execWrfClW64 chk lo hi wval s
  | .rdfHoW128 chk lo hi => Sys2Proof.Machine.execRdfHoW128 chk lo hi s
  | .rdfClW128 chk lo hi => Sys2Proof.Machine.execRdfClW128 chk lo hi s
  | .wrfHoW128 chk lo hi wval => Sys2Proof.Machine.execWrfHoW128 chk lo hi wval s
  | .wrfClW128 chk lo hi wval => Sys2Proof.Machine.execWrfClW128 chk lo hi wval s

end Sys2Proof.Machine
end

