-- ==== Sys2Proof/Machine/Requests.lean ====
section
/-! DEFINITION. Requests as the host issues them: one request (R24), a serial list of them (R25, R41), and the requests of
several requesters that are in flight together (R42, R43, R92). -/

namespace Sys2Proof.Machine

/-- No mark is set (R23). -/
def State.live (s : State) : Bool := s.faulted.isNone && s.refused.isNone

/-- One request on the buffer as it stands (R24): its control byte is decoded first (R80), a reserved one takes
`IllegalControl`, and any other request runs its instruction. -/
def State.perform (r : Request) (s : State) : Outcome :=
  match decodeRequest s.params.idxW r with
  | .ok i => exec i s
  | .error (.illegalControl _) => .next s.takeIllegal
  | .error .portOverflow => .refused .portOverflow
  | .error .notAReqWord => .refused .portOverflow

/-- The host's next request: performed, and the position in the run advances by one (R14). -/
def State.serve (r : Request) (s : State) : Outcome :=
  State.perform r { s with index := s.index + 1 }

/-- A run's requests in list order, each on the buffer the one before it left, up to the first that sets a mark (R25,
R41). -/
def State.serveAll : List Request → State → Outcome
  | [], s => .next s
  | r :: rs, s => andThen (s.serve r) fun t => if t.live then State.serveAll rs t else .next t

/-- The response of a request whose `buf_in` was sampled before: computed from the sampled bytes alone (R99), and
committed to the buffer as it stands now (R20). That lanes of `rsp_buf_out` which are not enabled show the sample is
assumption 23. -/
def State.complete (f : InFlight) (s : State) : Outcome :=
  andThen (State.perform f.req { s with buf := f.bufIn }) fun t =>
    .next { t with buf := commit s.params.nBytes s.buf t.rsp }

/-- A request together with the parameters of the instance it is presented to: what decides its footprint. -/
structure Posed where
  params : Params
  req : Request
deriving DecidableEq, Repr

/-- Whether a request is a write (R49). A reserved control byte names no operation. -/
def Posed.writes (a : Posed) : Bool :=
  match decodeRequest a.params.idxW a.req with
  | .ok i => decide (i.op = .write)
  | .error _ => false

/-- The footprint of a request (R33); empty for one that ends in an error (R82). -/
def Posed.footprint (a : Posed) : Nat :=
  match decodeRequest a.params.idxW a.req with
  | .ok i => instrFootprint a.params i
  | .error _ => 0

/-- Two requests share a footprint byte. -/
def sharesByte (a b : Posed) : Bool := decide (a.footprint &&& b.footprint ≠ 0)

/-- Two requests of different requesters must not overlap in time: one of them is a write and they share a footprint byte,
be it only a byte (R42, R43). -/
def clash (a b : Posed) : Bool := (a.writes || b.writes) && sharesByte a b

/-- Some two of the requests clash. -/
def race : List Posed → Bool
  | [] => false
  | a :: as => as.any (clash a) || race as

/-- The requests of a group, each with the parameters of its own instance (R6, R42). -/
def State.posed (ms : List Member) (s : State) : List Posed :=
  ms.filterMap fun m => (s.blocks[m.block]?).map fun b => { params := b.params, req := m.req }

/-- The requests of a group that does not race, all of which sampled the buffer `start`: each instance's response is
committed, in list order (DESIGN CHOICE, assumption 12). A request that ends in a fatal error stops its own stream (R81) but
not the others of the group, which are in flight already; they take effect, and the run ends after the step (DESIGN CHOICE,
assumption 27). -/
def State.together (start : Memory) : List Member → State → Outcome
  | [], s => .next s
  | m :: ms, s =>
    andThen (s.onBlock m.block fun u =>
        State.complete { host := 0, req := m.req, bufIn := start } { u with index := u.index + 1 })
      (State.together start ms)

/-- Requests of several requesters in flight together (R42), several hosts of one instance or several instances, each with
its own parameters (R6; assumption 25): if two of them clash, the model sets `faulted` with reason `Race`, performs none of them
and drives idle outputs (assumption 13); otherwise all of them take effect. -/
def State.overlap (ms : List Member) (s : State) : Outcome :=
  if ms.any fun m => decide (s.blocks.length ≤ m.block) then .refused .noSuchBlock
  else if race (s.posed ms) then .next { s.idle with faulted := some .race }
  else s.idle.together s.buf ms

end Sys2Proof.Machine
end

