-- ==== Sys2Proof/Machine/Pipeline.lean ====
section
/-! DEFINITION. One clock cycle at the ports of every instance (R17 to R20, R93, R94, R98, R99), the read-after-write hazard
(R101), races between requesters (R42), and an access by another agent while requests are in flight (R102). -/

namespace Sys2Proof.Machine

/-- A cycle in which the host presents nothing. -/
def Pins.idle : Pins :=
  { rst := false, reqValid := false, host := 0, req := { ctl := 0, lo := 0, hi := 0, wval := 0 } }

/-- A cycle in which a host presents a request. -/
def Pins.presentBy (host : Nat) (r : Request) : Pins := { rst := false, reqValid := true, host := host, req := r }

/-- A cycle in which the first host presents a request. -/
def Pins.present (r : Request) : Pins := Pins.presentBy 0 r

/-- The requests an instance has in flight, newest first. -/
def Block.inFlight (b : Block) : List InFlight := b.pipe.filterMap id

/-- An instance with no request in flight: every valid bit is 0. -/
def Block.quiet (b : Block) : Bool := b.pipe.all (·.isNone)

/-- No instance has a request in flight. -/
def State.quiet (s : State) : Bool := s.blocks.all (·.quiet)

/-- A request in flight or presented, with its requester: the instance and which of its hosts (R42). -/
structure Issued where
  block : Nat
  host : Nat
  posed : Posed
deriving DecidableEq, Repr

/-- Two requests of one stream: one host's on one instance (assumption 10). -/
def Issued.sameStream (x y : Issued) : Bool := decide (x.block = y.block ∧ x.host = y.host)

/-- An instance in a cycle: its number, its pins, and what it is. -/
structure Driven where
  block : Nat
  pins : Pins
  unit : Block
deriving DecidableEq, Repr

/-- Every instance with the pins that drive it; idle pins where the list has none (assumption 26). -/
def State.driven (ps : List Pins) (s : State) : List Driven :=
  s.blocks.zipIdx.map fun x => { block := x.2, pins := ps.getD x.2 Pins.idle, unit := x.1 }

/-- `rst` takes effect: it does so only with `LATENCY > 0` (R93, R94). -/
def Driven.resets (d : Driven) : Bool := d.pins.rst && decide (d.unit.params.latency ≠ 0)

/-- The request an instance accepts in a cycle: none while it is reset (R94). -/
def Driven.accepted (d : Driven) : Option Issued :=
  if d.pins.reqValid && !d.resets then
    some { block := d.block, host := d.pins.host, posed := { params := d.unit.params, req := d.pins.req } }
  else none

/-- What an instance has in flight in a cycle: nothing while it is reset, which discards it (R94, assumption 26). -/
def Driven.flights (d : Driven) : List Issued :=
  if d.resets then []
  else d.unit.inFlight.map fun f =>
    { block := d.block, host := f.host, posed := { params := d.unit.params, req := f.req } }

/-- A bound on the pins does not fit in its port (R18, R55; assumption 15). -/
def Driven.overflows (d : Driven) : Bool := d.pins.reqValid && !d.pins.req.fits d.unit.params.idxW

/-- The requests accepted in a cycle. -/
def acceptedOf (ds : List Driven) : List Issued := ds.filterMap Driven.accepted

/-- The requests in flight in a cycle, those that respond in it among them (assumption 9). -/
def flightsOf (ds : List Driven) : List Issued := ds.flatMap Driven.flights

/-- The requests in flight on any instance. -/
def State.flights (s : State) : List Issued := flightsOf (s.driven [])

/-- A request is accepted that breaks R101: it shares a footprint byte with a write of its own stream whose response is not
yet committed. A write whose response appears in this same cycle still counts (assumption 9). -/
def hazardous (ds : List Driven) : Bool :=
  (acceptedOf ds).any fun x => (flightsOf ds).any fun y =>
    x.sameStream y && (y.posed.writes && sharesByte y.posed x.posed)

/-- A request is accepted that clashes with another requester's, in flight (R42) or accepted in the same cycle. -/
def racing (ds : List Driven) : Bool :=
  ((acceptedOf ds).any fun x => (flightsOf ds).any fun y => !x.sameStream y && clash y.posed x.posed) ||
    race ((acceptedOf ds).map (·.posed))

/-- The oldest stage gives its response, or there is none and the outputs are idle (R19, R98); `bufIn` is on `buf_in`. -/
def State.retire (bufIn : Memory) (s : State) : Outcome :=
  match s.pipe.getLast? with
  | some (some f) => s.complete f
  | _ => .next (s.idleOn bufIn)

/-- What the pins put into the first stage: the request and the buffer bytes sampled with it (R17, R99). -/
def stageOf (pins : Pins) (bufIn : Memory) : Option InFlight :=
  if pins.reqValid then some { host := pins.host, req := pins.req, bufIn := bufIn } else none

/-- A reset cycle of a pipelined instance (R94): every valid bit cleared, what was in flight discarded, idle outputs, and
no request accepted. -/
def State.resetCycle (bufIn : Memory) (s : State) : State :=
  { s.idleOn bufIn with pipe := List.replicate s.params.latency none }

/-- A cycle of a pipelined instance with `rst = 0`: the oldest stage responds and is committed, the stages shift, and the
presented request enters with the bytes of this cycle's `buf_in` (R98, R99). -/
def State.shiftCycle (pins : Pins) (bufIn : Memory) (s : State) : Outcome :=
  andThen (s.retire bufIn) fun t =>
    .next { t with
      pipe := stageOf pins bufIn :: s.pipe.dropLast
      index := if pins.reqValid then s.index + 1 else s.index }

/-- A cycle of an instance with `LATENCY = 0`: combinational, so that `rst` has no effect (R93) and `rsp_valid = req_valid`
(R19). -/
def State.combCycle (pins : Pins) (bufIn : Memory) (s : State) : Outcome :=
  if pins.reqValid then
    State.complete { host := pins.host, req := pins.req, bufIn := bufIn } { s with index := s.index + 1 }
  else .next (s.idleOn bufIn)

/-- One clock cycle of one instance, `bufIn` being the buffer at the start of the cycle. -/
def State.blockCycle (pins : Pins) (bufIn : Memory) (s : State) : Outcome :=
  if s.params.latency = 0 then s.combCycle pins bufIn
  else if pins.rst then .next (s.resetCycle bufIn)
  else s.shiftCycle pins bufIn

/-- The same cycle of the first `k` other instances. The instances' responses of one cycle are committed one after the other,
the state's own first; as they do not race, no byte shows the order (R42). Of several that set a mark in one cycle, the run
keeps the last one's reason (assumption 27). -/
def State.cyclePeers (ps : List Pins) (bufIn : Memory) : Nat → State → Outcome
  | 0, s => .next s
  | k + 1, s =>
    andThen (State.cyclePeers ps bufIn k s) fun t =>
      t.onPeer k (State.blockCycle (ps.getD (k + 1) Pins.idle) bufIn)

/-- One clock cycle of every instance on the buffer. All sample the buffer as it stands at the start of the cycle
(assumption 9). A cycle that breaks R101 sets the mark `refused`, one in which requesters clash sets `faulted` with reason
`Race` (R42); such a cycle does nothing else and drives idle outputs (assumptions 11 and 13). -/
def State.clock (ps : List Pins) (s : State) : Outcome :=
  if (s.driven ps).any Driven.overflows then .refused .portOverflow
  else if hazardous (s.driven ps) || racing (s.driven ps) then
    .next { s.idle with
      faulted := if racing (s.driven ps) then some .race else s.faulted
      refused := if hazardous (s.driven ps) then some .hazard else s.refused }
  else andThen (s.blockCycle (ps.getD 0 Pins.idle) s.buf) (State.cyclePeers ps s.buf s.peers.length)

/-- Another agent's access to byte `a` breaks the exclusion: a write in flight on any instance covers the byte, or the access
writes and any request in flight covers it (R42, R102; assumption 14). -/
def State.accessRaces (a : Nat) (new : Option Byte) (s : State) : Bool :=
  s.flights.any fun x => x.posed.footprint.testBit a && (x.posed.writes || new.isSome)

/-- Another agent reads byte `a`, or writes `new` there (R102). No request is presented and no response is given, so every
instance drives the idle values with the buffer as it then stands on `rsp_buf_out`: with `LATENCY = 0` because the outputs follow
the current inputs at all times (R93, R19), with `LATENCY > 0` as DESIGN CHOICE (assumption 14), for R19 speaks of its
cycles. -/
def State.access (a : Nat) (new : Option Byte) (s : State) : Outcome :=
  if a < s.params.nBytes then
    if s.accessRaces a new then .next { s.idle with faulted := some .race }
    else
      match new with
      | some b => .next (State.idle { s with buf := s.buf.write a b })
      | none => .next s.idle
  else .fault (.noSuchByte a)

end Sys2Proof.Machine
end

