-- ==== Sys2Proof/Machine/HostSide.lean ====
section
/-! DEFINITION. The host's side of a step: which action comes next, and what a step does with it (R14, R25). -/

namespace Sys2Proof.Machine

/-- Every instance is legal (R6, R64) and is of the length of the one buffer they share (assumption 25). -/
def State.lawful (s : State) : Bool :=
  s.blocks.all fun b => legal b.params && decide (b.params.nBytes = s.params.nBytes)

/-- One action of the host, `rest` being what it does afterwards. A host that issues a request, or shares the buffer with
other requesters, first lets what is in flight finish: while it waits every instance is driven idle and the action is kept
(R101, assumption 6). -/
def State.act (a : HostAction) (rest : List HostAction) (s : State) : Outcome :=
  match a with
  | .issue r => if s.quiet then State.serve r { s.idlePeers with pending := rest } else s.clock []
  | .overlap ms => if s.quiet then State.overlap ms { s with pending := rest } else s.clock []
  | .clock ps => State.clock ps { s with pending := rest }
  | .access a new => State.access a new { s with pending := rest }

/-- One step. An ill-formed instance is refused before any run (R64); a run whose mark is set has ended, and none of its
remaining requests is performed (R25); with nothing left to do the host drives idle pins (assumption 7). -/
def State.advance (s : State) : Outcome :=
  if s.lawful then
    match s.faulted, s.refused with
    | some r, _ => .fault (.runFaulted r)
    | none, some r => .refused (.runRefused r)
    | none, none =>
      match s.pending with
      | [] => s.clock []
      | a :: rest => s.act a rest
  else .refused .illFormedInstance

/-- The state with one more action before the pending ones. -/
def State.before (a : HostAction) (s : State) : State := { s with pending := a :: s.pending }

end Sys2Proof.Machine
end

