-- ==== Sys2Proof/Machine/Step.lean ====
section
/-! DEFINITION. The step function, and how the host places one instruction before it. -/

namespace Sys2Proof.Machine

/-- One step of the machine (R24, R25). -/
def step (s : State) : Host.Outcome State Fault Refusal := s.advance

/-- The state in which the host's next action is to issue the request whose `REQ` word has the low `nbits` bits of `w`
and zeros above: the request that the next step performs (R25, assumption 5). -/
def State.withFetchWord (s : State) (nbits w : Nat) : State :=
  s.before (.issue (Request.unpack s.params.idxW (w % 2 ^ nbits)))

end Sys2Proof.Machine
end

