-- ==== Sys2Proof/Machine/Assembler.lean ====
section
/-! DEFINITION. The assembler syntax of R55 and the pseudo-instructions of R56, from one line of text to an instruction.
Lexical details that the rules leave open are in assumption 22. -/

namespace Sys2Proof.Machine

/-- Why a line is rejected. -/
inductive AsmError where
  /-- No mnemonic of the opcode table and no pseudo-instruction. -/
  | badMnemonic
  /-- The wrong number of operands. -/
  | badOperands
  /-- An operand is no decimal or `0x` number. -/
  | badNumber
  /-- A `lo`, `hi` or `value` does not fit in its field, or `s + len` does not fit in `IDX_W` bits. -/
  | doesNotFit
deriving DecidableEq, Repr

/-- What a mnemonic says: the operation, the range form (`none` for the pseudo-instructions, which give a start and a
length), the width and `CHK`. -/
structure AsmHead where
  op : Op
  form : Option RangeForm
  width : Width
  chk : Bool
deriving DecidableEq, Repr

/-- A blank of a line. -/
def isBlank (c : Char) : Bool := c == ' ' || c == '\t'

/-- A line without the blanks around it. -/
def trimBlanks (cs : List Char) : List Char :=
  ((cs.dropWhile isBlank).reverse.dropWhile isBlank).reverse

/-- The parts of a text between the separators `c`. -/
def splitAtChar (c : Char) : List Char → List (List Char)
  | [] => [[]]
  | x :: xs =>
    match splitAtChar c xs with
    | [] => [[x]]
    | part :: parts => if x = c then [] :: part :: parts else (x :: part) :: parts

/-- The value of a digit in base 16 (or 10). -/
def digitValue (c : Char) : Option Nat :=
  if '0' ≤ c ∧ c ≤ '9' then some (c.toNat - '0'.toNat)
  else if 'a' ≤ c ∧ c ≤ 'f' then some (c.toNat - 'a'.toNat + 10)
  else if 'A' ≤ c ∧ c ≤ 'F' then some (c.toNat - 'A'.toNat + 10)
  else none

/-- Digits in a base, most significant first, after the value `acc` of the digits already read. -/
def digitsValue (base : Nat) : Nat → List Char → Option Nat
  | acc, [] => some acc
  | acc, c :: cs =>
    match digitValue c with
    | some d => if d < base then digitsValue base (acc * base + d) cs else none
    | none => none

/-- A number: decimal, or hexadecimal with `0x` (R55). -/
def parseNumber (cs : List Char) : Option Nat :=
  match cs with
  | [] => none
  | ['0', 'x'] => none
  | '0' :: 'x' :: hex => digitsValue 16 0 hex
  | _ => digitsValue 10 0 cs

/-- The width part of a mnemonic. -/
def parseWidth (cs : List Char) : Option Width :=
  if cs = "W8".toList then some .w8
  else if cs = "W16".toList then some .w16
  else if cs = "W32".toList then some .w32
  else if cs = "W64".toList then some .w64
  else if cs = "W128".toList then some .w128
  else none

/-- The family part of a mnemonic: its operation, and whether it is a pseudo-instruction. -/
def parseFamily (cs : List Char) : Option (Op × Bool) :=
  if cs = "RDF".toList then some (.read, false)
  else if cs = "WRF".toList then some (.write, false)
  else if cs = "RDFL".toList then some (.read, true)
  else if cs = "WRFL".toList then some (.write, true)
  else none

/-- The range form part of a mnemonic. -/
def parseForm (cs : List Char) : Option RangeForm :=
  if cs = "HO".toList then some .halfOpen
  else if cs = "CL".toList then some .closed
  else none

/-- The suffix: nothing, or `.C` for `CHK = 1` (R55). -/
def parseSuffix (parts : List (List Char)) : Option Bool :=
  match parts with
  | [] => some false
  | [['C']] => some true
  | _ => none

/-- `RDF.HO.W<W>[.C]` and the like (R55), or `RDFL.W<W>[.C]` and `WRFL.W<W>[.C]` (R56). -/
def parseMnemonic (cs : List Char) : Option AsmHead :=
  match splitAtChar '.' cs with
  | fam :: rest =>
    match parseFamily fam, rest with
    | some (op, false), f :: w :: suffix =>
      (parseForm f).bind fun form => (parseWidth w).bind fun width =>
        (parseSuffix suffix).map fun chk => { op := op, form := some form, width := width, chk := chk }
    | some (op, true), w :: suffix =>
      (parseWidth w).bind fun width =>
        (parseSuffix suffix).map fun chk => { op := op, form := none, width := width, chk := chk }
    | _, _ => none
  | [] => none

/-- The two bounds of a line: as written, or `s` and `s + len` for a pseudo-instruction (R56). -/
def boundsOf (form : Option RangeForm) (a b : Nat) : RangeForm × Nat × Nat :=
  match form with
  | some f => (f, a, b)
  | none => (.halfOpen, a, a + b)

/-- The instruction of a line's head and numbers, with the assembler's checks that each operand fits its field (R55,
R56). A read takes two numbers and a write three. -/
def assembleOperands (idxW : Nat) (h : AsmHead) (ns : List Nat) : Except AsmError Instr :=
  match h.op, ns with
  | .read, [a, b] =>
    let r := boundsOf h.form a b
    if r.2.1 < 2 ^ idxW ∧ r.2.2 < 2 ^ idxW then .ok (Instr.make .read r.1 h.width h.chk r.2.1 r.2.2 0)
    else .error .doesNotFit
  | .write, [a, b, v] =>
    let r := boundsOf h.form a b
    if r.2.1 < 2 ^ idxW ∧ r.2.2 < 2 ^ idxW ∧ v < 2 ^ h.width.bits then
      .ok (Instr.make .write r.1 h.width h.chk r.2.1 r.2.2 (BitVec.ofNat 128 v))
    else .error .doesNotFit
  | _, _ => .error .badOperands

/-- The numbers of an operand list, each between commas. -/
def parseOperands (cs : List Char) : Option (List Nat) :=
  (splitAtChar ',' cs).mapM fun part => parseNumber (trimBlanks part)

/-- One line of assembly (R55): blanks, a mnemonic, its operands, and a comment after `;`. A line of blanks and comment
holds no instruction. -/
def assembleLine (idxW : Nat) (line : String) : Except AsmError (Option Instr) :=
  let text := trimBlanks (line.toList.takeWhile (· ≠ ';'))
  if text = [] then .ok none
  else
    match parseMnemonic (text.takeWhile fun c => !isBlank c) with
    | none => .error .badMnemonic
    | some h =>
      match parseOperands (text.dropWhile fun c => !isBlank c) with
      | none => .error .badNumber
      | some ns => (assembleOperands idxW h ns).map some

/-- The `REQ` word of one line (R48, R55). -/
def assembleWord (idxW : Nat) (line : String) : Option Nat :=
  match assembleLine idxW line with
  | .ok (some i) => some (encode idxW i)
  | _ => none

end Sys2Proof.Machine
end

