-- ==== Sys2Proof/Machine/Datapath.lean ====
section
/-! DEFINITION. The byte-wise datapaths of R66 and R72: concatenate the footprint bytes and shift, or combine masks and
slices byte by byte. The meanings use the bit-wise functions of R65 and R71; that the two agree is stated as obligations. -/

namespace Sys2Proof.Machine

/-- `c` bytes from byte `first` on as one number, byte `first` most significant: `B` of R66. -/
def gather (m : Memory) (first : Nat) : Nat → Nat
  | 0 => 0
  | c + 1 => gather m first c * 256 + (m.read (first + c)).toNat

/-- The unused low bits of the last footprint byte: `tail = 8*(last+1) - (s+L)` (R66). -/
def tailBits (s l : Nat) : Nat := 8 * (lastByte s l + 1) - (s + l)

/-- `ReadField` by the byte-wise datapath: `(B >> tail) & mask(L)` (R66). -/
def readDatapath (m : Memory) (s l : Nat) : Nat :=
  if l = 0 then 0
  else (gather m (firstByte s) (lastByte s l - firstByte s + 1) >>> tailBits s l) &&& mask l

/-- The byte mask `m_i` of the byte at distance `j = last - i` from the end: `(M >> (8*j)) & 0xFF` (R72). -/
def byteMask (s l j : Nat) : Byte := BitVec.ofNat 8 ((mask l <<< tailBits s l) >>> (8 * j))

/-- The source slice `x_i`: `(X >> (8*j)) & 0xFF` with `X = (v & mask(L)) << tail` (R72). -/
def byteSlice (s l v j : Nat) : Byte := BitVec.ofNat 8 (((v &&& mask l) <<< tailBits s l) >>> (8 * j))

/-- The first `c` bytes of the footprint combined: `buf'[i] = (buf[i] & ~m_i) | x_i` (R72). -/
def combine (m : Memory) (s l v : Nat) : Nat → Memory
  | 0 => m
  | c + 1 =>
    let i := firstByte s + c
    let j := lastByte s l - i
    (combine m s l v c).write i ((m.read i &&& ~~~byteMask s l j) ||| byteSlice s l v j)

/-- `WriteField` by the byte-wise datapath (R72); with `L = 0` nothing changes (R71, C3). -/
def writeDatapath (m : Memory) (s l v : Nat) : Memory :=
  if l = 0 then m else combine m s l v (lastByte s l - firstByte s + 1)

end Sys2Proof.Machine
end

