-- ==== Sys2Proof/Safety.lean ====
section
/-! DEFINITION. What a good state and a finished run are, and the next states the rules give, in the terms the statements
use. -/

namespace Sys2Proof.Machine

/-- The end of a run is final only when the list is exhausted, no request is in flight and no mark is set (R25). -/
def State.final (s : State) : Bool := s.pending.isEmpty && s.quiet && s.live

/-- The buffer invariant: canonical, and no byte beyond the `n` of the instance (R26). -/
def Memory.good (n : Nat) (m : Memory) : Bool := m.wf && m.within n

/-- What the response outputs obey in every state: the enables are `N` bits wide (R18); a write enable is also a read
enable (R34, R35, R37); an error carries no value and no enable (R82); no response, no value and no enable (R19). -/
structure Response.Good (n : Nat) (r : Response) : Prop where
  bufOut : r.bufOut.good n = true
  reWidth : r.byteRe < 2 ^ n
  weWidth : r.byteWe < 2 ^ n
  weSubset : r.byteWe = 0 ∨ r.byteWe = r.byteRe
  errorSilent : r.err ≠ 0 → r.rdValue = 0 ∧ r.byteRe = 0 ∧ r.byteWe = 0
  faultIsError : r.fault = true → r.err ≠ 0
  idleSilent : r.valid = false → r.rdValue = 0 ∧ r.err = 0 ∧ r.fault = false ∧ r.byteRe = 0 ∧ r.byteWe = 0

/-- What holds of each instance on a buffer of `n` bytes in every state: legal parameters (R6, R64) of that length, `LATENCY`
stages, each holding a request that the ports can carry and a canonical sample (R17), and good outputs. -/
structure Block.Good (n : Nat) (b : Block) : Prop where
  params : legal b.params = true
  size : b.params.nBytes = n
  stages : b.pipe.length = b.params.latency
  stagesFit : ∀ f ∈ b.inFlight, f.req.fits b.params.idxW = true
  stagesGood : ∀ f ∈ b.inFlight, f.bufIn.good n = true
  outputs : Response.Good n b.rsp

/-- The invariant of a run: a canonical buffer, good instances, and `rsp_fault` of any of them only together with a mark
(R81). -/
structure State.Inv (s : State) : Prop where
  buf : s.buf.good s.params.nBytes = true
  blocks : ∀ b ∈ s.blocks, b.Good s.params.nBytes
  faultMarked : ∀ b ∈ s.blocks, b.rsp.fault = true → s.live = false

/-- Exclusive access: no two requests in flight clash whose requesters differ (R42, R102). -/
def State.Exclusive (s : State) : Prop :=
  ∀ x ∈ s.flights, ∀ y ∈ s.flights, x.sameStream y = false → clash x.posed y.posed = false

/-- The state after a read of the resolved range `(st, l)` (R67, R68, R69): the value on `rsp_rd_value`, the footprint on
`rsp_byte_re`, nothing written, the buffer as it was, and `ok(v)` observed (assumption 17). Every other field is as before. -/
def State.readDone (s : State) (st l : Nat) : State :=
  { s with
    rsp := { valid := true, rdValue := BitVec.ofNat 128 (readField s.buf st l), err := 0, fault := false
             byteRe := footprint st l, byteWe := 0, bufOut := s.buf }
    observed := s.observed ++ [.ok (BitVec.ofNat 128 (readField s.buf st l))] }

/-- The state after a write of `v` to the resolved range `(st, l)` (R74, R75, R76): the new buffer driven and committed,
the footprint on both enables, the value 0, and `ok(0)` observed (assumption 17). Every other field is as before. -/
def State.writeDone (s : State) (st l v : Nat) : State :=
  { s with
    buf := writeField s.buf st l v
    rsp := { valid := true, rdValue := 0, err := 0, fault := false
             byteRe := footprint st l, byteWe := footprint st l, bufOut := writeField s.buf st l v }
    observed := s.observed ++ [.ok 0] }

/-- The state after a checked request that failed with `e` (R81, R82): `rsp_err` is the code, `rsp_fault` is 0, no value,
no enable, the buffer as it was, and `err(e)` observed. -/
def State.errorDone (s : State) (e : RangeError) : State :=
  { s with
    rsp := { valid := true, rdValue := 0, err := (match e with | .outOfBounds => 1 | .fieldTooWide => 2), fault := false
             byteRe := 0, byteWe := 0, bufOut := s.buf }
    observed := s.observed ++ [.err e] }

/-- The state after an unchecked request that failed with `e` (R81, R82): as `State.errorDone`, but `rsp_fault` is 1,
the mark `faulted` is set, and nothing is observed. -/
def State.faultDone (s : State) (e : RangeError) : State :=
  { s with
    rsp := { valid := true, rdValue := 0, err := (match e with | .outOfBounds => 1 | .fieldTooWide => 2), fault := true
             byteRe := 0, byteWe := 0, bufOut := s.buf }
    faulted := some (.unchecked e) }

end Sys2Proof.Machine
end

