-- ==== Sys2Proof/Certificates/Slice0/Obligations.lean ====
section
/-! DEFINITION. The statements for the provers, from the numbered rules of spec/. -/

open Sys2Proof Sys2Proof.Machine

/-! ### Encoding (30_encoding.md) -/

/-- R48 to R53: the encoder's word fits in `REQ_W` bits, and decoding it gives the instruction back, every operand at every
value its field admits. A read carries no write value (assumption 16). -/
def Obligations.DecodeOfEncodeIsTheInstruction : Prop :=
  ∀ (idxW : Nat) (i : Instr), i.wf idxW = true →
    encode idxW i < 2 ^ reqW idxW ∧ decode idxW (encode idxW i) = .ok i

/-- The other direction: a word that decodes gives a well-formed instruction, which encodes to the same word; for a read, to
the word with its ignored `wval` bits at 0 (R52; that the encoder drives 0 there is the model's choice, assumption 16). -/
def Obligations.EncodeOfDecodeIsTheWord : Prop :=
  ∀ (idxW w : Nat) (i : Instr), decode idxW w = .ok i →
    i.wf idxW = true ∧ (i.op = .write → encode idxW i = w) ∧ (i.op = .read → encode idxW i = w % 2 ^ (8 + 2 * idxW))

/-- R53: the forty legal control bytes, each with the row and the `CHK` it names; a control byte names an instruction
exactly when `RSV = 00` and `WSEL <= 4`; under the mask 0xFB every row's `ctl` is its match. -/
def Obligations.OpcodeMapNamesFortyControlBytes : Prop :=
  (∀ (idxW lo hi : Nat) (wval : Value), lo < 2 ^ idxW → hi < 2 ^ idxW →
    ∀ c ∈ [
      (0x00#8, Instr.rdfHoW8 false lo hi), (0x04#8, Instr.rdfHoW8 true lo hi),
      (0x02#8, Instr.rdfClW8 false lo hi), (0x06#8, Instr.rdfClW8 true lo hi),
      (0x01#8, Instr.wrfHoW8 false lo hi wval), (0x05#8, Instr.wrfHoW8 true lo hi wval),
      (0x03#8, Instr.wrfClW8 false lo hi wval), (0x07#8, Instr.wrfClW8 true lo hi wval),
      (0x08#8, Instr.rdfHoW16 false lo hi), (0x0C#8, Instr.rdfHoW16 true lo hi),
      (0x0A#8, Instr.rdfClW16 false lo hi), (0x0E#8, Instr.rdfClW16 true lo hi),
      (0x09#8, Instr.wrfHoW16 false lo hi wval), (0x0D#8, Instr.wrfHoW16 true lo hi wval),
      (0x0B#8, Instr.wrfClW16 false lo hi wval), (0x0F#8, Instr.wrfClW16 true lo hi wval),
      (0x10#8, Instr.rdfHoW32 false lo hi), (0x14#8, Instr.rdfHoW32 true lo hi),
      (0x12#8, Instr.rdfClW32 false lo hi), (0x16#8, Instr.rdfClW32 true lo hi),
      (0x11#8, Instr.wrfHoW32 false lo hi wval), (0x15#8, Instr.wrfHoW32 true lo hi wval),
      (0x13#8, Instr.wrfClW32 false lo hi wval), (0x17#8, Instr.wrfClW32 true lo hi wval),
      (0x18#8, Instr.rdfHoW64 false lo hi), (0x1C#8, Instr.rdfHoW64 true lo hi),
      (0x1A#8, Instr.rdfClW64 false lo hi), (0x1E#8, Instr.rdfClW64 true lo hi),
      (0x19#8, Instr.wrfHoW64 false lo hi wval), (0x1D#8, Instr.wrfHoW64 true lo hi wval),
      (0x1B#8, Instr.wrfClW64 false lo hi wval), (0x1F#8, Instr.wrfClW64 true lo hi wval),
      (0x20#8, Instr.rdfHoW128 false lo hi), (0x24#8, Instr.rdfHoW128 true lo hi),
      (0x22#8, Instr.rdfClW128 false lo hi), (0x26#8, Instr.rdfClW128 true lo hi),
      (0x21#8, Instr.wrfHoW128 false lo hi wval), (0x25#8, Instr.wrfHoW128 true lo hi wval),
      (0x23#8, Instr.wrfClW128 false lo hi wval), (0x27#8, Instr.wrfClW128 true lo hi wval)],
      decodeRequest idxW { ctl := c.1, lo := lo, hi := hi, wval := wval } = .ok c.2) ∧
  ∀ (idxW : Nat) (r : Request), r.fits idxW = true →
    ((∃ i, decodeRequest idxW r = .ok i) ↔ r.ctl.toNat / 64 = 0 ∧ r.ctl.toNat / 8 % 8 ≤ 4) ∧
    ∀ i, decodeRequest idxW r = .ok i →
      r.ctl &&& 0xFB#8 = BitVec.ofNat 8 ((i.width.wsel <<< 3) ||| (i.form.bit <<< 1) ||| i.op.bit)

/-- R54: the reserved control bytes are the values 0x28 to 0xFF, and each raises `IllegalControl`, whatever its `CHK` bit. -/
def Obligations.ReservedControlBytesRaiseIllegalControl : Prop :=
  ∀ (r : Request) (s : State), r.fits s.params.idxW = true →
    ((r.ctl.toNat / 64 ≠ 0 ∨ 5 ≤ r.ctl.toNat / 8 % 8) ↔ 0x28 ≤ r.ctl.toNat) ∧
    (0x28 ≤ r.ctl.toNat →
      decodeRequest s.params.idxW r = .error (.illegalControl r.ctl) ∧
      State.perform r s = .next { s with
        rsp := { valid := true, rdValue := 0, err := 3, fault := true, byteRe := 0, byteWe := 0, bufOut := s.buf }
        refused := some .illegalControl })

/-- `REQ` words of programs P1 to P5 of 95_test_vectors.md, one or more of each family, decode to what the listing says. -/
def Obligations.ListedRequestWordsDecode : Prop :=
  decode 8 0x00000000000000000000000000000000201008 = .ok (.rdfHoW16 false 16 32) ∧
  decode 8 0x00000000000000000000000000000000474002 = .ok (.rdfClW8 false 64 71) ∧
  decode 8 0x00000000000000000000000000000000A06018 = .ok (.rdfHoW64 false 96 160) ∧
  decode 6 0x00000000000000000000000002AAAAAA78411 = .ok (.wrfHoW32 false 4 30 0x2AAAAAA) ∧
  decode 6 0x000000000000000000000000000000077DE03 = .ok (.wrfClW8 false 30 31 7) ∧
  decode 6 0x000000000000000000000000000012348100D = .ok (.wrfHoW16 true 16 32 0x1234) ∧
  decode 6 0x000000000000000000000000000000007D00A = .ok (.rdfClW16 false 16 31) ∧
  decode 8 0x0123456789ABCDEFFEDCBA9876543210870721 =
    .ok (.wrfHoW128 false 7 135 0x0123456789ABCDEFFEDCBA9876543210) ∧
  decode 8 0x00000000000000000000000000000000880024 = .ok (.rdfHoW128 true 0 136) ∧
  decode 4 0x000000000000000000000000000000003900 = .ok (.rdfHoW8 false 9 3)

/-! ### The resolver (40_resolver.md) -/

/-- R57: the checks in their order, for both forms, over exact numbers. -/
def Obligations.ResolverMakesItsChecksInOrder : Prop :=
  ∀ (lo hi w n : Nat),
    (lo > hi → resolve .halfOpen lo hi w n = .error .outOfBounds ∧ resolve .closed lo hi w n = .error .outOfBounds) ∧
    (lo ≤ hi → lo + (hi - lo) > 8 * n → resolve .halfOpen lo hi w n = .error .outOfBounds) ∧
    (lo ≤ hi → lo + (hi - lo + 1) > 8 * n → resolve .closed lo hi w n = .error .outOfBounds) ∧
    (lo ≤ hi → lo + (hi - lo) ≤ 8 * n → hi - lo > w → resolve .halfOpen lo hi w n = .error .fieldTooWide) ∧
    (lo ≤ hi → lo + (hi - lo + 1) ≤ 8 * n → hi - lo + 1 > w → resolve .closed lo hi w n = .error .fieldTooWide) ∧
    (lo ≤ hi → lo + (hi - lo) ≤ 8 * n → hi - lo ≤ w → resolve .halfOpen lo hi w n = .ok (lo, hi - lo)) ∧
    (lo ≤ hi → lo + (hi - lo + 1) ≤ 8 * n → hi - lo + 1 ≤ w → resolve .closed lo hi w n = .ok (lo, hi - lo + 1))

/-- R63: the listed results with `N = 4`. Where the rule names no width, the result holds at every width of R6. -/
def Obligations.ResolverGivesTheListedResults : Prop :=
  resolve .halfOpen 16 32 16 4 = .ok (16, 16) ∧ resolve .closed 16 31 16 4 = .ok (16, 16) ∧
  resolve .halfOpen 0 16 8 4 = .error .fieldTooWide ∧ resolve .halfOpen 24 40 8 4 = .error .outOfBounds ∧
  ∀ w : Width,
    resolve .halfOpen 5 5 w.bits 4 = .ok (5, 0) ∧ resolve .halfOpen 32 32 w.bits 4 = .ok (32, 0) ∧
    resolve .halfOpen 33 33 w.bits 4 = .error .outOfBounds ∧ resolve .halfOpen 5 3 w.bits 4 = .error .outOfBounds ∧
    resolve .closed 5 4 w.bits 4 = .error .outOfBounds

/-- R59: a resolved range lies in the buffer, fits the width, and its footprint names only bytes of the buffer. -/
def Obligations.ResolvedRangeLiesInTheBuffer : Prop :=
  ∀ (p : Params) (form : RangeForm) (w : Width) (lo hi s l : Nat), resolveFor p form w lo hi = .ok (s, l) →
    s + l ≤ 8 * p.nBytes ∧ l ≤ w.bits ∧ w.bits ≤ 128 ∧ (∀ k < l, s + k < 8 * p.nBytes) ∧
    ∀ i, (footprint s l).testBit i = true → i < p.nBytes

/-- R60: only the half-open form gives length 0, `[lo, lo)` with `lo <= 8*N` is legal, `[8*N+1, 8*N+1)` is not, and a
request of length 0 yields the value 0 on a read and does nothing on a write. -/
def Obligations.ZeroLengthRangesAreLegalNoOps : Prop :=
  (∀ (form : RangeForm) (lo hi w n s : Nat), resolve form lo hi w n = .ok (s, 0) →
    form = .halfOpen ∧ hi = lo ∧ s = lo ∧ lo ≤ 8 * n) ∧
  (∀ lo w n : Nat, lo ≤ 8 * n → resolve .halfOpen lo lo w n = .ok (lo, 0)) ∧
  (∀ w n : Nat, resolve .halfOpen (8 * n) (8 * n) w n = .ok (8 * n, 0) ∧
    resolve .halfOpen (8 * n + 1) (8 * n + 1) w n = .error .outOfBounds) ∧
  ∀ (i : Instr) (s : State) (st : Nat), resolveFor s.params i.form i.width i.lo i.hi = .ok (st, 0) →
    ∃ t, exec i s = .next t ∧ t.rsp.rdValue = 0 ∧ t.rsp.err = 0 ∧ t.rsp.byteRe = 0 ∧ t.rsp.byteWe = 0 ∧ t.buf = s.buf

/-- R61: a closed range has length 1 or more, `[lo, lo-1]` and `[lo, 8*N]` raise `OutOfBounds`. -/
def Obligations.ClosedRangesAreNeverEmpty : Prop :=
  (∀ lo hi w n s l : Nat, resolve .closed lo hi w n = .ok (s, l) → 1 ≤ l ∧ lo ≤ hi ∧ hi + 1 ≤ 8 * n) ∧
  (∀ lo w n : Nat, 1 ≤ lo → resolve .closed lo (lo - 1) w n = .error .outOfBounds) ∧
  ∀ lo w n : Nat, lo ≤ 8 * n → resolve .closed lo (8 * n) w n = .error .outOfBounds

/-- R64: a static instance acts on every instruction exactly as the dynamic instance does on the same request carrying
`S_FORM`, `S_LO` and `S_HI`; a legal one never reports `OutOfBounds`; an instance whose static range fails check 1 or 2 is
refused. A reserved control byte is answered alike on both. -/
def Obligations.StaticInstanceActsAsDynamic : Prop :=
  (∀ (r : Request) (s : State), s.params.staticRange = true → r.fits s.params.idxW = true → 0x28 ≤ r.ctl.toNat →
    ∃ t, State.perform r s = .next t ∧
      State.perform r { s with params := { s.params with staticRange := false } } =
        .next { t with params := { s.params with staticRange := false } }) ∧
  (∀ (i : Instr) (s : State), s.params.staticRange = true →
    ∃ t, exec i s = .next t ∧
      exec (Instr.make i.op s.params.sForm i.width i.chk s.params.sLo s.params.sHi i.wval)
          { s with params := { s.params with staticRange := false } } =
        .next { t with params := { s.params with staticRange := false } }) ∧
  (∀ (i : Instr) (s : State), s.params.staticRange = true → legal s.params = true →
    resolveFor s.params i.form i.width i.lo i.hi ≠ .error .outOfBounds) ∧
  ∀ (s : State) (w : Nat), s.params.staticRange = true →
    resolve s.params.sForm s.params.sLo s.params.sHi w s.params.nBytes = .error .outOfBounds →
    step s = .refused .illFormedInstance

/-! ### The instructions (41_read.md, 42_write.md) -/

/-- R68: the five `RDF.HO` instructions, each with its width and its `ctl` byte. On an instance with dynamic ranges: in range
and not too wide, the instruction completes with exactly the state `State.readDone` spells out (so everything else is as it was);
inverted or past the end, `OutOfBounds`; in the buffer but longer than `W`, `FieldTooWide`; each error reported as R81 and R82 say
(`State.errorDone`, `State.faultDone`). A static range is `StaticInstanceActsAsDynamic`. The rule says nothing of
`observed`: that its record of the outcome is the value alone is the model's (assumption 17). -/
def Obligations.RdfHoReadsField : Prop :=
  ∀ (chk : Bool) (lo hi : Nat) (s : State), s.params.staticRange = false →
    ∀ c ∈ [
      (8, 0x00#8, Instr.rdfHoW8 chk lo hi),
      (16, 0x08#8, Instr.rdfHoW16 chk lo hi),
      (32, 0x10#8, Instr.rdfHoW32 chk lo hi),
      (64, 0x18#8, Instr.rdfHoW64 chk lo hi),
      (128, 0x20#8, Instr.rdfHoW128 chk lo hi)],
    c.2.2.ctl = c.2.1 + (if chk then 4#8 else 0#8) ∧
    (lo ≤ hi → hi ≤ 8 * s.params.nBytes → hi - lo ≤ c.1 → exec c.2.2 s = .next (s.readDone lo (hi - lo))) ∧
    (lo > hi ∨ hi > 8 * s.params.nBytes →
      exec c.2.2 s = .next (if chk then s.errorDone .outOfBounds else s.faultDone .outOfBounds)) ∧
    (lo ≤ hi → hi ≤ 8 * s.params.nBytes → hi - lo > c.1 →
      exec c.2.2 s = .next (if chk then s.errorDone .fieldTooWide else s.faultDone .fieldTooWide))

/-- R69: the five `RDF.CL` instructions, each with its width and its `ctl` byte. On an instance with dynamic ranges: in range
and not too wide, the instruction completes with exactly the state `State.readDone` spells out (so everything else is as it was);
inverted or past the end, `OutOfBounds`; in the buffer but longer than `W`, `FieldTooWide`; each error reported as R81 and R82 say
(`State.errorDone`, `State.faultDone`). A static range is `StaticInstanceActsAsDynamic`. The rule says nothing of
`observed`: that its record of the outcome is the value alone is the model's (assumption 17). -/
def Obligations.RdfClReadsField : Prop :=
  ∀ (chk : Bool) (lo hi : Nat) (s : State), s.params.staticRange = false →
    ∀ c ∈ [
      (8, 0x02#8, Instr.rdfClW8 chk lo hi),
      (16, 0x0A#8, Instr.rdfClW16 chk lo hi),
      (32, 0x12#8, Instr.rdfClW32 chk lo hi),
      (64, 0x1A#8, Instr.rdfClW64 chk lo hi),
      (128, 0x22#8, Instr.rdfClW128 chk lo hi)],
    c.2.2.ctl = c.2.1 + (if chk then 4#8 else 0#8) ∧
    (lo ≤ hi → hi < 8 * s.params.nBytes → hi - lo + 1 ≤ c.1 → exec c.2.2 s = .next (s.readDone lo (hi - lo + 1))) ∧
    (lo > hi ∨ hi ≥ 8 * s.params.nBytes →
      exec c.2.2 s = .next (if chk then s.errorDone .outOfBounds else s.faultDone .outOfBounds)) ∧
    (lo ≤ hi → hi < 8 * s.params.nBytes → hi - lo + 1 > c.1 →
      exec c.2.2 s = .next (if chk then s.errorDone .fieldTooWide else s.faultDone .fieldTooWide))

/-- R75: the five `WRF.HO` instructions, each with its width and its `ctl` byte. On an instance with dynamic ranges: in range
and not too wide, the instruction completes with exactly the state `State.writeDone` spells out (so everything else is as it was);
inverted or past the end, `OutOfBounds`; in the buffer but longer than `W`, `FieldTooWide`; each error reported as R81 and R82 say
(`State.errorDone`, `State.faultDone`). A static range is `StaticInstanceActsAsDynamic`. The rule says nothing of
`observed`: that its record of the outcome is the value alone is the model's (assumption 17). -/
def Obligations.WrfHoWritesField : Prop :=
  ∀ (chk : Bool) (lo hi : Nat) (wval : Value) (s : State), s.params.staticRange = false → s.buf.wf = true →
    ∀ c ∈ [
      (8, 0x01#8, Instr.wrfHoW8 chk lo hi wval),
      (16, 0x09#8, Instr.wrfHoW16 chk lo hi wval),
      (32, 0x11#8, Instr.wrfHoW32 chk lo hi wval),
      (64, 0x19#8, Instr.wrfHoW64 chk lo hi wval),
      (128, 0x21#8, Instr.wrfHoW128 chk lo hi wval)],
    c.2.2.ctl = c.2.1 + (if chk then 4#8 else 0#8) ∧
    (lo ≤ hi → hi ≤ 8 * s.params.nBytes → hi - lo ≤ c.1 → exec c.2.2 s = .next (s.writeDone lo (hi - lo) (wval.toNat % 2 ^ c.1))) ∧
    (lo > hi ∨ hi > 8 * s.params.nBytes →
      exec c.2.2 s = .next (if chk then s.errorDone .outOfBounds else s.faultDone .outOfBounds)) ∧
    (lo ≤ hi → hi ≤ 8 * s.params.nBytes → hi - lo > c.1 →
      exec c.2.2 s = .next (if chk then s.errorDone .fieldTooWide else s.faultDone .fieldTooWide))

/-- R76: the five `WRF.CL` instructions, each with its width and its `ctl` byte. On an instance with dynamic ranges: in range
and not too wide, the instruction completes with exactly the state `State.writeDone` spells out (so everything else is as it was);
inverted or past the end, `OutOfBounds`; in the buffer but longer than `W`, `FieldTooWide`; each error reported as R81 and R82 say
(`State.errorDone`, `State.faultDone`). A static range is `StaticInstanceActsAsDynamic`. The rule says nothing of
`observed`: that its record of the outcome is the value alone is the model's (assumption 17). -/
def Obligations.WrfClWritesField : Prop :=
  ∀ (chk : Bool) (lo hi : Nat) (wval : Value) (s : State), s.params.staticRange = false → s.buf.wf = true →
    ∀ c ∈ [
      (8, 0x03#8, Instr.wrfClW8 chk lo hi wval),
      (16, 0x0B#8, Instr.wrfClW16 chk lo hi wval),
      (32, 0x13#8, Instr.wrfClW32 chk lo hi wval),
      (64, 0x1B#8, Instr.wrfClW64 chk lo hi wval),
      (128, 0x23#8, Instr.wrfClW128 chk lo hi wval)],
    c.2.2.ctl = c.2.1 + (if chk then 4#8 else 0#8) ∧
    (lo ≤ hi → hi < 8 * s.params.nBytes → hi - lo + 1 ≤ c.1 → exec c.2.2 s = .next (s.writeDone lo (hi - lo + 1) (wval.toNat % 2 ^ c.1))) ∧
    (lo > hi ∨ hi ≥ 8 * s.params.nBytes →
      exec c.2.2 s = .next (if chk then s.errorDone .outOfBounds else s.faultDone .outOfBounds)) ∧
    (lo ≤ hi → hi < 8 * s.params.nBytes → hi - lo + 1 > c.1 →
      exec c.2.2 s = .next (if chk then s.errorDone .fieldTooWide else s.faultDone .fieldTooWide))

/-- R28: `BitAt` is the bit of byte `p / 8` with weight `2^(7 - p mod 8)`; `SetBit` combines that byte and leaves every
other byte. -/
def Obligations.BitPositionsCountFromTheMostSignificantBit : Prop :=
  ∀ (m : Memory) (p : Nat), m.wf = true →
    bitAt m p = decide ((m.read (p / 8)).toNat / 2 ^ (7 - p % 8) % 2 = 1) ∧
    ∀ x : Bool,
      (setBit m p x).read (p / 8) =
        ((m.read (p / 8) &&& ~~~(1#8 <<< (7 - p % 8))) ||| ((if x then 1#8 else 0#8) <<< (7 - p % 8))) ∧
      (∀ q, bitAt (setBit m p x) q = if q = p then x else bitAt m q) ∧
      ∀ a, a ≠ p / 8 → (setBit m p x).read a = m.read a

/-- R65: on the value port of any read that resolves, bit `L-1-k` is the buffer bit at position `s+k`, and every bit from `L`
on is 0. -/
def Obligations.ReadValueIsTheFieldMostSignificantBitFirst : Prop :=
  ∀ (i : Instr) (s : State) (st l : Nat), i.op = .read →
    resolveFor s.params i.form i.width i.lo i.hi = .ok (st, l) →
    ∃ t, exec i s = .next t ∧ (∀ k < l, t.rsp.rdValue.getLsbD (l - 1 - k) = bitAt s.buf (st + k)) ∧
      ∀ j, l ≤ j → t.rsp.rdValue.getLsbD j = false

/-- R71: any write that resolves sets the bit at position `s+k` to bit `L-1-k` of `wval[W-1:0]` and changes no other buffer
bit. -/
def Obligations.WriteSetsTheFieldAndNoOtherBit : Prop :=
  ∀ (i : Instr) (s : State) (st l : Nat), s.buf.wf = true → i.op = .write →
    resolveFor s.params i.form i.width i.lo i.hi = .ok (st, l) →
    ∃ t, exec i s = .next t ∧
      (∀ k < l, bitAt t.buf (st + k) = (i.wval.toNat % 2 ^ i.width.bits).testBit (l - 1 - k)) ∧
      ∀ q, (q < st ∨ st + l ≤ q) → bitAt t.buf q = bitAt s.buf q

/-- R66: the byte-wise read datapath computes the same number as the bit-wise function, for every buffer and range; the
tail is at most 7, and the concatenated footprint has `8*count` bits, at most 136 in BFX. -/
def Obligations.ReadDatapathEqualsReadField : Prop :=
  ∀ (m : Memory) (s l : Nat), readDatapath m s l = readField m s l ∧
    (0 < l → tailBits s l ≤ 7 ∧
      gather m (firstByte s) (lastByte s l - firstByte s + 1) < 2 ^ (8 * (lastByte s l - firstByte s + 1)) ∧
      (l ≤ 128 → gather m (firstByte s) (lastByte s l - firstByte s + 1) < 2 ^ 136))

/-- R72: the byte-wise write datapath computes the same buffer as the bit-wise function; every byte mask of the footprint
is nonzero, and only the first and the last can differ from 0xFF; `M` and `X` have `8*count` bits. -/
def Obligations.WriteDatapathEqualsWriteField : Prop :=
  ∀ (m : Memory) (s l v : Nat), m.wf = true →
    writeDatapath m s l v = writeField m s l v ∧
    (0 < l → (∀ j, j ≤ lastByte s l - firstByte s → byteMask s l j ≠ 0) ∧
      (∀ j, 0 < j → j < lastByte s l - firstByte s → byteMask s l j = 0xFF) ∧
      mask l <<< tailBits s l < 2 ^ (8 * (lastByte s l - firstByte s + 1)) ∧
      (v &&& mask l) <<< tailBits s l < 2 ^ (8 * (lastByte s l - firstByte s + 1)))

/-- R70: the laws of the read family. -/
def Obligations.ReadLawsHold : Prop :=
  (∀ (i j : Instr) (s t u : State), i.op = .read → j.op = .read → i.form = j.form → i.lo = j.lo → i.hi = j.hi →
    exec i s = .next t → exec j s = .next u → t.rsp.err = 0 → u.rsp.err = 0 → t.rsp.rdValue = u.rsp.rdValue) ∧
  (∀ (i j : Instr) (s : State), s.params.staticRange = false → i.op = .read → j.op = .read → i.form = .halfOpen →
    j.form = .closed → i.width = j.width → i.chk = j.chk → i.lo = j.lo → i.hi = j.hi + 1 → i.lo < i.hi →
    exec i s = exec j s) ∧
  (∀ (m m' : Memory) (s l : Nat), (∀ a, (footprint s l).testBit a = true → m.read a = m'.read a) →
    readField m s l = readField m' s l) ∧
  ∀ (m : Memory) (lo mid hi : Nat), lo < mid → mid < hi →
    readField m lo (hi - lo) = (readField m lo (mid - lo) <<< (hi - mid)) ||| readField m mid (hi - mid)

/-- R77: the laws of the write family, for every buffer, range and value. -/
def Obligations.WriteLawsHold : Prop :=
  ∀ (m : Memory) (s l v v' : Nat), m.wf = true →
    readField (writeField m s l v) s l = v &&& mask l ∧
    (∀ q, (q < s ∨ s + l ≤ q) → bitAt (writeField m s l v) q = bitAt m q) ∧
    writeField (writeField m s l v) s l v = writeField m s l v ∧
    writeField (writeField m s l v) s l v' = writeField m s l v' ∧
    writeField m s l (readField m s l) = m

/-- The round trip through the machine (R77 law 1): a `WRF` and then the `RDF` of the same range and width complete, and the
read's value is the low `L` bits of the value written. -/
def Obligations.ReadAfterWriteGivesTheValue : Prop :=
  ∀ (wr rd : Instr) (s : State) (st l : Nat), s.buf.wf = true → wr.op = .write → rd.op = .read → rd.form = wr.form →
    rd.width = wr.width → rd.lo = wr.lo → rd.hi = wr.hi →
    resolveFor s.params wr.form wr.width wr.lo wr.hi = .ok (st, l) →
    ∃ t u, exec wr s = .next t ∧ exec rd t = .next u ∧ u.rsp.rdValue.toNat = wr.wval.toNat % 2 ^ l ∧ u.buf = t.buf

/-- R73: value bits at or above position `L` raise no error and are ignored: two writes that differ in them only give the
same next state. -/
def Obligations.ExcessValueBitsAreIgnored : Prop :=
  ∀ (form : RangeForm) (w : Width) (chk : Bool) (lo hi st l : Nat) (v v' : Value) (s : State),
    resolveFor s.params form w lo hi = .ok (st, l) → v.toNat % 2 ^ l = v'.toNat % 2 ^ l →
    exec (Instr.make .write form w chk lo hi v) s = exec (Instr.make .write form w chk lo hi v') s ∧
    ∃ t, exec (Instr.make .write form w chk lo hi v) s = .next t ∧ t.rsp.err = 0

/-- R30: a byte-aligned field reads as the big-endian number of its bytes; its 8-bit read is its most significant byte;
the rule's example. -/
def Obligations.AlignedFieldsAreBigEndian : Prop :=
  (∀ (m : Memory) (b k : Nat),
    readField m (8 * b) (8 * k) = (List.range k).foldl (fun v j => v * 2 ^ 8 + (m.read (b + j)).toNat) 0) ∧
  (∀ (m : Memory) (b k : Nat), 0 < k →
    readField m (8 * b) 8 = (m.read b).toNat ∧ readField m (8 * b) (8 * k) / 2 ^ (8 * (k - 1)) = (m.read b).toNat) ∧
  readField (Memory.ofBytes [0x45, 0x00, 0x00, 0x54]) 16 16 = 0x0054

/-- R33: the footprint of a nonempty range is the bytes `s >> 3` to `(s + L - 1) >> 3`, as many as the closed formula
says, at most one more than `L/8` rounded up, and at most 17; that of an empty range is empty. -/
def Obligations.FootprintIsTheOverlappedBytes : Prop :=
  (∀ s : Nat, footprint s 0 = 0) ∧
  ∀ s l : Nat, 0 < l →
    (∀ i, (footprint s l).testBit i = true ↔ s / 8 ≤ i ∧ i ≤ (s + l - 1) / 8) ∧
    lastByte s l - firstByte s + 1 = (s % 8 + l + 7) / 8 ∧
    lastByte s l - firstByte s + 1 ≤ (l + 7) / 8 + 1 ∧
    (l ≤ 128 → lastByte s l - firstByte s + 1 ≤ 17)

/-- The frame of every instruction whose range resolves (R34, R35, R37, R74): the read enables are the footprint, the write
enables are the footprint for a write and none for a read, every byte outside the footprint is as it was, a read changes no
byte at all, and besides the buffer only the response and the observations change (by the value of an `ok` outcome alone,
assumption 17). -/
def Obligations.InstructionsChangeOnlyTheirFootprint : Prop :=
  ∀ (i : Instr) (s : State) (st l : Nat), s.buf.wf = true →
    resolveFor s.params i.form i.width i.lo i.hi = .ok (st, l) →
    ∃ t, exec i s = .next t ∧
      (∀ a, t.rsp.byteRe.testBit a = true ↔ 0 < l ∧ st / 8 ≤ a ∧ a ≤ (st + l - 1) / 8) ∧
      (i.op = .write → t.rsp.byteWe = t.rsp.byteRe) ∧
      (i.op = .read → t.rsp.byteWe = 0 ∧ t.buf = s.buf) ∧
      (∀ a, ¬(0 < l ∧ st / 8 ≤ a ∧ a ≤ (st + l - 1) / 8) → t.buf.read a = s.buf.read a) ∧
      t.rsp.bufOut = t.buf ∧
      t = { s with buf := t.buf, rsp := t.rsp, observed := s.observed ++ [.ok t.rsp.rdValue] }

/-! ### Errors (60_exceptions.md) -/

/-- R81 and R82 for every instruction, on dynamic and static instances: a range error gives the state `State.errorDone`
spells out when checked, and `State.faultDone` when not; the codes are R78's. -/
def Obligations.RangeErrorsAreReported : Prop :=
  ∀ (i : Instr) (s : State) (e : RangeError), resolveFor s.params i.form i.width i.lo i.hi = .error e →
    ∃ t, exec i s = .next t ∧ t = (if i.chk then s.errorDone e else s.faultDone e) ∧
      t.rsp.err = (if e = .outOfBounds then 1 else 2) ∧ t.rsp.fault = !i.chk ∧ t.rsp.rdValue = 0 ∧
      t.rsp.byteRe = 0 ∧ t.rsp.byteWe = 0 ∧ t.rsp.bufOut = s.buf ∧ t.buf = s.buf

/-- R80: a request reports the first error that applies: `IllegalControl`, then `OutOfBounds` for an inverted range, then
`OutOfBounds` for a range past the end, then `FieldTooWide`. -/
def Obligations.FirstApplicableErrorIsReported : Prop :=
  ∀ (r : Request) (s : State), r.fits s.params.idxW = true → s.params.staticRange = false →
    ∃ t, State.perform r s = .next t ∧
      (0x28 ≤ r.ctl.toNat → t.rsp.err = 3) ∧
      ∀ i, decodeRequest s.params.idxW r = .ok i →
        (r.lo > r.hi → t.rsp.err = 1) ∧
        (r.lo ≤ r.hi → r.lo + rangeLength i.form r.lo r.hi > 8 * s.params.nBytes → t.rsp.err = 1) ∧
        (r.lo ≤ r.hi → r.lo + rangeLength i.form r.lo r.hi ≤ 8 * s.params.nBytes →
          rangeLength i.form r.lo r.hi > i.width.bits → t.rsp.err = 2) ∧
        (r.lo ≤ r.hi → r.lo + rangeLength i.form r.lo r.hi ≤ 8 * s.params.nBytes →
          rangeLength i.form r.lo r.hi ≤ i.width.bits → t.rsp.err = 0)

/-- R79 through the step: a reserved control byte drives `rsp_err = 3` and `rsp_fault = 1`, changes no byte, sets `refused`,
and the run performs nothing after it (the refusal answered by the next step is the model's reading, assumption 4). -/
def Obligations.ReservedControlByteEndsTheRun : Prop :=
  ∀ (r : Request) (rest : List HostAction) (s : State), s.lawful = true → s.live = true → s.quiet = true →
    s.pending = .issue r :: rest → r.fits s.params.idxW = true → 0x28 ≤ r.ctl.toNat →
    ∃ t, step s = .next t ∧ t.rsp.err = 3 ∧ t.rsp.fault = true ∧ t.rsp.rdValue = 0 ∧ t.rsp.byteRe = 0 ∧
      t.rsp.byteWe = 0 ∧ t.rsp.bufOut = s.buf ∧ t.buf = s.buf ∧ t.refused = some .illegalControl ∧
      t.observed = s.observed ∧ step t = .refused (.runRefused .illegalControl)

/-- R85: after a checked error the next instruction does exactly what it would have done without the error; only the
observed `err` stands before its own outcome. -/
def Obligations.CheckedErrorLeavesNothingBehind : Prop :=
  ∀ (i j : Instr) (s : State) (e : RangeError), i.chk = true →
    resolveFor s.params i.form i.width i.lo i.hi = .error e →
    ∃ t u v, exec i s = .next t ∧ exec j t = .next u ∧ exec j s = .next v ∧
      u = { v with observed := u.observed } ∧
      ∃ os, v.observed = s.observed ++ os ∧ u.observed = s.observed ++ .err e :: os

/-- Which instructions set `faulted` (R23, R81): exactly the unchecked ones whose range fails; none touches `refused`. -/
def Obligations.OnlyUncheckedRangeErrorsFault : Prop :=
  ∀ (i : Instr) (s : State), s.faulted = none →
    ∃ t, exec i s = .next t ∧ t.refused = s.refused ∧
      ∀ r, t.faulted = some r ↔
        i.chk = false ∧ ∃ e, r = .unchecked e ∧ resolveFor s.params i.form i.width i.lo i.hi = .error e

/-- R23 and R25: once a mark is set no request is performed. The answers `fault` and `refused` are the model's way to end a
run (assumptions 3 and 4). -/
def Obligations.MarkedRunsPerformNothing : Prop :=
  ∀ s : State, s.lawful = true →
    (∀ r, s.faulted = some r → step s = .fault (.runFaulted r)) ∧
    (∀ r, s.faulted = none → s.refused = some r → step s = .refused (.runRefused r))

/-! ### Requests and runs (10_state.md) -/

/-- A step runs the decoded request: when the host's next action is to issue a request that decodes to `i`, no mark is set and
nothing is in flight, the step is `exec i` at that state, with the request taken off the list, the position advanced by
one (R14, R25); the same for a word placed by `State.withFetchWord`. That the list is in State is assumption 5. The outputs of the
other instances are idle in it: R19's values, driven in an untimed step by assumption 6. -/
def Obligations.StepRunsTheDecodedRequest : Prop :=
  (∀ (s : State) (r : Request) (rest : List HostAction) (i : Instr), s.lawful = true → s.live = true →
    s.quiet = true → s.pending = .issue r :: rest → decodeRequest s.params.idxW r = .ok i →
    i.wf s.params.idxW = true ∧ step s = exec i { s.idlePeers with pending := rest, index := s.index + 1 }) ∧
  ∀ (s : State) (nbits w : Nat) (i : Instr), s.lawful = true → s.live = true → s.quiet = true →
    decode s.params.idxW (w % 2 ^ nbits) = .ok i →
    step (s.withFetchWord nbits w) = exec i { s.idlePeers with index := s.index + 1 }

/-- R12 and the last sentences of R24: a request's response, the buffer after it and its outcome are functions of the
request, the buffer and the parameters other than `LATENCY`; nothing else of the state has a say. -/
def Obligations.ResponseDependsOnRequestAndBufferOnly : Prop :=
  ∀ (r : Request) (s s' t t' : State) (k : Nat), s'.params = { s.params with latency := k } → s'.buf = s.buf →
    State.perform r s = .next t → State.perform r s' = .next t' →
    t.rsp = t'.rsp ∧ t.buf = t'.buf ∧
    ∃ os, t.observed = s.observed ++ os ∧ t'.observed = s'.observed ++ os

/-- R25 and R41: the steps of a list of issued requests are the requests performed in list order, each on the buffer the one
before it left, up to the first that sets a mark; with no mark set, all of them. That the list is in State is assumption 5. The
parameters and the pipelines of the other instances are as before; nothing is said of their outputs. -/
def Obligations.RunPerformsRequestsInOrder : Prop :=
  ∀ (rs : List Request) (s t : State), s.lawful = true → s.live = true → s.quiet = true →
    s.serveAll rs = .next t →
    ∃ k u, k ≤ rs.length ∧ Sys2Proof.core.run k { s with pending := rs.map .issue } = .next u ∧
      u = { t with pending := (rs.drop k).map .issue, peers := u.peers } ∧
      u.peers.map (fun b => (b.params, b.pipe)) = s.peers.map (fun b => (b.params, b.pipe)) ∧
      (t.live = true → k = rs.length)

/-- R16: the elaboration parameters are fixed: no step changes those of any instance. -/
def Obligations.StepsKeepTheParameters : Prop :=
  ∀ s t : State, step s = .next t → t.blocks.map (·.params) = s.blocks.map (·.params)

/-- Every step keeps the invariant of Safety.lean: a canonical buffer inside `N` bytes; for every instance legal parameters,
`LATENCY` stages with requests the ports can carry, and outputs as R18, R19, R34, R35, R37 and R82 say; and `rsp_fault` only with
a mark. -/
def Obligations.StepsKeepTheInvariant : Prop :=
  ∀ s t : State, s.Inv → step s = .next t → t.Inv

/-- The state after reset meets the invariant, and so does every launched run on legal parameters of one length and a canonical
start buffer; nothing is in flight, so that exclusive access holds too. (The parameters and the start buffer of `State.reset` are
the model's, assumptions 1, 2 and 25.) -/
def Obligations.ResetMeetsTheInvariant : Prop :=
  State.reset.Inv ∧ State.reset.Exclusive ∧
  ∀ (p : Params) (others : List Params) (m : Memory) (actions : List HostAction), legal p = true →
    (∀ q ∈ others, legal q = true ∧ q.nBytes = p.nBytes) → m.good p.nBytes = true →
    (State.launch p others m actions).Inv ∧ (State.launch p others m actions).Exclusive

/-- R95, for the launch of any instances on any start buffer: for each of them every valid bit is 0 and the outputs are the idle
values with `rsp_valid = 0`; both marks are false, and the buffer is the host's own. -/
def Obligations.ResetValuesAreTheListedOnes : Prop :=
  ∀ (p : Params) (others : List Params) (m : Memory) (actions : List HostAction),
    (State.launch p others m actions).faulted = none ∧ (State.launch p others m actions).refused = none ∧
    (State.launch p others m actions).buf = m ∧
    (State.launch p others m actions).blocks.map (·.params) = p :: others ∧
    ∀ b ∈ (State.launch p others m actions).blocks,
      b.pipe.length = b.params.latency ∧ (∀ f ∈ b.pipe, f = none) ∧
      b.rsp = { valid := false, rdValue := 0, err := 0, fault := false, byteRe := 0, byteWe := 0, bufOut := m }

/-- `State.reset` is such a launch: of assumption 1's instance, on assumption 2's buffer, with no other instance (assumption 25)
and nothing for the host to do (assumption 5). These four are the model's choices. -/
def Obligations.ResetStateIsALaunch : Prop :=
  State.reset = State.launch Config.resetParams [] [] [] ∧ State.reset.live = true ∧ State.reset.quiet = true ∧
    State.reset.index = 0

/-- R85's new run after a fault (the emptied pipeline is the model's choice, assumption 19): the marks are clear, the
buffer is as it stood, and the invariant still holds. -/
def Obligations.RestartKeepsTheBuffer : Prop :=
  ∀ (s : State) (actions : List HostAction), s.Inv →
    (s.restart actions).Inv ∧ (s.restart actions).live = true ∧ (s.restart actions).buf = s.buf ∧
    (s.restart actions).blocks.map (·.params) = s.blocks.map (·.params) ∧ (s.restart actions).quiet = true

/-! ### Ports, pipeline and reset (10_state.md, 70_reset_and_hazards.md) -/

/-- R18: byte `i` of a buffer travels on bits `[8*i+7 : 8*i]` of its bus, and nothing on the bus is above `8*N` bits. -/
def Obligations.BusCarriesByteIOnLaneI : Prop :=
  ∀ (m : Memory) (n : Nat), Memory.bus n m < 2 ^ (8 * n) ∧
    ∀ i < n, Memory.bus n m / 2 ^ (8 * i) % 2 ^ 8 = (m.read i).toNat

/-- R20: when a request that was sampled earlier completes, `rsp_valid` is 1 and the commit sets exactly the enabled bytes of the buffer as it
stands then to their bytes of `rsp_buf_out`, and no other byte. -/
def Obligations.CommitChangesExactlyTheEnabledBytes : Prop :=
  ∀ (f : InFlight) (s : State), s.buf.wf = true → f.req.fits s.params.idxW = true →
    ∃ t, s.complete f = .next t ∧ t.rsp.valid = true ∧
      ∀ a, t.buf.read a =
        if a < s.params.nBytes ∧ t.rsp.byteWe.testBit a = true then t.rsp.bufOut.read a else s.buf.read a

/-- R19: with nothing to do (assumption 7) and nothing in flight a step drives the idle values on every instance and changes
nothing else; an instance with `LATENCY = 0` has `rsp_valid = req_valid` in the same cycle. -/
def Obligations.IdleCyclesDriveIdleValues : Prop :=
  (∀ s : State, s.Inv → s.live = true → s.quiet = true → s.pending = [] →
    step s = .next { s with
      rsp := { valid := false, rdValue := 0, err := 0, fault := false, byteRe := 0, byteWe := 0, bufOut := s.buf }
      peers := s.peers.map fun b => { b with
        rsp := { valid := false, rdValue := 0, err := 0, fault := false, byteRe := 0, byteWe := 0, bufOut := s.buf } } }) ∧
  ∀ (s : State) (pins : Pins) (bufIn : Memory), s.params.latency = 0 → pins.req.fits s.params.idxW = true →
    ∃ t, s.blockCycle pins bufIn = .next t ∧ t.rsp.valid = pins.reqValid

/-- R93: with `LATENCY = 0` the pin `rst` has no effect: not on the instance's cycle, and not on the cycle of all of them; and the
outputs of its cycle are a function of the current inputs and the parameters, whatever else the state holds. -/
def Obligations.ResetPinHasNoEffectWithoutPipeline : Prop :=
  ∀ (s : State) (pins : Pins) (b : Bool), s.params.latency = 0 →
    (∀ bufIn, s.blockCycle { pins with rst := b } bufIn = s.blockCycle pins bufIn) ∧
    (∀ ps, s.clock ({ pins with rst := b } :: ps) = s.clock (pins :: ps)) ∧
    ∀ (s' t t' : State) (bufIn : Memory), s'.params = s.params → s.blockCycle pins bufIn = .next t →
      s'.blockCycle { pins with rst := b } bufIn = .next t' → t.rsp = t'.rsp

/-- R94: a reset cycle of a pipelined instance clears every valid bit, drives idle values, accepts no request and commits
nothing; and in every later cycle before the first response of a request issued after it, whatever the pins carry, the
outputs are idle and the buffer is as it was, as far as this instance goes (the others have nothing in flight). -/
def Obligations.ResetCycleDiscardsRequestsInFlight : Prop :=
  (∀ (s : State) (pins : Pins) (bufIn : Memory), s.params.latency ≠ 0 → pins.rst = true →
    s.blockCycle pins bufIn = .next { s with
      pipe := List.replicate s.params.latency none
      rsp := { valid := false, rdValue := 0, err := 0, fault := false, byteRe := 0, byteWe := 0, bufOut := bufIn } }) ∧
  ∀ (s : State) (pins : Pins), s.Inv → s.live = true → (∀ b ∈ s.peers, b.quiet = true) → s.params.latency ≠ 0 →
    pins.rst = true → (pins.reqValid = true → pins.req.fits s.params.idxW = true) →
    ∃ t, s.clock [pins] = .next t ∧ (∀ f ∈ t.pipe, f = none) ∧ t.index = s.index ∧ t.buf = s.buf ∧
      t.rsp = { valid := false, rdValue := 0, err := 0, fault := false, byteRe := 0, byteWe := 0, bufOut := s.buf } ∧
      ∀ (ps : List Pins) (u : State), (∀ p ∈ ps.take (ps.length - s.params.latency), p.reqValid = false) →
        Sys2Proof.core.run ps.length { t with pending := ps.map fun p => .clock [p] } = .next u →
        u.buf = s.buf ∧ u.rsp = t.rsp

/-- R98 and R99, with the last sentence of R24: a request clocked into an idle instance gives, `LATENCY` cycles later,
exactly the state that the untimed step of R24 gives: the same response, commit, marks and observations, whatever the
latency is. The two grains of step are assumption 6. -/
def Obligations.PipelinedRequestEqualsUntimedStep : Prop :=
  ∀ (s : State) (r : Request), s.Inv → s.live = true → s.quiet = true → r.fits s.params.idxW = true →
    Sys2Proof.core.run (s.params.latency + 1) { s with pending := [.clock [Pins.present r]] } =
      Sys2Proof.core.run 1 { s with pending := [.issue r] }

/-- R41 on a pipelined instance: requests clocked in one per cycle, none over the footprint of an uncommitted write (R101, in the
reading of assumptions 9 and 10), give the buffer, the observations and the position that performing them one after the other
gives. That the `clock` actions are a list in State, and that the serial run is in untimed steps, are assumptions 5 and 6; an `ok`
outcome is observed as its value alone (assumption 17). -/
def Obligations.HazardFreePipelineIsSequential : Prop :=
  ∀ (rs : List Request) (s t : State), s.Inv → s.live = true → s.quiet = true → s.params.latency ≠ 0 →
    (∀ (i j : Nat) (a b : Request), i < j → j ≤ i + s.params.latency → rs[i]? = some a → rs[j]? = some b →
      Posed.writes ⟨s.params, a⟩ = true → sharesByte ⟨s.params, a⟩ ⟨s.params, b⟩ = false) →
    s.serveAll rs = .next t → t.live = true →
    ∃ u, Sys2Proof.core.run (rs.length + s.params.latency)
        { s with pending := rs.map fun r => .clock [Pins.present r] } = .next u ∧
      u.buf = t.buf ∧ u.observed = t.observed ∧ u.index = t.index ∧ u.quiet = true ∧ u.live = true

/-- R101: a request accepted over a byte of its own stream's write in flight makes the model refuse the run; nothing is performed
or committed in that cycle (assumption 11), and no step follows (assumption 4). A stream is one host's requests on one
instance (assumption 10). -/
def Obligations.HazardousIssueRefusesTheRun : Prop :=
  ∀ (s : State) (ps : List Pins) (rest : List HostAction) (x y : Issued), s.lawful = true → s.live = true →
    s.pending = .clock ps :: rest → (s.driven ps).any Driven.overflows = false →
    x ∈ acceptedOf (s.driven ps) → y ∈ flightsOf (s.driven ps) → x.block = y.block → x.host = y.host →
    y.posed.writes = true →
    (∃ a, y.posed.footprint.testBit a = true ∧ x.posed.footprint.testBit a = true) →
    ∃ t, step s = .next t ∧ t.refused = some .hazard ∧ t.buf = s.buf ∧ t.observed = s.observed ∧
      ∀ u, step t ≠ .next u

/-! ### Sharing the buffer (20_memory.md) -/

/-- R42: requests of several requesters that overlap in time and of which a write shares a footprint byte with another set
`faulted` with reason `Race`, and none is performed (assumption 13): in a group, each request with the parameters of its own
instance, and in a clock cycle, where one is accepted on an instance while the other is in flight for another host or on another
instance, or is accepted there in the same cycle. A group without such a pair takes effect, here in list order (assumption 12). -/
def Obligations.OverlappingWritesRace : Prop :=
  (∀ (ms : List Member) (s : State), (∀ m ∈ ms, m.block < s.blocks.length) →
    (s.posed ms).length = ms.length ∧
    (∀ (i : Nat) (m : Member), ms[i]? = some m →
      ∃ b, s.blocks[m.block]? = some b ∧ (s.posed ms)[i]? = some ⟨b.params, m.req⟩) ∧
    ((∃ xs ys zs a b, s.posed ms = xs ++ a :: ys ++ b :: zs ∧ (a.writes = true ∨ b.writes = true) ∧
        ∃ i, a.footprint.testBit i = true ∧ b.footprint.testBit i = true) →
      ∃ t, s.overlap ms = .next t ∧ t.faulted = some .race ∧ t.buf = s.buf ∧ t.observed = s.observed) ∧
    ((∀ xs ys zs a b, s.posed ms = xs ++ a :: ys ++ b :: zs → (a.writes = true ∨ b.writes = true) →
        ∀ i, ¬(a.footprint.testBit i = true ∧ b.footprint.testBit i = true)) →
      s.overlap ms = s.idle.together s.buf ms)) ∧
  ∀ (s : State) (ps : List Pins) (x y : Issued), (s.driven ps).any Driven.overflows = false →
    x ∈ acceptedOf (s.driven ps) →
    ((y ∈ flightsOf (s.driven ps) ∧ (x.block ≠ y.block ∨ x.host ≠ y.host)) ∨
      (y ∈ acceptedOf (s.driven ps) ∧ x.block ≠ y.block)) →
    (x.posed.writes = true ∨ y.posed.writes = true) →
    (∃ i, x.posed.footprint.testBit i = true ∧ y.posed.footprint.testBit i = true) →
    ∃ t, s.clock ps = .next t ∧ t.faulted = some .race ∧ t.buf = s.buf ∧ t.observed = s.observed

/-- R42's converse in the large: two requests that do not clash can take effect in either order. Each has the same
response to read and the same error both ways, and the buffer left is the same. -/
def Obligations.NonClashingRequestsCommute : Prop :=
  ∀ (a b : Request) (s t u : State), s.Inv → s.live = true → clash ⟨s.params, a⟩ ⟨s.params, b⟩ = false →
    State.perform a s = .next t → t.live = true → State.perform b t = .next u → u.live = true →
    ∃ t' u', State.perform b s = .next t' ∧ t'.live = true ∧ State.perform a t' = .next u' ∧ u'.live = true ∧
      u'.buf = u.buf ∧ t'.rsp.rdValue = u.rsp.rdValue ∧ t'.rsp.err = u.rsp.err ∧
      u'.rsp.rdValue = t.rsp.rdValue ∧ u'.rsp.err = t.rsp.err

/-- R43: two writes to disjoint bit ranges of one byte clash, and if each were computed from the old byte and then
committed, the second would undo the first. -/
def Obligations.DisjointBitsOfOneByteStillClash : Prop :=
  let p : Params :=
    { nBytes := 1, idxW := 4, staticRange := false, sForm := .halfOpen, sLo := 0, sHi := 0, latency := 0 }
  let a : Request := (Instr.wrfHoW8 false 0 4 0xF).request
  let b : Request := (Instr.wrfHoW8 false 4 8 0xF).request
  let m : Memory := Memory.ofBytes [0x00]
  clash ⟨p, a⟩ ⟨p, b⟩ = true ∧
  (commit 1 (commit 1 m (Response.ofWrite m 0 4 0xF)) (Response.ofWrite m 4 4 0xF)).read 0 = 0x0F ∧
  (writeField (writeField m 0 4 0xF) 4 4 0xF).read 0 = 0xFF

/-- R102: another agent's access to a byte of a write in flight on any instance sets `faulted` with reason `Race`; with nothing
in flight it reads without effect or writes that byte and no other. Either way every instance keeps its parameters and pipeline
and drives the idle values on the buffer as it then stands, as R93 and R19 say for `LATENCY = 0`. That such an access is a step,
and the outputs of pipelined instances after it, are assumption 14. -/
def Obligations.AccessDuringAWriteRaces : Prop :=
  ∀ (s : State) (a : Nat) (new : Option Byte), a < s.params.nBytes → s.buf.wf = true →
    (∀ x ∈ s.flights, x.posed.writes = true → x.posed.footprint.testBit a = true →
      ∃ t, s.access a new = .next t ∧ t.faulted = some .race ∧ t.buf = s.buf) ∧
    (∀ t, s.access a new = .next t →
      t.blocks = s.blocks.map fun b => { b with
        rsp := { valid := false, rdValue := 0, err := 0, fault := false, byteRe := 0, byteWe := 0, bufOut := t.buf } }) ∧
    (s.flights = [] → ∃ t, s.access a new = .next t ∧ t.faulted = s.faulted ∧
      ∀ x, t.buf.read x = match new with
        | some b => if x = a then b else s.buf.read x
        | none => s.buf.read x)

/-! ### Assembler (30_encoding.md) -/

/-- R55's two examples, with their control bytes, a comment, and the check that a value fits in its field. -/
def Obligations.AssemblerTakesTheListedLines : Prop :=
  assembleLine 8 "RDF.HO.W16 16, 32" = .ok (some (.rdfHoW16 false 16 32)) ∧
  (Instr.rdfHoW16 false 16 32).ctl = 0x08 ∧
  assembleLine 8 "WRF.CL.W8.C 0, 7, 21 ; checked" = .ok (some (.wrfClW8 true 0 7 21)) ∧
  (Instr.wrfClW8 true 0 7 21).ctl = 0x07 ∧
  assembleLine 8 "WRF.HO.W8 0, 8, 0x100" = .error .doesNotFit ∧
  assembleLine 6 "RDF.HO.W8 0, 64" = .error .doesNotFit

/-- R56: a pseudo-instruction with start `s` and length `len` is the half-open instruction on `s, s+len`, and the assembler
rejects it if `s + len` does not fit in `IDX_W` bits. -/
def Obligations.PseudoInstructionsExpandToHalfOpen : Prop :=
  ∀ (idxW : Nat) (w : Width) (chk : Bool) (s len v : Nat),
    (s + len < 2 ^ idxW →
      assembleOperands idxW { op := .read, form := none, width := w, chk := chk } [s, len] =
        .ok (Instr.make .read .halfOpen w chk s (s + len) 0)) ∧
    (s + len < 2 ^ idxW → v < 2 ^ w.bits →
      assembleOperands idxW { op := .write, form := none, width := w, chk := chk } [s, len, v] =
        .ok (Instr.make .write .halfOpen w chk s (s + len) (BitVec.ofNat 128 v))) ∧
    (2 ^ idxW ≤ s + len →
      assembleOperands idxW { op := .read, form := none, width := w, chk := chk } [s, len] = .error .doesNotFit ∧
      assembleOperands idxW { op := .write, form := none, width := w, chk := chk } [s, len, v] = .error .doesNotFit)

/-- R55's checks in the whole: whatever line the assembler takes, the instruction is well formed and its value fits in
`W` bits. -/
def Obligations.AssembledInstructionsAreWellFormed : Prop :=
  ∀ (idxW : Nat) (line : String) (i : Instr), assembleLine idxW line = .ok (some i) →
    i.wf idxW = true ∧ i.wval.toNat < 2 ^ i.width.bits

/-! ### Several instances on one buffer (R42, R92) -/

/-- R6 and R92: an instance beside the state's own runs a request by its own parameters: the same next buffer, marks and
observations, and the same response on its own outputs, that the instruction gives on a state written around it; the state's own
instance has R19's idle outputs, in an untimed step by assumption 6. That instances share the length of the buffer is assumption
25; that one position and one list of observations serve the requests of every instance is assumption 21. -/
def Obligations.OtherInstanceRunsByItsOwnParameters : Prop :=
  ∀ (s : State) (k : Nat) (b : Block) (r : Request) (i : Instr), s.Inv → s.peers[k]? = some b →
    decodeRequest b.params.idxW r = .ok i →
    ∃ t u, s.overlap [{ block := k + 1, req := r }] = .next t ∧
      exec i { s.focus b with index := s.index + 1 } = .next u ∧
      t.buf = u.buf ∧ t.faulted = u.faulted ∧ t.refused = u.refused ∧ t.observed = u.observed ∧ t.index = u.index ∧
      t.peers[k]? = some { b with rsp := u.rsp } ∧ t.params = s.params ∧ t.pipe = s.pipe ∧ t.rsp = Response.idle s.buf

/-- R42: requests in flight together that do not clash give the buffer, the observations and the position that performing them
one after the other, in list order, gives. All of them sample the buffer as the group finds it (assumption 12). That the outcomes
of several requesters stand in one list and advance one position is assumption 21, and that an `ok` outcome is observed as its value
alone is assumption 17. -/
def Obligations.RaceFreeGroupEqualsSerialRun : Prop :=
  ∀ (rs : List Request) (s t : State), s.Inv → s.live = true →
    race (rs.map fun r => { params := s.params, req := r }) = false → s.serveAll rs = .next t → t.live = true →
    ∃ u, s.overlap (rs.map fun r => { block := 0, req := r }) = .next u ∧
      u.buf = t.buf ∧ u.observed = t.observed ∧ u.index = t.index ∧ u.live = true

/-- R42 and R102: every step keeps exclusive access: two requests in flight of different requesters, hosts of one instance or
different instances, never clash. The model's choices carry two cases: a racing cycle or group accepts nothing (assumption 13, R42
only has it set `faulted`), and a requester is one host on one instance (assumption 10), so that requests of one such stream are
not in question here. -/
def Obligations.StepsKeepAccessExclusive : Prop :=
  ∀ s t : State, s.Inv → s.Exclusive → step s = .next t → t.Exclusive
end

