-- ==== Sys2Proof/Laws/Decode.lean ====
section
/-! SUPPORT. The laws of the control byte: what a row's control byte decodes to (R49, R53). -/

namespace Sys2Proof.Laws

/-- The control byte made from four fields decodes to those fields (R49, R53). -/
theorem decodeControl_rowMatch (op : Op) (form : RangeForm) (w : Width) (chk : Bool) :
    decodeControl (rowMatch op form w + (if chk then 4 else 0)) = some (op, form, chk, w) := by
  cases op <;> cases form <;> cases w <;> cases chk <;> decide

/-- The row's mask 0xFB keeps the row's `match` byte, and bit 2 is `CHK` (R53). -/
theorem rowMatch_masked (op : Op) (form : RangeForm) (w : Width) (chk : Bool) :
    (rowMatch op form w + (if chk then 4 else 0)) &&& 0xFB#8 = rowMatch op form w ∧
      (rowMatch op form w + (if chk then 4 else 0)).getLsbD 2 = chk := by
  cases op <;> cases form <;> cases w <;> cases chk <;> decide

/-- An instruction's control byte decodes to its row and its `CHK`. -/
theorem decodeControl_ctl (i : Instr) : decodeControl i.ctl = some (i.op, i.form, i.chk, i.width) :=
  decodeControl_rowMatch i.op i.form i.width i.chk

/-- Instructions are made from their rows and operands. -/
theorem make_self (i : Instr) : Instr.make i.op i.form i.width i.chk i.lo i.hi i.wval = i := by
  cases i <;> rfl

/-- What a made instruction's fields are. -/
theorem make_fields (op : Op) (form : RangeForm) (w : Width) (chk : Bool) (lo hi : Nat) (v : Value) :
    (Instr.make op form w chk lo hi v).op = op ∧ (Instr.make op form w chk lo hi v).form = form ∧
      (Instr.make op form w chk lo hi v).width = w ∧ (Instr.make op form w chk lo hi v).chk = chk ∧
      (Instr.make op form w chk lo hi v).lo = lo ∧ (Instr.make op form w chk lo hi v).hi = hi := by
  cases op <;> cases form <;> cases w <;> exact ⟨rfl, rfl, rfl, rfl, rfl, rfl⟩

/-- A made write keeps the write value. -/
theorem make_wval (form : RangeForm) (w : Width) (chk : Bool) (lo hi : Nat) (v : Value) :
    (Instr.make .write form w chk lo hi v).wval = v := by
  cases form <;> cases w <;> rfl

/-- A width is named exactly by the codes 0 to 4 (R50). -/
theorem ofWsel_eq_none {c : Nat} : Width.ofWsel c = none ↔ 5 ≤ c := by
  unfold Width.ofWsel
  split <;> simp_all
  omega

/-- The reserved control bytes are those from 0x28 on (R54). -/
theorem decodeControl_eq_none {c : Byte} : decodeControl c = none ↔ 0x28 ≤ c.toNat := by
  have hc := c.isLt
  unfold decodeControl slice
  split
  · next h =>
    split
    · next w hw =>
      have : ¬5 ≤ c.toNat / 2 ^ 3 % 2 ^ (5 - 3 + 1) := fun h5 => by rw [ofWsel_eq_none.mpr h5] at hw; cases hw
      constructor
      · intro hn; cases hn
      · intro _; omega
    · next hw =>
      have := ofWsel_eq_none.mp hw
      constructor
      · intro _; omega
      · intro _; rfl
  · next h => exact ⟨fun _ => by omega, fun _ => rfl⟩

/-- A control byte that names a row is that row's `match` byte with `CHK` (R53). -/
theorem rowMatch_of_decodeControl {c : Byte} {op : Op} {form : RangeForm} {chk : Bool} {w : Width}
    (h : decodeControl c = some (op, form, chk, w)) : c = rowMatch op form w + (if chk then 4 else 0) := by
  have hlt : c.toNat < 40 := by
    rcases Nat.lt_or_ge c.toNat 40 with hl | hl
    · exact hl
    · rw [decodeControl_eq_none.mpr hl] at h; cases h
  have key : ∀ n : Fin 40, ∀ x ∈ decodeControl (BitVec.ofNat 8 n),
      BitVec.ofNat 8 n = rowMatch x.1 x.2.1 x.2.2.2 + (if x.2.2.1 then 4 else 0) := by decide
  have := key ⟨c.toNat, hlt⟩ (op, form, chk, w)
  simp only [BitVec.ofNat_toNat, BitVec.setWidth_eq] at this
  exact this h

end Sys2Proof.Laws
end

