-- ==== Sys2Proof/Laws/Memory.lean ====
section
/-! SUPPORT. The laws of the buffer as a list of bytes: reading after writing, the canonical form, and that equal bytes
make equal buffers. -/

namespace Sys2Proof.Machine

@[simp] theorem Memory.read_nil (a : Nat) : Memory.read [] a = unlistedByte := rfl

theorem Memory.read_cons (c : Host.Cell) (m : Memory) (a : Nat) :
    Memory.read (c :: m) a = if c.1 = a then c.2 else Memory.read m a := rfl

/-- A byte below every listed address reads as `unlistedByte`. -/
theorem Memory.read_below {lo a : Nat} {m : Memory} (h : m.canonicalFrom lo = true) (ha : a < lo) :
    m.read a = unlistedByte := by
  induction m generalizing lo with
  | nil => rfl
  | cons c m ih =>
    simp only [Memory.canonicalFrom, Bool.and_eq_true, decide_eq_true_eq] at h
    rw [Memory.read_cons, if_neg (by omega)]
    exact ih h.2 (by omega)

/-- A write leaves every other byte alone. -/
theorem Memory.read_write_other (m : Memory) {a a' : Nat} (b : Byte) (h : a' ≠ a) :
    (m.write a b).read a' = m.read a' := by
  induction m with
  | nil =>
    simp only [Memory.write]
    split
    · rfl
    · rw [Memory.read_cons, if_neg (fun e => h e.symm)]
  | cons c m ih =>
    simp only [Memory.write]
    split
    · split
      · rfl
      · rw [Memory.read_cons, if_neg (fun e => h e.symm)]
    · split
      · next hac =>
        subst hac
        split
        · rw [Memory.read_cons, if_neg (fun e => h e.symm)]
        · rw [Memory.read_cons, if_neg (fun e => h e.symm), Memory.read_cons, if_neg (fun e => h e.symm)]
      · rw [Memory.read_cons, Memory.read_cons, ih]

theorem Memory.read_write_same_from {lo : Nat} {m : Memory} (h : m.canonicalFrom lo = true) (a : Nat) (b : Byte) :
    (m.write a b).read a = b := by
  induction m generalizing lo with
  | nil =>
    simp only [Memory.write]
    split
    · next hb => rw [hb]; rfl
    · rw [Memory.read_cons, if_pos rfl]
  | cons c m ih =>
    simp only [Memory.canonicalFrom, Bool.and_eq_true, decide_eq_true_eq] at h
    simp only [Memory.write]
    split
    · split
      · next hlt hb =>
        rw [hb, Memory.read_cons, if_neg (by omega)]
        exact Memory.read_below h.2 (by omega)
      · rw [Memory.read_cons, if_pos rfl]
    · split
      · next hac =>
        split
        · next hb => rw [hb]; exact Memory.read_below h.2 (by omega)
        · rw [Memory.read_cons, if_pos rfl]
      · next hne => rw [Memory.read_cons, if_neg (fun e => hne e.symm)]; exact ih h.2

/-- A read of the byte just written gives the value written. -/
theorem Memory.read_write_same {m : Memory} (h : m.wf = true) (a : Nat) (b : Byte) : (m.write a b).read a = b :=
  Memory.read_write_same_from h a b

/-- What a read after a write gives, whatever the two addresses are. -/
theorem Memory.read_write {m : Memory} (h : m.wf = true) (a a' : Nat) (b : Byte) :
    (m.write a b).read a' = if a' = a then b else m.read a' := by
  split
  · next e => rw [e, Memory.read_write_same h]
  · next e => exact Memory.read_write_other m b e

theorem Memory.canonicalFrom_mono {lo lo' : Nat} {m : Memory} (h : m.canonicalFrom lo = true) (hl : lo' ≤ lo) :
    m.canonicalFrom lo' = true := by
  cases m with
  | nil => rfl
  | cons c m =>
    simp only [Memory.canonicalFrom, Bool.and_eq_true, decide_eq_true_eq] at h ⊢
    exact ⟨⟨by omega, h.1.2⟩, h.2⟩

theorem Memory.canonicalFrom_write {lo : Nat} {m : Memory} (h : m.canonicalFrom lo = true) {a : Nat} (ha : lo ≤ a)
    (b : Byte) : (m.write a b).canonicalFrom lo = true := by
  induction m generalizing lo with
  | nil =>
    simp only [Memory.write]
    split
    · rfl
    · next hb => simp [Memory.canonicalFrom, ha, hb]
  | cons c m ih =>
    have h0 := h
    simp only [Memory.canonicalFrom, Bool.and_eq_true, decide_eq_true_eq] at h
    obtain ⟨⟨h1, h2⟩, h3⟩ := h
    simp only [Memory.write]
    split
    · next hlt =>
      split
      · exact h0
      · next hb =>
        simp only [Memory.canonicalFrom, Bool.and_eq_true, decide_eq_true_eq]
        exact ⟨⟨ha, hb⟩, ⟨by omega, h2⟩, h3⟩
    · split
      · next hac =>
        split
        · exact Memory.canonicalFrom_mono h3 (by omega)
        · next hb =>
          simp only [Memory.canonicalFrom, Bool.and_eq_true, decide_eq_true_eq]
          exact ⟨⟨ha, hb⟩, hac ▸ h3⟩
      · simp only [Memory.canonicalFrom, Bool.and_eq_true, decide_eq_true_eq]
        exact ⟨⟨h1, h2⟩, ih h3 (by omega)⟩

/-- A write keeps the canonical form. -/
theorem Memory.wf_write {m : Memory} (h : m.wf = true) (a : Nat) (b : Byte) : (m.write a b).wf = true :=
  Memory.canonicalFrom_write h (Nat.zero_le a) b

@[simp] theorem Memory.wf_nil : Memory.wf [] = true := rfl

@[simp] theorem Memory.within_nil (n : Nat) : Memory.within n [] = true := rfl

theorem Memory.within_cons (n : Nat) (c : Host.Cell) (m : Memory) :
    Memory.within n (c :: m) = (decide (c.1 < n) && Memory.within n m) := rfl

/-- A write inside the buffer lists no byte beyond it. -/
theorem Memory.within_write {n : Nat} {m : Memory} (h : m.within n = true) {a : Nat} (ha : a < n) (b : Byte) :
    (m.write a b).within n = true := by
  induction m with
  | nil => simp only [Memory.write]; split <;> simp [Memory.within_cons, ha]
  | cons c m ih =>
    have h0 := h
    rw [Memory.within_cons, Bool.and_eq_true] at h
    simp only [Memory.write]
    split
    · split
      · exact h0
      · rw [Memory.within_cons, h0]; simp [ha]
    · split
      · split
        · exact h.2
        · rw [Memory.within_cons, h.2]; simp [ha]
      · rw [Memory.within_cons, h.1, ih h.2]; rfl

theorem Memory.ext_from {lo : Nat} {m m' : Memory} (h : m.canonicalFrom lo = true) (h' : m'.canonicalFrom lo = true)
    (heq : ∀ a, m.read a = m'.read a) : m = m' := by
  induction m generalizing lo m' with
  | nil =>
    cases m' with
    | nil => rfl
    | cons c m' =>
      simp only [Memory.canonicalFrom, Bool.and_eq_true, decide_eq_true_eq] at h'
      have := heq c.1
      rw [Memory.read_nil, Memory.read_cons, if_pos rfl] at this
      exact absurd this.symm h'.1.2
  | cons c m ih =>
    simp only [Memory.canonicalFrom, Bool.and_eq_true, decide_eq_true_eq] at h
    cases m' with
    | nil =>
      have := heq c.1
      rw [Memory.read_nil, Memory.read_cons, if_pos rfl] at this
      exact absurd this h.1.2
    | cons c' m' =>
      simp only [Memory.canonicalFrom, Bool.and_eq_true, decide_eq_true_eq] at h'
      have hc : c.1 = c'.1 := by
        rcases Nat.lt_trichotomy c.1 c'.1 with hlt | he | hlt
        · have := heq c.1
          rw [Memory.read_cons, if_pos rfl, Memory.read_cons, if_neg (by omega),
            Memory.read_below h'.2 (by omega)] at this
          exact absurd this h.1.2
        · exact he
        · have := heq c'.1
          rw [Memory.read_cons, if_neg (by omega), Memory.read_below h.2 (by omega), Memory.read_cons,
            if_pos rfl] at this
          exact absurd this.symm h'.1.2
      have hv : c.2 = c'.2 := by
        have := heq c.1
        rwa [Memory.read_cons, if_pos rfl, Memory.read_cons, if_pos hc.symm] at this
      have hm : m = m' := by
        refine ih h.2 (by rw [hc]; exact h'.2) fun a => ?_
        by_cases ha : c.1 = a
        · rw [Memory.read_below h.2 (by omega), Memory.read_below h'.2 (by omega)]
        · have := heq a
          rwa [Memory.read_cons, if_neg ha, Memory.read_cons, if_neg (by omega)] at this
      rw [hm, Prod.ext hc hv]

/-- Canonical buffers with equal bytes are equal. -/
theorem Memory.ext {m m' : Memory} (h : m.wf = true) (h' : m'.wf = true) (heq : ∀ a, m.read a = m'.read a) : m = m' :=
  Memory.ext_from h h' heq

/-- Writing the byte that is there changes nothing. -/
theorem Memory.write_read {m : Memory} (h : m.wf = true) (a : Nat) : m.write a (m.read a) = m :=
  Memory.ext (Memory.wf_write h _ _) h fun a' => by
    rw [Memory.read_write h]; split
    · next e => rw [e]
    · rfl

/-- The second of two writes to a byte is the one that counts. -/
theorem Memory.write_write_same {m : Memory} (h : m.wf = true) (a : Nat) (b c : Byte) :
    (m.write a b).write a c = m.write a c :=
  Memory.ext (Memory.wf_write (Memory.wf_write h _ _) _ _) (Memory.wf_write h _ _) fun a' => by
    rw [Memory.read_write (Memory.wf_write h _ _), Memory.read_write h, Memory.read_write h]; split <;> rfl

/-- Writes to two bytes can be made in either order. -/
theorem Memory.write_write_comm {m : Memory} (h : m.wf = true) {a a' : Nat} (hne : a ≠ a') (b c : Byte) :
    (m.write a b).write a' c = (m.write a' c).write a b :=
  Memory.ext (Memory.wf_write (Memory.wf_write h _ _) _ _) (Memory.wf_write (Memory.wf_write h _ _) _ _) fun x => by
    rw [Memory.read_write (Memory.wf_write h _ _), Memory.read_write h, Memory.read_write (Memory.wf_write h _ _),
      Memory.read_write h]
    split
    · next e => rw [if_neg (by omega)]
    · rfl

/-- A byte beyond the buffer reads as `unlistedByte`. -/
theorem Memory.read_beyond {n : Nat} {m : Memory} (h : m.within n = true) {a : Nat} (ha : n ≤ a) :
    m.read a = unlistedByte := by
  induction m with
  | nil => rfl
  | cons c m ih =>
    rw [Memory.within_cons, Bool.and_eq_true, decide_eq_true_eq] at h
    rw [Memory.read_cons, if_neg (by omega)]
    exact ih h.2

theorem Memory.wf_ofBytesFrom (bs : List Byte) : ∀ i, (Memory.ofBytesFrom i bs).wf = true := by
  induction bs with
  | nil => intro i; rfl
  | cons b bs ih => intro i; exact Memory.wf_write (ih _) _ _

/-- A start buffer given as bytes is canonical. -/
theorem Memory.wf_ofBytes (bs : List Byte) : (Memory.ofBytes bs).wf = true := Memory.wf_ofBytesFrom bs 0

theorem Memory.read_ofBytesFrom (bs : List Byte) :
    ∀ i a, (Memory.ofBytesFrom i bs).read (i + a) = bs.getD a unlistedByte := by
  induction bs with
  | nil => intro i a; simp [Memory.ofBytesFrom]
  | cons b bs ih =>
    intro i a
    simp only [Memory.ofBytesFrom]
    cases a with
    | zero => exact Memory.read_write_same (Memory.wf_ofBytesFrom bs _) i b
    | succ a =>
      rw [Memory.read_write_other _ _ (by omega), show i + (a + 1) = (i + 1) + a by omega, ih]
      simp

/-- Byte `a` of a start buffer given as bytes is the `a`-th of them. -/
theorem Memory.read_ofBytes (bs : List Byte) (a : Nat) : (Memory.ofBytes bs).read a = bs.getD a unlistedByte := by
  have := Memory.read_ofBytesFrom bs 0 a
  rwa [Nat.zero_add] at this

end Sys2Proof.Machine
end

