-- ==== Sys2Proof/Laws/State.lean ====
section
/-! SUPPORT. One lemma per field per state update, so that no later proof unfolds a record update. -/

namespace Sys2Proof.Machine

@[simp] theorem State.takeOk_params (s : State) (r : Response) : (s.takeOk r).params = s.params := rfl
@[simp] theorem State.takeOk_buf (s : State) (r : Response) : (s.takeOk r).buf = commit s.params.nBytes s.buf r := rfl
@[simp] theorem State.takeOk_faulted (s : State) (r : Response) : (s.takeOk r).faulted = s.faulted := rfl
@[simp] theorem State.takeOk_refused (s : State) (r : Response) : (s.takeOk r).refused = s.refused := rfl
@[simp] theorem State.takeOk_pipe (s : State) (r : Response) : (s.takeOk r).pipe = s.pipe := rfl
@[simp] theorem State.takeOk_rsp (s : State) (r : Response) : (s.takeOk r).rsp = r := rfl
@[simp] theorem State.takeOk_index (s : State) (r : Response) : (s.takeOk r).index = s.index := rfl
@[simp] theorem State.takeOk_peers (s : State) (r : Response) : (s.takeOk r).peers = s.peers := rfl
@[simp] theorem State.takeOk_pending (s : State) (r : Response) : (s.takeOk r).pending = s.pending := rfl
@[simp] theorem State.takeOk_observed (s : State) (r : Response) : (s.takeOk r).observed = s.observed ++ [.ok r.rdValue] := rfl

@[simp] theorem State.takeError_params (s : State) (e : RangeError) (chk : Bool) : (s.takeError e chk).params = s.params := rfl
@[simp] theorem State.takeError_buf (s : State) (e : RangeError) (chk : Bool) : (s.takeError e chk).buf = s.buf := rfl
@[simp] theorem State.takeError_faulted (s : State) (e : RangeError) (chk : Bool) : (s.takeError e chk).faulted = markAfter chk e s.faulted := rfl
@[simp] theorem State.takeError_refused (s : State) (e : RangeError) (chk : Bool) : (s.takeError e chk).refused = s.refused := rfl
@[simp] theorem State.takeError_pipe (s : State) (e : RangeError) (chk : Bool) : (s.takeError e chk).pipe = s.pipe := rfl
@[simp] theorem State.takeError_rsp (s : State) (e : RangeError) (chk : Bool) : (s.takeError e chk).rsp = Response.ofError s.buf e.code (rangeFault chk) := rfl
@[simp] theorem State.takeError_index (s : State) (e : RangeError) (chk : Bool) : (s.takeError e chk).index = s.index := rfl
@[simp] theorem State.takeError_peers (s : State) (e : RangeError) (chk : Bool) : (s.takeError e chk).peers = s.peers := rfl
@[simp] theorem State.takeError_pending (s : State) (e : RangeError) (chk : Bool) : (s.takeError e chk).pending = s.pending := rfl
@[simp] theorem State.takeError_observed (s : State) (e : RangeError) (chk : Bool) : (s.takeError e chk).observed = s.observed ++ observationsOf chk e := rfl

@[simp] theorem State.takeIllegal_params (s : State) : (s.takeIllegal).params = s.params := rfl
@[simp] theorem State.takeIllegal_buf (s : State) : (s.takeIllegal).buf = s.buf := rfl
@[simp] theorem State.takeIllegal_faulted (s : State) : (s.takeIllegal).faulted = s.faulted := rfl
@[simp] theorem State.takeIllegal_refused (s : State) : (s.takeIllegal).refused = some .illegalControl := rfl
@[simp] theorem State.takeIllegal_pipe (s : State) : (s.takeIllegal).pipe = s.pipe := rfl
@[simp] theorem State.takeIllegal_rsp (s : State) : (s.takeIllegal).rsp = Response.ofError s.buf illegalControlCode true := rfl
@[simp] theorem State.takeIllegal_index (s : State) : (s.takeIllegal).index = s.index := rfl
@[simp] theorem State.takeIllegal_peers (s : State) : (s.takeIllegal).peers = s.peers := rfl
@[simp] theorem State.takeIllegal_pending (s : State) : (s.takeIllegal).pending = s.pending := rfl
@[simp] theorem State.takeIllegal_observed (s : State) : (s.takeIllegal).observed = s.observed := rfl

@[simp] theorem State.idleOn_params (s : State) (m : Memory) : (s.idleOn m).params = s.params := rfl
@[simp] theorem State.idleOn_buf (s : State) (m : Memory) : (s.idleOn m).buf = s.buf := rfl
@[simp] theorem State.idleOn_faulted (s : State) (m : Memory) : (s.idleOn m).faulted = s.faulted := rfl
@[simp] theorem State.idleOn_refused (s : State) (m : Memory) : (s.idleOn m).refused = s.refused := rfl
@[simp] theorem State.idleOn_pipe (s : State) (m : Memory) : (s.idleOn m).pipe = s.pipe := rfl
@[simp] theorem State.idleOn_rsp (s : State) (m : Memory) : (s.idleOn m).rsp = Response.idle m := rfl
@[simp] theorem State.idleOn_index (s : State) (m : Memory) : (s.idleOn m).index = s.index := rfl
@[simp] theorem State.idleOn_peers (s : State) (m : Memory) : (s.idleOn m).peers = s.peers := rfl
@[simp] theorem State.idleOn_pending (s : State) (m : Memory) : (s.idleOn m).pending = s.pending := rfl
@[simp] theorem State.idleOn_observed (s : State) (m : Memory) : (s.idleOn m).observed = s.observed := rfl

@[simp] theorem State.idlePeers_params (s : State) : (s.idlePeers).params = s.params := rfl
@[simp] theorem State.idlePeers_buf (s : State) : (s.idlePeers).buf = s.buf := rfl
@[simp] theorem State.idlePeers_faulted (s : State) : (s.idlePeers).faulted = s.faulted := rfl
@[simp] theorem State.idlePeers_refused (s : State) : (s.idlePeers).refused = s.refused := rfl
@[simp] theorem State.idlePeers_pipe (s : State) : (s.idlePeers).pipe = s.pipe := rfl
@[simp] theorem State.idlePeers_rsp (s : State) : (s.idlePeers).rsp = s.rsp := rfl
@[simp] theorem State.idlePeers_index (s : State) : (s.idlePeers).index = s.index := rfl
@[simp] theorem State.idlePeers_peers (s : State) : (s.idlePeers).peers = s.peers.map fun b => { b with rsp := Response.idle s.buf } := rfl
@[simp] theorem State.idlePeers_pending (s : State) : (s.idlePeers).pending = s.pending := rfl
@[simp] theorem State.idlePeers_observed (s : State) : (s.idlePeers).observed = s.observed := rfl

@[simp] theorem State.idle_params (s : State) : (s.idle).params = s.params := rfl
@[simp] theorem State.idle_buf (s : State) : (s.idle).buf = s.buf := rfl
@[simp] theorem State.idle_faulted (s : State) : (s.idle).faulted = s.faulted := rfl
@[simp] theorem State.idle_refused (s : State) : (s.idle).refused = s.refused := rfl
@[simp] theorem State.idle_pipe (s : State) : (s.idle).pipe = s.pipe := rfl
@[simp] theorem State.idle_rsp (s : State) : (s.idle).rsp = Response.idle s.buf := rfl
@[simp] theorem State.idle_index (s : State) : (s.idle).index = s.index := rfl
@[simp] theorem State.idle_peers (s : State) : (s.idle).peers = s.peers.map fun b => { b with rsp := Response.idle s.buf } := rfl
@[simp] theorem State.idle_pending (s : State) : (s.idle).pending = s.pending := rfl
@[simp] theorem State.idle_observed (s : State) : (s.idle).observed = s.observed := rfl

@[simp] theorem State.resetCycle_params (s : State) (m : Memory) : (s.resetCycle m).params = s.params := rfl
@[simp] theorem State.resetCycle_buf (s : State) (m : Memory) : (s.resetCycle m).buf = s.buf := rfl
@[simp] theorem State.resetCycle_faulted (s : State) (m : Memory) : (s.resetCycle m).faulted = s.faulted := rfl
@[simp] theorem State.resetCycle_refused (s : State) (m : Memory) : (s.resetCycle m).refused = s.refused := rfl
@[simp] theorem State.resetCycle_pipe (s : State) (m : Memory) : (s.resetCycle m).pipe = List.replicate s.params.latency none := rfl
@[simp] theorem State.resetCycle_rsp (s : State) (m : Memory) : (s.resetCycle m).rsp = Response.idle m := rfl
@[simp] theorem State.resetCycle_index (s : State) (m : Memory) : (s.resetCycle m).index = s.index := rfl
@[simp] theorem State.resetCycle_peers (s : State) (m : Memory) : (s.resetCycle m).peers = s.peers := rfl
@[simp] theorem State.resetCycle_pending (s : State) (m : Memory) : (s.resetCycle m).pending = s.pending := rfl
@[simp] theorem State.resetCycle_observed (s : State) (m : Memory) : (s.resetCycle m).observed = s.observed := rfl

@[simp] theorem State.focus_params (s : State) (b : Block) : (s.focus b).params = b.params := rfl
@[simp] theorem State.focus_buf (s : State) (b : Block) : (s.focus b).buf = s.buf := rfl
@[simp] theorem State.focus_faulted (s : State) (b : Block) : (s.focus b).faulted = s.faulted := rfl
@[simp] theorem State.focus_refused (s : State) (b : Block) : (s.focus b).refused = s.refused := rfl
@[simp] theorem State.focus_pipe (s : State) (b : Block) : (s.focus b).pipe = b.pipe := rfl
@[simp] theorem State.focus_rsp (s : State) (b : Block) : (s.focus b).rsp = b.rsp := rfl
@[simp] theorem State.focus_index (s : State) (b : Block) : (s.focus b).index = s.index := rfl
@[simp] theorem State.focus_peers (s : State) (b : Block) : (s.focus b).peers = s.peers := rfl
@[simp] theorem State.focus_pending (s : State) (b : Block) : (s.focus b).pending = s.pending := rfl
@[simp] theorem State.focus_observed (s : State) (b : Block) : (s.focus b).observed = s.observed := rfl

@[simp] theorem State.block_params (s : State) : s.block.params = s.params := rfl
@[simp] theorem State.block_pipe (s : State) : s.block.pipe = s.pipe := rfl
@[simp] theorem State.block_rsp (s : State) : s.block.rsp = s.rsp := rfl
@[simp] theorem State.focus_block (s : State) (b : Block) : (s.focus b).block = b := rfl
@[simp] theorem State.mem_blocks (s : State) (b : Block) : b ∈ s.blocks ↔ b = s.block ∨ b ∈ s.peers := List.mem_cons

@[simp] theorem State.before_params (s : State) (a : HostAction) : (s.before a).params = s.params := rfl
@[simp] theorem State.before_buf (s : State) (a : HostAction) : (s.before a).buf = s.buf := rfl
@[simp] theorem State.before_faulted (s : State) (a : HostAction) : (s.before a).faulted = s.faulted := rfl
@[simp] theorem State.before_refused (s : State) (a : HostAction) : (s.before a).refused = s.refused := rfl
@[simp] theorem State.before_pipe (s : State) (a : HostAction) : (s.before a).pipe = s.pipe := rfl
@[simp] theorem State.before_rsp (s : State) (a : HostAction) : (s.before a).rsp = s.rsp := rfl
@[simp] theorem State.before_index (s : State) (a : HostAction) : (s.before a).index = s.index := rfl
@[simp] theorem State.before_peers (s : State) (a : HostAction) : (s.before a).peers = s.peers := rfl
@[simp] theorem State.before_pending (s : State) (a : HostAction) : (s.before a).pending = a :: s.pending := rfl
@[simp] theorem State.before_observed (s : State) (a : HostAction) : (s.before a).observed = s.observed := rfl

@[simp] theorem State.readDone_params (s : State) (st l : Nat) : (s.readDone st l).params = s.params := rfl
@[simp] theorem State.readDone_buf (s : State) (st l : Nat) : (s.readDone st l).buf = s.buf := rfl
@[simp] theorem State.readDone_faulted (s : State) (st l : Nat) : (s.readDone st l).faulted = s.faulted := rfl
@[simp] theorem State.readDone_refused (s : State) (st l : Nat) : (s.readDone st l).refused = s.refused := rfl
@[simp] theorem State.readDone_pipe (s : State) (st l : Nat) : (s.readDone st l).pipe = s.pipe := rfl
@[simp] theorem State.readDone_rsp (s : State) (st l : Nat) : (s.readDone st l).rsp = Response.ofRead s.buf st l := rfl
@[simp] theorem State.readDone_index (s : State) (st l : Nat) : (s.readDone st l).index = s.index := rfl
@[simp] theorem State.readDone_peers (s : State) (st l : Nat) : (s.readDone st l).peers = s.peers := rfl
@[simp] theorem State.readDone_pending (s : State) (st l : Nat) : (s.readDone st l).pending = s.pending := rfl
@[simp] theorem State.readDone_observed (s : State) (st l : Nat) : (s.readDone st l).observed = s.observed ++ [.ok (BitVec.ofNat 128 (readField s.buf st l))] := rfl

@[simp] theorem State.writeDone_params (s : State) (st l v : Nat) : (s.writeDone st l v).params = s.params := rfl
@[simp] theorem State.writeDone_buf (s : State) (st l v : Nat) : (s.writeDone st l v).buf = writeField s.buf st l v := rfl
@[simp] theorem State.writeDone_faulted (s : State) (st l v : Nat) : (s.writeDone st l v).faulted = s.faulted := rfl
@[simp] theorem State.writeDone_refused (s : State) (st l v : Nat) : (s.writeDone st l v).refused = s.refused := rfl
@[simp] theorem State.writeDone_pipe (s : State) (st l v : Nat) : (s.writeDone st l v).pipe = s.pipe := rfl
@[simp] theorem State.writeDone_rsp (s : State) (st l v : Nat) : (s.writeDone st l v).rsp = Response.ofWrite s.buf st l v := rfl
@[simp] theorem State.writeDone_index (s : State) (st l v : Nat) : (s.writeDone st l v).index = s.index := rfl
@[simp] theorem State.writeDone_peers (s : State) (st l v : Nat) : (s.writeDone st l v).peers = s.peers := rfl
@[simp] theorem State.writeDone_pending (s : State) (st l v : Nat) : (s.writeDone st l v).pending = s.pending := rfl
@[simp] theorem State.writeDone_observed (s : State) (st l v : Nat) : (s.writeDone st l v).observed = s.observed ++ [.ok 0] := rfl

@[simp] theorem Response.ofRead_valid (m : Memory) (s l : Nat) : (Response.ofRead m s l).valid = true := rfl
@[simp] theorem Response.ofRead_rdValue (m : Memory) (s l : Nat) : (Response.ofRead m s l).rdValue = BitVec.ofNat 128 (readField m s l) := rfl
@[simp] theorem Response.ofRead_err (m : Memory) (s l : Nat) : (Response.ofRead m s l).err = 0 := rfl
@[simp] theorem Response.ofRead_fault (m : Memory) (s l : Nat) : (Response.ofRead m s l).fault = false := rfl
@[simp] theorem Response.ofRead_byteRe (m : Memory) (s l : Nat) : (Response.ofRead m s l).byteRe = footprint s l := rfl
@[simp] theorem Response.ofRead_byteWe (m : Memory) (s l : Nat) : (Response.ofRead m s l).byteWe = 0 := rfl
@[simp] theorem Response.ofRead_bufOut (m : Memory) (s l : Nat) : (Response.ofRead m s l).bufOut = m := rfl

@[simp] theorem Response.ofWrite_valid (m : Memory) (s l v : Nat) : (Response.ofWrite m s l v).valid = true := rfl
@[simp] theorem Response.ofWrite_rdValue (m : Memory) (s l v : Nat) : (Response.ofWrite m s l v).rdValue = 0 := rfl
@[simp] theorem Response.ofWrite_err (m : Memory) (s l v : Nat) : (Response.ofWrite m s l v).err = 0 := rfl
@[simp] theorem Response.ofWrite_fault (m : Memory) (s l v : Nat) : (Response.ofWrite m s l v).fault = false := rfl
@[simp] theorem Response.ofWrite_byteRe (m : Memory) (s l v : Nat) : (Response.ofWrite m s l v).byteRe = footprint s l := rfl
@[simp] theorem Response.ofWrite_byteWe (m : Memory) (s l v : Nat) : (Response.ofWrite m s l v).byteWe = footprint s l := rfl
@[simp] theorem Response.ofWrite_bufOut (m : Memory) (s l v : Nat) : (Response.ofWrite m s l v).bufOut = writeField m s l v := rfl

@[simp] theorem Response.ofError_valid (m : Memory) (c : BitVec 2) (x : Bool) : (Response.ofError m c x).valid = true := rfl
@[simp] theorem Response.ofError_rdValue (m : Memory) (c : BitVec 2) (x : Bool) : (Response.ofError m c x).rdValue = 0 := rfl
@[simp] theorem Response.ofError_err (m : Memory) (c : BitVec 2) (x : Bool) : (Response.ofError m c x).err = c := rfl
@[simp] theorem Response.ofError_fault (m : Memory) (c : BitVec 2) (x : Bool) : (Response.ofError m c x).fault = x := rfl
@[simp] theorem Response.ofError_byteRe (m : Memory) (c : BitVec 2) (x : Bool) : (Response.ofError m c x).byteRe = 0 := rfl
@[simp] theorem Response.ofError_byteWe (m : Memory) (c : BitVec 2) (x : Bool) : (Response.ofError m c x).byteWe = 0 := rfl
@[simp] theorem Response.ofError_bufOut (m : Memory) (c : BitVec 2) (x : Bool) : (Response.ofError m c x).bufOut = m := rfl

@[simp] theorem Response.idle_valid (m : Memory) : (Response.idle m).valid = false := rfl
@[simp] theorem Response.idle_rdValue (m : Memory) : (Response.idle m).rdValue = 0 := rfl
@[simp] theorem Response.idle_err (m : Memory) : (Response.idle m).err = 0 := rfl
@[simp] theorem Response.idle_fault (m : Memory) : (Response.idle m).fault = false := rfl
@[simp] theorem Response.idle_byteRe (m : Memory) : (Response.idle m).byteRe = 0 := rfl
@[simp] theorem Response.idle_byteWe (m : Memory) : (Response.idle m).byteWe = 0 := rfl
@[simp] theorem Response.idle_bufOut (m : Memory) : (Response.idle m).bufOut = m := rfl

@[simp] theorem andThen_next (s : State) (f : State → Outcome) : andThen (.next s) f = f s := rfl
@[simp] theorem andThen_fault (r : Fault) (f : State → Outcome) : andThen (.fault r) f = .fault r := rfl
@[simp] theorem andThen_refused (r : Refusal) (f : State → Outcome) : andThen (.refused r) f = .refused r := rfl

/-- Continuing answers a next state only through a next state of the first part. -/
theorem andThen_eq_next {o : Outcome} {f : State → Outcome} {t : State} :
    andThen o f = .next t ↔ ∃ u, o = .next u ∧ f u = .next t := by
  cases o <;> simp [andThen]

end Sys2Proof.Machine
end

