-- ==== Sys2Proof/Laws/Field.lean ====
section
/-! SUPPORT. The laws of bits, fields, footprints and commits: what each shared operation of the codec can do, said once. -/

namespace Sys2Proof.Machine

/-! ### Bits -/

theorem getLsbD_one_shiftLeft (k j : Nat) (hj : j < 8) : (1#8 <<< k).getLsbD j = decide (j = k) := by
  rw [BitVec.getLsbD_shiftLeft, BitVec.getLsbD_one]
  rcases Nat.lt_trichotomy j k with h | h | h
  · simp [h, Nat.ne_of_lt h]
  · simp [h]; omega
  · simp [Nat.ne_of_gt h, Nat.not_lt.mpr (Nat.le_of_lt h)]; omega

theorem getLsbD_bool_shiftLeft (x : Bool) (k j : Nat) (hj : j < 8) :
    (BitVec.setWidth 8 (BitVec.ofBool x) <<< k).getLsbD j = (decide (j = k) && x) := by
  rw [BitVec.getLsbD_shiftLeft, BitVec.getLsbD_setWidth]
  rcases Nat.lt_trichotomy j k with h | h | h
  · simp [h, Nat.ne_of_lt h]
  · subst h; cases x <;> simp [hj]
  · have : j - k ≠ 0 := by omega
    cases x <;> simp [Nat.ne_of_gt h, this]

/-- `setByteBit` sets the one bit and leaves the others (R28). -/
theorem getLsbD_setByteBit (b : Byte) (k : Nat) (x : Bool) (j : Nat) (hj : j < 8) :
    (setByteBit b k x).getLsbD j = if j = k then x else b.getLsbD j := by
  rw [setByteBit, BitVec.getLsbD_or, BitVec.getLsbD_and, BitVec.getLsbD_not, getLsbD_one_shiftLeft k j hj,
    getLsbD_bool_shiftLeft x k j hj]
  by_cases h : j = k <;> simp [h, hj]

/-- Two bytes with equal bits are equal. -/
theorem byte_ext {b c : Byte} (h : ∀ j < 8, b.getLsbD j = c.getLsbD j) : b = c :=
  BitVec.eq_of_getLsbD_eq fun j hj => h j hj

/-- A byte of the buffer is its eight bit positions (R28). -/
theorem read_eq_of_bits {m m' : Memory} {a : Nat} (h : ∀ q, 8 * a ≤ q → q < 8 * a + 8 → bitAt m q = bitAt m' q) :
    m.read a = m'.read a :=
  byte_ext fun j hj => by
    have := h (8 * a + (7 - j)) (by omega) (by omega)
    simp only [bitAt] at this
    rwa [show (8 * a + (7 - j)) / 8 = a by omega, show 7 - (8 * a + (7 - j)) % 8 = j by omega] at this

/-- Equal bytes have equal bits. -/
theorem bitAt_congr {m m' : Memory} {p : Nat} (h : m.read (p / 8) = m'.read (p / 8)) : bitAt m p = bitAt m' p := by
  rw [bitAt, bitAt, h]

/-- Canonical buffers with equal bits are equal. -/
theorem Memory.ext_bits {m m' : Memory} (h : m.wf = true) (h' : m'.wf = true) (heq : ∀ p, bitAt m p = bitAt m' p) :
    m = m' :=
  Memory.ext h h' fun _ => read_eq_of_bits fun q _ _ => heq q

theorem wf_setBit {m : Memory} (h : m.wf = true) (p : Nat) (x : Bool) : (setBit m p x).wf = true :=
  Memory.wf_write h _ _

theorem within_setBit {n : Nat} {m : Memory} (h : m.within n = true) {p : Nat} (hp : p < 8 * n) (x : Bool) :
    (setBit m p x).within n = true :=
  Memory.within_write h (by omega) _

/-- `SetBit` sets the bit of its position and no other (R28). -/
theorem bitAt_setBit {m : Memory} (h : m.wf = true) (p q : Nat) (x : Bool) :
    bitAt (setBit m p x) q = if q = p then x else bitAt m q := by
  simp only [bitAt, setBit]
  rw [Memory.read_write h]
  by_cases hb : q / 8 = p / 8
  · rw [if_pos hb, getLsbD_setByteBit _ _ _ _ (by omega)]
    by_cases hq : q = p
    · rw [if_pos (by rw [hq]), if_pos hq]
    · rw [if_neg (by omega), if_neg hq, hb]
  · rw [if_neg hb, if_neg (fun e => hb (by rw [e]))]

/-- `SetBit` leaves the bytes of other positions alone. -/
theorem read_setBit_other (m : Memory) {p a : Nat} (x : Bool) (h : a ≠ p / 8) : (setBit m p x).read a = m.read a :=
  Memory.read_write_other m _ h

/-! ### Fields -/

@[simp] theorem readField_zero (m : Memory) (s : Nat) : readField m s 0 = 0 := rfl

theorem readField_succ (m : Memory) (s k : Nat) :
    readField m s (k + 1) = 2 * readField m s k + (bitAt m (s + k)).toNat := rfl

/-- A field of `l` bits is below `2^l` (R65). -/
theorem readField_lt (m : Memory) (s l : Nat) : readField m s l < 2 ^ l := by
  induction l with
  | zero => simp
  | succ l ih =>
    rw [readField_succ, Nat.pow_succ]
    have := Bool.toNat_lt (bitAt m (s + l))
    omega

/-- Bit `l-1-k` of a field is the buffer bit at position `s+k` (R65). -/
theorem testBit_readField (m : Memory) (s l j : Nat) :
    (readField m s l).testBit j = (decide (j < l) && bitAt m (s + l - 1 - j)) := by
  induction l generalizing j with
  | zero => simp
  | succ l ih =>
    rw [readField_succ]
    cases j with
    | zero =>
      rw [Nat.testBit_zero, show s + (l + 1) - 1 - 0 = s + l by omega]
      cases bitAt m (s + l) <;> simp
    | succ j =>
      rw [Nat.testBit_succ, show (2 * readField m s l + (bitAt m (s + l)).toNat) / 2 = readField m s l by
        have := Bool.toNat_lt (bitAt m (s + l)); omega, ih]
      simp [show s + l - 1 - j = s + (l + 1) - 1 - (j + 1) by omega]

/-- A field depends only on its own bits. -/
theorem readField_congr {m m' : Memory} {s l : Nat} (h : ∀ k < l, bitAt m (s + k) = bitAt m' (s + k)) :
    readField m s l = readField m' s l := by
  induction l with
  | zero => rfl
  | succ l ih =>
    rw [readField_succ, readField_succ, ih fun k hk => h k (by omega), h l (by omega)]

theorem wf_writeField {m : Memory} (h : m.wf = true) (s l v : Nat) : (writeField m s l v).wf = true := by
  induction l generalizing m s with
  | zero => exact h
  | succ l ih => exact ih (wf_setBit h _ _) _

theorem within_writeField {n : Nat} {m : Memory} (h : m.within n = true) {s l : Nat} (hs : s + l ≤ 8 * n) (v : Nat) :
    (writeField m s l v).within n = true := by
  induction l generalizing m s with
  | zero => exact h
  | succ l ih => exact ih (within_setBit h (by omega) _) (by omega)

/-- What a write leaves at each bit position: the field's bits from the value, every other bit as it was (R71). -/
theorem bitAt_writeField {m : Memory} (h : m.wf = true) (s l v q : Nat) :
    bitAt (writeField m s l v) q = if s ≤ q ∧ q < s + l then v.testBit (l - 1 - (q - s)) else bitAt m q := by
  induction l generalizing m s with
  | zero => rw [if_neg (by omega)]; rfl
  | succ l ih =>
    rw [writeField, ih (wf_setBit h _ _), bitAt_setBit h]
    by_cases hq : q = s
    · subst hq
      rw [if_neg (by omega), if_pos rfl, if_pos (by omega)]
      congr 1; omega
    · by_cases hr : s + 1 ≤ q ∧ q < s + 1 + l
      · rw [if_pos hr, if_pos (by omega)]; congr 1; omega
      · rw [if_neg hr, if_neg hq, if_neg (by omega)]

/-- A write leaves every byte without a bit of the range alone (R34). -/
theorem read_writeField_other (m : Memory) (s l v : Nat) {a : Nat} (ha : 8 * a + 8 ≤ s ∨ s + l ≤ 8 * a) :
    (writeField m s l v).read a = m.read a := by
  induction l generalizing m s with
  | zero => rfl
  | succ l ih =>
    rw [writeField, ih _ _ (by omega), read_setBit_other _ _ (by omega)]

/-! ### Footprints -/

/-- The enables of a footprint are its bytes `first .. last`, none for `L = 0` (R33). -/
theorem testBit_footprint (s l i : Nat) :
    (footprint s l).testBit i = (decide (0 < l) && decide (s / 8 ≤ i) && decide (i ≤ (s + l - 1) / 8)) := by
  by_cases hl : l = 0
  · simp [footprint, hl]
  · have hl' : 0 < l := by omega
    simp only [footprint, if_neg hl, mask, Nat.testBit_shiftLeft, Nat.testBit_two_pow_sub_one, firstByte, lastByte, hl']
    by_cases h1 : s / 8 ≤ i
    · simp [h1]; omega
    · simp [h1]

@[simp] theorem footprint_zero (s : Nat) : footprint s 0 = 0 := by simp [footprint]

/-- A footprint inside the buffer fits in the `N` enables (R59). -/
theorem footprint_lt {s l n : Nat} (h : s + l ≤ 8 * n) : footprint s l < 2 ^ n :=
  Nat.lt_pow_two_of_testBit _ fun i hi => by
    rw [testBit_footprint]
    by_cases hl : 0 < l
    · simp [hl]; omega
    · simp [hl]

/-- A write leaves every byte outside its footprint alone (R34). -/
theorem read_writeField_footprint (m : Memory) {s l v a : Nat} (h : (footprint s l).testBit a = false) :
    (writeField m s l v).read a = m.read a := by
  rw [testBit_footprint] at h
  by_cases hl : 0 < l
  · refine read_writeField_other m s l v ?_
    simp [hl] at h
    omega
  · obtain rfl : l = 0 := by omega
    rfl

/-! ### Commits -/

/-- A commit changes exactly the enabled bytes of the buffer (R20). -/
theorem read_commit {m : Memory} (h : m.wf = true) (n : Nat) (r : Response) (a : Nat) :
    (commit n m r).read a = if a < n ∧ r.byteWe.testBit a = true then r.bufOut.read a else m.read a := by
  suffices H : (commit n m r).wf = true ∧ ∀ a,
      (commit n m r).read a = if a < n ∧ r.byteWe.testBit a = true then r.bufOut.read a else m.read a from H.2 a
  induction n with
  | zero => exact ⟨h, fun a => by simp [commit]⟩
  | succ n ih =>
    simp only [commit]
    split
    · next hw =>
      refine ⟨Memory.wf_write ih.1 _ _, fun a => ?_⟩
      rw [Memory.read_write ih.1, ih.2]
      by_cases ha : a = n
      · subst ha; simp [hw]
      · simp only [if_neg ha, show a < n + 1 ↔ a < n by omega]
    · next hw =>
      refine ⟨ih.1, fun a => ?_⟩
      rw [ih.2]
      by_cases ha : a = n
      · subst ha; simp [hw]
      · simp only [show a < n + 1 ↔ a < n by omega]

theorem wf_commit {m : Memory} (h : m.wf = true) (n : Nat) (r : Response) : (commit n m r).wf = true := by
  induction n with
  | zero => exact h
  | succ n ih =>
    simp only [commit]
    split
    · exact Memory.wf_write ih _ _
    · exact ih

theorem within_commit {n : Nat} {m : Memory} (h : m.within n = true) (r : Response) :
    (commit n m r).within n = true := by
  suffices H : ∀ k ≤ n, (commit k m r).within n = true from H n (Nat.le_refl n)
  intro k hk
  induction k with
  | zero => exact h
  | succ k ih =>
    simp only [commit]
    split
    · exact Memory.within_write (ih (by omega)) (by omega) _
    · exact ih (by omega)

/-- A response with no write enable commits nothing (R20, R37, R82). -/
theorem commit_of_no_enable (n : Nat) (m : Memory) {r : Response} (h : r.byteWe = 0) : commit n m r = m := by
  induction n with
  | zero => rfl
  | succ n ih => simp [commit, h, ih]

/-- Committing a write's response leaves exactly the buffer that the write drives (R20, R74). -/
theorem commit_ofWrite {n : Nat} {m : Memory} (h : m.wf = true) {s l : Nat} (hs : s + l ≤ 8 * n) (v : Nat) :
    commit n m (Response.ofWrite m s l v) = writeField m s l v := by
  refine Memory.ext (wf_commit h _ _) (wf_writeField h _ _ _) fun a => ?_
  rw [read_commit h]
  by_cases hw : (footprint s l).testBit a = true
  · refine if_pos ⟨?_, hw⟩
    rw [testBit_footprint] at hw
    simp at hw
    omega
  · rw [if_neg (fun c => hw c.2), read_writeField_footprint m (by simpa using hw)]

end Sys2Proof.Machine
end

