-- ==== Sys2Proof/Laws/Exec.lean ====
section
/-! SUPPORT. What the resolver, an instruction and a request can answer, said once: later proofs cite these and do not
unfold the meanings. -/

namespace Sys2Proof.Machine

/-- When the resolver succeeds, and with what (R57). -/
theorem resolve_eq_ok {form : RangeForm} {lo hi w n s l : Nat} :
    resolve form lo hi w n = .ok (s, l) ↔
      lo ≤ hi ∧ lo + rangeLength form lo hi ≤ 8 * n ∧ rangeLength form lo hi ≤ w ∧ s = lo ∧ l = rangeLength form lo hi := by
  unfold resolve
  split
  · simp; omega
  · split
    · simp; omega
    · split
      · simp; omega
      · simp; omega

/-- A dynamic instance resolves the range of the request (R57). -/
theorem resolveFor_dynamic {p : Params} (hp : p.staticRange = false) (form : RangeForm) (w : Width) (lo hi : Nat) :
    resolveFor p form w lo hi = resolve form lo hi w.bits p.nBytes := by
  simp [resolveFor, effectiveRange, hp]

/-- A static instance resolves its own range (R64). -/
theorem resolveFor_static {p : Params} (hp : p.staticRange = true) (form : RangeForm) (w : Width) (lo hi : Nat) :
    resolveFor p form w lo hi = resolve p.sForm p.sLo p.sHi w.bits p.nBytes := by
  simp [resolveFor, effectiveRange, hp]

theorem width_bits_le (w : Width) : w.bits ≤ 128 := by cases w <;> decide

/-- A resolved range lies in the buffer and fits the width (R59). -/
theorem resolveFor_bounds {p : Params} {form : RangeForm} {w : Width} {lo hi s l : Nat}
    (h : resolveFor p form w lo hi = .ok (s, l)) : s + l ≤ 8 * p.nBytes ∧ l ≤ w.bits ∧ l ≤ 128 := by
  obtain ⟨_, h2, h3, rfl, rfl⟩ := resolve_eq_ok.mp h
  exact ⟨h2, h3, Nat.le_trans h3 (width_bits_le w)⟩

/-- The response of a request with no error: a read's (R67) or a write's (R74). -/
def okResponse (i : Instr) (buf : Memory) (st l : Nat) : Response :=
  match i.op with
  | .read => Response.ofRead buf st l
  | .write => Response.ofWrite buf st l (writeValue i.width i.wval)

theorem okResponse_read {i : Instr} (h : i.op = .read) (buf : Memory) (st l : Nat) :
    okResponse i buf st l = Response.ofRead buf st l := by simp [okResponse, h]

theorem okResponse_write {i : Instr} (h : i.op = .write) (buf : Memory) (st l : Nat) :
    okResponse i buf st l = Response.ofWrite buf st l (writeValue i.width i.wval) := by simp [okResponse, h]

theorem execRead_eq (form : RangeForm) (w : Width) (chk : Bool) (lo hi : Nat) (s : State) :
    execRead form w chk lo hi s = .next (match resolveFor s.params form w lo hi with
      | .ok (st, l) => s.takeOk (Response.ofRead s.buf st l)
      | .error e => s.takeError e chk) := by
  unfold execRead
  generalize resolveFor s.params form w lo hi = x
  rcases x with e | ⟨a, b⟩ <;> rfl

theorem execWrite_eq (form : RangeForm) (w : Width) (chk : Bool) (lo hi : Nat) (wval : Value) (s : State) :
    execWrite form w chk lo hi wval s = .next (match resolveFor s.params form w lo hi with
      | .ok (st, l) => s.takeOk (Response.ofWrite s.buf st l (writeValue w wval))
      | .error e => s.takeError e chk) := by
  unfold execWrite
  generalize resolveFor s.params form w lo hi = x
  rcases x with e | ⟨a, b⟩ <;> rfl

/-- An instruction does one of two things: its range resolves and the response is driven and committed, or it takes the
range error (R68, R69, R75, R76). -/
theorem exec_eq (i : Instr) (s : State) :
    exec i s = .next (match resolveFor s.params i.form i.width i.lo i.hi with
      | .ok (st, l) => s.takeOk (okResponse i s.buf st l)
      | .error e => s.takeError e i.chk) := by
  cases i <;> first | exact execRead_eq _ _ _ _ _ _ | exact execWrite_eq _ _ _ _ _ _ _

/-- An instruction whose range resolves (R67, R74). -/
theorem exec_of_ok {i : Instr} {s : State} {st l : Nat}
    (h : resolveFor s.params i.form i.width i.lo i.hi = .ok (st, l)) :
    exec i s = .next (s.takeOk (okResponse i s.buf st l)) := by rw [exec_eq, h]

/-- An instruction whose range fails (R81). -/
theorem exec_of_error {i : Instr} {s : State} {e : RangeError}
    (h : resolveFor s.params i.form i.width i.lo i.hi = .error e) :
    exec i s = .next (s.takeError e i.chk) := by rw [exec_eq, h]

/-- Taking a read's response is what R67 says of a read. -/
theorem takeOk_ofRead (s : State) (st l : Nat) : s.takeOk (Response.ofRead s.buf st l) = s.readDone st l := by
  unfold State.takeOk State.readDone
  rw [commit_of_no_enable _ _ rfl]
  rfl

/-- Taking a write's response is what R74 says of a write. -/
theorem takeOk_ofWrite {s : State} (h : s.buf.wf = true) {st l : Nat} (hb : st + l ≤ 8 * s.params.nBytes) (v : Nat) :
    s.takeOk (Response.ofWrite s.buf st l v) = s.writeDone st l v := by
  unfold State.takeOk State.writeDone
  rw [commit_ofWrite h hb]
  rfl

/-- Taking a range error is what R81 and R82 say of a checked and of an unchecked request. -/
theorem takeError_eq (s : State) (e : RangeError) (chk : Bool) :
    s.takeError e chk = if chk then s.errorDone e else s.faultDone e := by
  cases chk
  · cases e <;> simp [State.takeError, State.faultDone, Response.ofError, rangeFault, markAfter, observationsOf,
      RangeError.code]
  · cases e <;> simp [State.takeError, State.errorDone, Response.ofError, rangeFault, markAfter, observationsOf,
      RangeError.code]

/-- What an instruction can answer, as cases. -/
theorem exec_cases {i : Instr} {s t : State} (h : exec i s = .next t) :
    (∃ st l, resolveFor s.params i.form i.width i.lo i.hi = .ok (st, l) ∧ t = s.takeOk (okResponse i s.buf st l)) ∨
      (∃ e, resolveFor s.params i.form i.width i.lo i.hi = .error e ∧ t = s.takeError e i.chk) := by
  rw [exec_eq, Host.Outcome.next.injEq] at h
  split at h
  · next st l he => exact .inl ⟨st, l, he, h.symm⟩
  · next e he => exact .inr ⟨e, he, h.symm⟩

/-- What a request can answer: its instruction runs, or a reserved control byte takes `IllegalControl` (R24, R79). -/
theorem perform_cases {r : Request} {s t : State} (h : State.perform r s = .next t) :
    (∃ i, decodeRequest s.params.idxW r = .ok i ∧ exec i s = .next t) ∨
      (decodeRequest s.params.idxW r = .error (.illegalControl r.ctl) ∧ t = s.takeIllegal) := by
  unfold State.perform at h
  split at h
  · next i hi => exact .inl ⟨i, hi, h⟩
  · next c hc =>
    refine .inr ⟨?_, (Host.Outcome.next.inj h).symm⟩
    rw [hc]
    unfold decodeRequest at hc
    split at hc
    · split at hc <;> simp_all
    · simp at hc
  · cases h
  · cases h

/-- A request whose control byte names an instruction runs it (R24). -/
theorem perform_of_ok {r : Request} {s : State} {i : Instr} (h : decodeRequest s.params.idxW r = .ok i) :
    State.perform r s = exec i s := by simp [State.perform, h]

/-- What performing a request leaves alone: the parameters, the pipeline, the other instances and the host's side. -/
theorem perform_frame {r : Request} {s t : State} (h : State.perform r s = .next t) :
    t.params = s.params ∧ t.pipe = s.pipe ∧ t.index = s.index ∧ t.pending = s.pending ∧ t.peers = s.peers := by
  rcases perform_cases h with ⟨i, -, hi⟩ | ⟨-, rfl⟩
  · rcases exec_cases hi with ⟨st, l, -, rfl⟩ | ⟨e, -, rfl⟩ <;> exact ⟨rfl, rfl, rfl, rfl, rfl⟩
  · exact ⟨rfl, rfl, rfl, rfl, rfl⟩

/-- Performing a request that the ports can carry always answers a next state. -/
theorem perform_next {r : Request} {s : State} (h : r.fits s.params.idxW = true) : ∃ t, State.perform r s = .next t := by
  unfold State.perform decodeRequest
  rw [if_pos h]
  split
  · next i hi => exact ⟨_, exec_eq i s⟩
  · exact ⟨_, rfl⟩
  · next hc => split at hc <;> cases hc
  · next hc => split at hc <;> cases hc

end Sys2Proof.Machine
end

