-- ==== Sys2Proof/Laws/PerInstr.lean ====
section
/-! SUPPORT. The statement family `TableRow`, made for every instruction: its control byte is the one
spec/opcode_table.json lists for its row, and the control byte says what the row is. -/

namespace Sys2Proof.Laws

/-- The `match` byte that spec/opcode_table.json lists for an instruction's row (the row's mask is 0xFB). -/
def TableRow.listed : Instr → Byte
  | .rdfHoW8 .. => 0x00
  | .rdfClW8 .. => 0x02
  | .wrfHoW8 .. => 0x01
  | .wrfClW8 .. => 0x03
  | .rdfHoW16 .. => 0x08
  | .rdfClW16 .. => 0x0A
  | .wrfHoW16 .. => 0x09
  | .wrfClW16 .. => 0x0B
  | .rdfHoW32 .. => 0x10
  | .rdfClW32 .. => 0x12
  | .wrfHoW32 .. => 0x11
  | .wrfClW32 .. => 0x13
  | .rdfHoW64 .. => 0x18
  | .rdfClW64 .. => 0x1A
  | .wrfHoW64 .. => 0x19
  | .wrfClW64 .. => 0x1B
  | .rdfHoW128 .. => 0x20
  | .rdfClW128 .. => 0x22
  | .wrfHoW128 .. => 0x21
  | .wrfClW128 .. => 0x23

/-- The control byte of an instruction has the bits its table row fixes, its bit 2 is `CHK`, and it decodes to the row. -/
def TableRow.Statement (i : Instr) : Prop :=
  i.ctl &&& 0xFB#8 = TableRow.listed i ∧ i.ctl.getLsbD 2 = i.chk ∧
    decodeControl i.ctl = some (i.op, i.form, i.chk, i.width)

/-- An instruction meets the statement once its row's computed `match` byte is the listed one. -/
theorem tableRow_of_listed {i : Instr} (h : rowMatch i.op i.form i.width = TableRow.listed i) : TableRow.Statement i :=
  ⟨(rowMatch_masked _ _ _ _).1.trans h, (rowMatch_masked _ _ _ _).2, decodeControl_ctl i⟩

theorem TableRow.rdfHoW8 (chk : Bool) (lo hi : Nat) : TableRow.Statement (.rdfHoW8 chk lo hi) :=
  tableRow_of_listed (show rowMatch .read .halfOpen .w8 = 0x00 by decide)

theorem TableRow.rdfClW8 (chk : Bool) (lo hi : Nat) : TableRow.Statement (.rdfClW8 chk lo hi) :=
  tableRow_of_listed (show rowMatch .read .closed .w8 = 0x02 by decide)

theorem TableRow.wrfHoW8 (chk : Bool) (lo hi : Nat) (wval : Value) : TableRow.Statement (.wrfHoW8 chk lo hi wval) :=
  tableRow_of_listed (show rowMatch .write .halfOpen .w8 = 0x01 by decide)

theorem TableRow.wrfClW8 (chk : Bool) (lo hi : Nat) (wval : Value) : TableRow.Statement (.wrfClW8 chk lo hi wval) :=
  tableRow_of_listed (show rowMatch .write .closed .w8 = 0x03 by decide)

theorem TableRow.rdfHoW16 (chk : Bool) (lo hi : Nat) : TableRow.Statement (.rdfHoW16 chk lo hi) :=
  tableRow_of_listed (show rowMatch .read .halfOpen .w16 = 0x08 by decide)

theorem TableRow.rdfClW16 (chk : Bool) (lo hi : Nat) : TableRow.Statement (.rdfClW16 chk lo hi) :=
  tableRow_of_listed (show rowMatch .read .closed .w16 = 0x0A by decide)

theorem TableRow.wrfHoW16 (chk : Bool) (lo hi : Nat) (wval : Value) : TableRow.Statement (.wrfHoW16 chk lo hi wval) :=
  tableRow_of_listed (show rowMatch .write .halfOpen .w16 = 0x09 by decide)

theorem TableRow.wrfClW16 (chk : Bool) (lo hi : Nat) (wval : Value) : TableRow.Statement (.wrfClW16 chk lo hi wval) :=
  tableRow_of_listed (show rowMatch .write .closed .w16 = 0x0B by decide)

theorem TableRow.rdfHoW32 (chk : Bool) (lo hi : Nat) : TableRow.Statement (.rdfHoW32 chk lo hi) :=
  tableRow_of_listed (show rowMatch .read .halfOpen .w32 = 0x10 by decide)

theorem TableRow.rdfClW32 (chk : Bool) (lo hi : Nat) : TableRow.Statement (.rdfClW32 chk lo hi) :=
  tableRow_of_listed (show rowMatch .read .closed .w32 = 0x12 by decide)

theorem TableRow.wrfHoW32 (chk : Bool) (lo hi : Nat) (wval : Value) : TableRow.Statement (.wrfHoW32 chk lo hi wval) :=
  tableRow_of_listed (show rowMatch .write .halfOpen .w32 = 0x11 by decide)

theorem TableRow.wrfClW32 (chk : Bool) (lo hi : Nat) (wval : Value) : TableRow.Statement (.wrfClW32 chk lo hi wval) :=
  tableRow_of_listed (show rowMatch .write .closed .w32 = 0x13 by decide)

theorem TableRow.rdfHoW64 (chk : Bool) (lo hi : Nat) : TableRow.Statement (.rdfHoW64 chk lo hi) :=
  tableRow_of_listed (show rowMatch .read .halfOpen .w64 = 0x18 by decide)

theorem TableRow.rdfClW64 (chk : Bool) (lo hi : Nat) : TableRow.Statement (.rdfClW64 chk lo hi) :=
  tableRow_of_listed (show rowMatch .read .closed .w64 = 0x1A by decide)

theorem TableRow.wrfHoW64 (chk : Bool) (lo hi : Nat) (wval : Value) : TableRow.Statement (.wrfHoW64 chk lo hi wval) :=
  tableRow_of_listed (show rowMatch .write .halfOpen .w64 = 0x19 by decide)

theorem TableRow.wrfClW64 (chk : Bool) (lo hi : Nat) (wval : Value) : TableRow.Statement (.wrfClW64 chk lo hi wval) :=
  tableRow_of_listed (show rowMatch .write .closed .w64 = 0x1B by decide)

theorem TableRow.rdfHoW128 (chk : Bool) (lo hi : Nat) : TableRow.Statement (.rdfHoW128 chk lo hi) :=
  tableRow_of_listed (show rowMatch .read .halfOpen .w128 = 0x20 by decide)

theorem TableRow.rdfClW128 (chk : Bool) (lo hi : Nat) : TableRow.Statement (.rdfClW128 chk lo hi) :=
  tableRow_of_listed (show rowMatch .read .closed .w128 = 0x22 by decide)

theorem TableRow.wrfHoW128 (chk : Bool) (lo hi : Nat) (wval : Value) : TableRow.Statement (.wrfHoW128 chk lo hi wval) :=
  tableRow_of_listed (show rowMatch .write .halfOpen .w128 = 0x21 by decide)

theorem TableRow.wrfClW128 (chk : Bool) (lo hi : Nat) (wval : Value) : TableRow.Statement (.wrfClW128 chk lo hi wval) :=
  tableRow_of_listed (show rowMatch .write .closed .w128 = 0x23 by decide)

end Sys2Proof.Laws
end

