-- ==== Sys2Proof/Laws/Step.lean ====
section
/-! SUPPORT. What a cycle and a step can answer, as cases, and what they leave alone. -/

namespace Sys2Proof.Machine

/-! ### One instance -/

/-- A completed request's next state: performed on its sample, its response committed to the buffer as it stands (R20,
R99). -/
theorem complete_cases {f : InFlight} {s t : State} (h : s.complete f = .next t) :
    ∃ u, State.perform f.req { s with buf := f.bufIn } = .next u ∧
      t = { u with buf := commit s.params.nBytes s.buf u.rsp } := by
  obtain ⟨u, hu, ht⟩ := andThen_eq_next.mp h
  exact ⟨u, hu, (Host.Outcome.next.inj ht).symm⟩

/-- What completing a request leaves alone. -/
theorem complete_frame {f : InFlight} {s t : State} (h : s.complete f = .next t) :
    t.params = s.params ∧ t.pipe = s.pipe ∧ t.index = s.index ∧ t.pending = s.pending ∧ t.peers = s.peers := by
  obtain ⟨u, hu, rfl⟩ := complete_cases h
  obtain ⟨h1, h2, h3, h4, h5⟩ := perform_frame hu
  exact ⟨h1, h2, h3, h4, h5⟩

/-- What retiring can answer: the oldest stage's request completes, or the outputs are idle (R19, R98). -/
theorem retire_cases {m : Memory} {s t : State} (h : s.retire m = .next t) :
    (∃ f, s.pipe.getLast? = some (some f) ∧ s.complete f = .next t) ∨ t = s.idleOn m := by
  unfold State.retire at h
  split at h
  · next f hf => exact .inl ⟨f, hf, h⟩
  · exact .inr (Host.Outcome.next.inj h).symm

/-- What shifting the pipeline answers: what retiring does, and then the new stage in front (R98, R99). -/
theorem shiftCycle_cases {pins : Pins} {m : Memory} {s t : State} (h : s.shiftCycle pins m = .next t) :
    ∃ u, s.retire m = .next u ∧
      t = { u with
            pipe := stageOf pins m :: s.pipe.dropLast
            index := if pins.reqValid then s.index + 1 else s.index } := by
  obtain ⟨u, hu, ht⟩ := andThen_eq_next.mp h
  exact ⟨u, hu, (Host.Outcome.next.inj ht).symm⟩

/-- What one instance's clock cycle can answer (R93, R94, R98). -/
theorem blockCycle_cases {pins : Pins} {m : Memory} {s t : State} (h : s.blockCycle pins m = .next t) :
    (s.params.latency = 0 ∧ pins.reqValid = true ∧
        State.complete { host := pins.host, req := pins.req, bufIn := m } { s with index := s.index + 1 } = .next t) ∨
      (s.params.latency = 0 ∧ pins.reqValid = false ∧ t = s.idleOn m) ∨
      (s.params.latency ≠ 0 ∧ pins.rst = true ∧ t = s.resetCycle m) ∨
      (s.params.latency ≠ 0 ∧ pins.rst = false ∧ s.shiftCycle pins m = .next t) := by
  unfold State.blockCycle at h
  split at h
  · next hl =>
    unfold State.combCycle at h
    split at h
    · next hv => exact .inl ⟨hl, hv, h⟩
    · next hv => exact .inr (.inl ⟨hl, by simpa using hv, (Host.Outcome.next.inj h).symm⟩)
  · next hl =>
    split at h
    · next hr => exact .inr (.inr (.inl ⟨hl, hr, (Host.Outcome.next.inj h).symm⟩))
    · next hr => exact .inr (.inr (.inr ⟨hl, by simpa using hr, h⟩))

/-- What one instance's clock cycle leaves alone. -/
theorem blockCycle_frame {pins : Pins} {m : Memory} {s t : State} (h : s.blockCycle pins m = .next t) :
    t.params = s.params ∧ t.pending = s.pending ∧ t.peers = s.peers := by
  rcases blockCycle_cases h with ⟨-, -, h⟩ | ⟨-, -, rfl⟩ | ⟨-, -, rfl⟩ | ⟨-, -, h⟩
  · obtain ⟨h1, -, -, h4, h5⟩ := complete_frame h
    exact ⟨h1, h4, h5⟩
  · exact ⟨rfl, rfl, rfl⟩
  · exact ⟨rfl, rfl, rfl⟩
  · obtain ⟨u, hu, rfl⟩ := shiftCycle_cases h
    rcases retire_cases hu with ⟨f, -, hf⟩ | rfl
    · obtain ⟨h1, -, -, h4, h5⟩ := complete_frame hf
      exact ⟨h1, h4, h5⟩
    · exact ⟨rfl, rfl, rfl⟩

/-! ### Every instance -/

/-- What an operation on another instance can answer: that instance's next state, put back in its place. -/
theorem onPeer_cases {k : Nat} {f : State → Outcome} {s t : State} (h : s.onPeer k f = .next t) :
    ∃ b u, s.peers[k]? = some b ∧ f (s.focus b) = .next u ∧
      t = { u.focus s.block with peers := s.peers.set k u.block } := by
  unfold State.onPeer at h
  split at h
  · next b hb =>
    obtain ⟨u, hu, ht⟩ := andThen_eq_next.mp h
    exact ⟨b, u, hb, hu, (Host.Outcome.next.inj ht).symm⟩
  · cases h

/-- What the other instances' clock cycles answer, one after the other. -/
theorem cyclePeers_succ {ps : List Pins} {m : Memory} {k : Nat} {s t : State}
    (h : State.cyclePeers ps m (k + 1) s = .next t) :
    ∃ u, State.cyclePeers ps m k s = .next u ∧
      u.onPeer k (State.blockCycle (ps.getD (k + 1) Pins.idle) m) = .next t :=
  andThen_eq_next.mp h

/-- What one clock cycle can answer: no port overflows, and either requesters clash or R101 is broken and the marks are set,
or every instance makes its cycle (R42, R98, R101). -/
theorem clock_cases {ps : List Pins} {s t : State} (h : s.clock ps = .next t) :
    (s.driven ps).any Driven.overflows = false ∧
    (((hazardous (s.driven ps) = true ∨ racing (s.driven ps) = true) ∧
        t = { s.idle with
              faulted := if racing (s.driven ps) then some .race else s.faulted
              refused := if hazardous (s.driven ps) then some .hazard else s.refused }) ∨
      (hazardous (s.driven ps) = false ∧ racing (s.driven ps) = false ∧
        ∃ u, s.blockCycle (ps.getD 0 Pins.idle) s.buf = .next u ∧
          State.cyclePeers ps s.buf s.peers.length u = .next t)) := by
  unfold State.clock at h
  split at h
  · cases h
  · next ho =>
    refine ⟨by simpa using ho, ?_⟩
    split at h
    · next hm => exact .inl ⟨by simpa using hm, (Host.Outcome.next.inj h).symm⟩
    · next hm =>
      rw [Bool.or_eq_true, not_or] at hm
      exact .inr ⟨by simpa using hm.1, by simpa using hm.2, andThen_eq_next.mp h⟩

/-- What an access of another agent can answer (R102). -/
theorem access_cases {a : Nat} {new : Option Byte} {s t : State} (h : s.access a new = .next t) :
    a < s.params.nBytes ∧
      ((s.accessRaces a new = true ∧ t = { s.idle with faulted := some .race }) ∨
        (s.accessRaces a new = false ∧ ∃ b, new = some b ∧ t = State.idle { s with buf := s.buf.write a b }) ∨
        (s.accessRaces a new = false ∧ new = none ∧ t = s.idle)) := by
  unfold State.access at h
  split at h
  · next ha =>
    refine ⟨ha, ?_⟩
    split at h
    · next hr => exact .inl ⟨hr, (Host.Outcome.next.inj h).symm⟩
    · next hr =>
      have hr' : s.accessRaces a new = false := by simpa using hr
      split at h
      · exact .inr (.inl ⟨hr', _, rfl, (Host.Outcome.next.inj h).symm⟩)
      · exact .inr (.inr ⟨hr', rfl, (Host.Outcome.next.inj h).symm⟩)
  · cases h

/-- What a group of requests can answer (R42). -/
theorem overlap_cases {ms : List Member} {s t : State} (h : s.overlap ms = .next t) :
    (∀ m ∈ ms, m.block < s.blocks.length) ∧
      ((race (s.posed ms) = true ∧ t = { s.idle with faulted := some .race }) ∨
        (race (s.posed ms) = false ∧ s.idle.together s.buf ms = .next t)) := by
  unfold State.overlap at h
  split at h
  · cases h
  · next hb =>
    refine ⟨fun m hm => ?_, ?_⟩
    · by_contra hlt
      exact hb (List.any_eq_true.mpr ⟨m, hm, decide_eq_true (Nat.not_lt.mp hlt)⟩)
    · split at h
      · next hr => exact .inl ⟨hr, (Host.Outcome.next.inj h).symm⟩
      · next hr => exact .inr ⟨by simpa using hr, h⟩

/-- What a step can answer: the instances are lawful, no mark is set, and either the host has nothing left and drives idle
pins, or its next action is taken (R23, R25, R64). -/
theorem step_cases {s t : State} (h : step s = .next t) :
    s.lawful = true ∧ s.live = true ∧
      ((s.pending = [] ∧ s.clock [] = .next t) ∨
        (∃ a rest, s.pending = a :: rest ∧ s.act a rest = .next t)) := by
  unfold step State.advance at h
  split at h
  · next hl =>
    refine ⟨hl, ?_⟩
    split at h
    · cases h
    · cases h
    · next h1 h2 =>
      refine ⟨by simp [State.live, h1, h2], ?_⟩
      split at h
      · next hp => exact .inl ⟨hp, h⟩
      · next a rest hp => exact .inr ⟨a, rest, hp, h⟩
  · cases h

/-- A step of a live state of lawful instances is the host's next action, or an idle cycle. -/
theorem step_of_live {s : State} (hl : s.lawful = true) (hs : s.live = true) :
    step s = match s.pending with
      | [] => s.clock []
      | a :: rest => s.act a rest := by
  simp only [State.live, Bool.and_eq_true, Option.isNone_iff_eq_none] at hs
  obtain ⟨p, m, f, r, pipe, rsp, index, peers, pending, observed⟩ := s
  obtain ⟨rfl, rfl⟩ := hs
  cases pending <;> exact if_pos hl

/-- Parameters are never changed by a serial list of requests. -/
theorem serveAll_params {rs : List Request} {s t : State} (h : s.serveAll rs = .next t) : t.params = s.params := by
  induction rs generalizing s with
  | nil => cases h; rfl
  | cons r rs ih =>
    obtain ⟨u, hu, ht⟩ := andThen_eq_next.mp h
    have hp : u.params = s.params := (perform_frame hu).1
    split at ht
    · exact (ih ht).trans hp
    · cases ht; exact hp

end Sys2Proof.Machine
end

