-- ==== Sys2Proof/Tests/Slice0.lean ====
section
/-! SUPPORT. Small tests, each about one step or one word, with expected values from the tables of spec/; and, for every
statement with hypotheses, a witness that meets them (`test_witness_<statement>`). -/

open Sys2Proof Sys2Proof.Machine

namespace Sys2Proof.Tests

/-! ### Well-formedness: each check refuses an ill-formed term -/

theorem test_wf_refuses_wide_lo : (Instr.rdfHoW8 false 64 0).wf 6 = false := by decide

theorem test_wf_refuses_wide_hi : (Instr.wrfClW128 true 0 64 0).wf 6 = false := by decide

theorem test_wf_takes_the_largest_bounds : (Instr.wrfClW128 true 63 63 0).wf 6 = true := by decide

theorem test_fits_refuses_wide_lo : ({ ctl := 0, lo := 64, hi := 0, wval := 0 } : Request).fits 6 = false := by decide

theorem test_fits_refuses_wide_hi : ({ ctl := 0, lo := 0, hi := 64, wval := 0 } : Request).fits 6 = false := by decide

theorem test_legal_refuses_narrow_index : legal { Config.resetParams with idxW := 7 } = false := by decide

theorem test_legal_refuses_inverted_static_range :
    legal { Config.resetParams with staticRange := true, sLo := 5, sHi := 3 } = false := by decide

theorem test_legal_refuses_static_range_past_the_end :
    legal { Config.resetParams with staticRange := true, sForm := .closed, sLo := 0, sHi := 160 } = false := by decide

/-! ### Decoding: words written out from R48, R49 and R53, at `IDX_W = 8` with `lo = 0x10`, `hi = 0x20`, `wval = 0x5A` -/

theorem test_decode_rdf_ho :
    decodeTableWord 32 0x5A201000 = some (.rdfHoW8 false 0x10 0x20) ∧
    decodeTableWord 32 0x5A201008 = some (.rdfHoW16 false 0x10 0x20) ∧
    decodeTableWord 32 0x5A201010 = some (.rdfHoW32 false 0x10 0x20) ∧
    decodeTableWord 32 0x5A20101C = some (.rdfHoW64 true 0x10 0x20) ∧
    decodeTableWord 32 0x5A201024 = some (.rdfHoW128 true 0x10 0x20) := by decide

theorem test_decode_rdf_cl :
    decodeTableWord 32 0x5A201002 = some (.rdfClW8 false 0x10 0x20) ∧
    decodeTableWord 32 0x5A20100A = some (.rdfClW16 false 0x10 0x20) ∧
    decodeTableWord 32 0x5A201012 = some (.rdfClW32 false 0x10 0x20) ∧
    decodeTableWord 32 0x5A20101E = some (.rdfClW64 true 0x10 0x20) ∧
    decodeTableWord 32 0x5A201026 = some (.rdfClW128 true 0x10 0x20) := by decide

theorem test_decode_wrf_ho :
    decodeTableWord 32 0x5A201001 = some (.wrfHoW8 false 0x10 0x20 0x5A) ∧
    decodeTableWord 32 0x5A201009 = some (.wrfHoW16 false 0x10 0x20 0x5A) ∧
    decodeTableWord 32 0x5A201011 = some (.wrfHoW32 false 0x10 0x20 0x5A) ∧
    decodeTableWord 32 0x5A20101D = some (.wrfHoW64 true 0x10 0x20 0x5A) ∧
    decodeTableWord 32 0x5A201025 = some (.wrfHoW128 true 0x10 0x20 0x5A) := by decide

theorem test_decode_wrf_cl :
    decodeTableWord 32 0x5A201003 = some (.wrfClW8 false 0x10 0x20 0x5A) ∧
    decodeTableWord 32 0x5A20100B = some (.wrfClW16 false 0x10 0x20 0x5A) ∧
    decodeTableWord 32 0x5A201013 = some (.wrfClW32 false 0x10 0x20 0x5A) ∧
    decodeTableWord 32 0x5A20101F = some (.wrfClW64 true 0x10 0x20 0x5A) ∧
    decodeTableWord 32 0x5A201027 = some (.wrfClW128 true 0x10 0x20 0x5A) := by decide

/-- The reserved rows of section 2 of 95_test_vectors.md. -/
theorem test_decode_refuses_reserved_control_bytes :
    ∀ c ∈ [0x28#8, 0x30#8, 0x38#8, 0x3F#8, 0x40#8, 0x80#8, 0xC0#8, 0xFF#8],
      (match decode 8 c.toNat with | .error (.illegalControl d) => some d | _ => none) = some c := by decide

theorem test_decode_refuses_longer_words :
    (match decode 6 (2 ^ 148) with | .error .notAReqWord => true | _ => false) = true := by decide

theorem test_decode_refuses_wide_ports :
    (match decodeRequest 6 { ctl := 0, lo := 0, hi := 64, wval := 0 } with | .error .portOverflow => true | _ => false) =
      true := by decide

/-! ### One step of each instruction: rows of sections 4 and 5 of 95_test_vectors.md, and their closed or half-open twins
(R70 law 2) -/

/-- An instance with the buffer `bs` and 8 index bits. -/
def on (bs : List Byte) : State := State.launch { Config.resetParams with nBytes := bs.length } [] (Memory.ofBytes bs) []

/-- The buffer of the tables' read rows. -/
def bytesA : List Byte := [0xA5, 0x3C, 0xFF, 0x00, 0x81]

/-- Five bytes of zeros. -/
def zeros : List Byte := [0, 0, 0, 0, 0]

/-- The value read and the error code of one instruction. -/
def valueOf (i : Instr) (bs : List Byte) : Option (Nat × Nat) :=
  match exec i (on bs) with
  | .next t => some (t.rsp.rdValue.toNat, t.rsp.err.toNat)
  | _ => none

/-- The buffer after one instruction. -/
def bytesAfter (i : Instr) (bs : List Byte) : Option (List Byte) :=
  match exec i (on bs) with
  | .next t => some (t.buf.bytes bs.length)
  | _ => none

theorem test_rdfHoW8 : valueOf (.rdfHoW8 false 3 11) bytesA = some (0x29, 0) := by decide
theorem test_rdfClW8 : valueOf (.rdfClW8 false 36 39) bytesA = some (0x1, 0) := by decide
theorem test_rdfHoW16 : valueOf (.rdfHoW16 true 4 20) bytesA = some (0x53CF, 0) := by decide
theorem test_rdfClW16 : valueOf (.rdfClW16 false 4 19) bytesA = some (0x53CF, 0) := by decide
theorem test_rdfHoW32 : valueOf (.rdfHoW32 false 0 32) bytesA = some (0xA53CFF00, 0) := by decide
theorem test_rdfClW32 : valueOf (.rdfClW32 false 0 31) bytesA = some (0xA53CFF00, 0) := by decide
theorem test_rdfHoW64 : valueOf (.rdfHoW64 false 1 40) bytesA = some (0x253CFF0081, 0) := by decide
theorem test_rdfClW64 : valueOf (.rdfClW64 false 1 39) bytesA = some (0x253CFF0081, 0) := by decide
theorem test_rdfHoW128 : valueOf (.rdfHoW128 false 0 40) bytesA = some (0xA53CFF0081, 0) := by decide
theorem test_rdfClW128 : valueOf (.rdfClW128 false 0 39) bytesA = some (0xA53CFF0081, 0) := by decide

theorem test_wrfHoW8 : bytesAfter (.wrfHoW8 false 3 11 0xFF) zeros = some [0x1F, 0xE0, 0, 0, 0] := by decide
theorem test_wrfClW8 : bytesAfter (.wrfClW8 false 6 6 1) zeros = some [0x02, 0, 0, 0, 0] := by decide
theorem test_wrfHoW16 : bytesAfter (.wrfHoW16 false 4 20 0xABCD) zeros = some [0x0A, 0xBC, 0xD0, 0, 0] := by decide
theorem test_wrfClW16 : bytesAfter (.wrfClW16 false 4 19 0xABCD) zeros = some [0x0A, 0xBC, 0xD0, 0, 0] := by decide
theorem test_wrfHoW32 :
    bytesAfter (.wrfHoW32 false 4 36 0x12345678) zeros = some [0x01, 0x23, 0x45, 0x67, 0x80] := by decide
theorem test_wrfClW32 :
    bytesAfter (.wrfClW32 false 4 35 0x12345678) zeros = some [0x01, 0x23, 0x45, 0x67, 0x80] := by decide
theorem test_wrfHoW64_ignores_excess :
    bytesAfter (.wrfHoW64 false 1 40 0xA53CFF0081) zeros = some [0x25, 0x3C, 0xFF, 0x00, 0x81] := by decide
theorem test_wrfClW64_ignores_excess :
    bytesAfter (.wrfClW64 false 1 39 0xA53CFF0081) zeros = some [0x25, 0x3C, 0xFF, 0x00, 0x81] := by decide
theorem test_wrfHoW128_stores_low_bits :
    bytesAfter (.wrfHoW128 false 0 40 0xFFFFFFFFFFFFFFFFFFFFFFFFFFFFFFFF) zeros = some [0xFF, 0xFF, 0xFF, 0xFF, 0xFF] := by
  decide
theorem test_wrfClW128_keeps_other_bits :
    bytesAfter (.wrfClW128 false 1 38 0) [0xFF, 0xFF, 0xFF, 0xFF, 0xFF] = some [0x80, 0, 0, 0, 0x01] := by decide

/-- Section 6: both past the end and too wide reports `OutOfBounds`; a too wide range reports `FieldTooWide`. -/
theorem test_errors_in_order :
    valueOf (.rdfHoW8 true 24 40) [0x45, 0x00, 0x00, 0x54] = some (0, 1) ∧
    valueOf (.rdfHoW8 true 0 16) [0x45, 0x00, 0x00, 0x54] = some (0, 2) ∧
    valueOf (.rdfClW8 true 5 4) [0x45, 0x00, 0x00, 0x54] = some (0, 1) := by decide

/-- Section 6: an unchecked error drives `rsp_fault`, sets the mark and changes no byte. -/
theorem test_unchecked_error :
    (match exec (.wrfHoW16 false 20 40 0xFFFF) (on [0x45, 0x00, 0x00, 0x54]) with
      | .next t => some (t.rsp.fault, t.faulted, t.buf.bytes 4)
      | _ => none) = some (true, some (.unchecked .outOfBounds), [0x45, 0x00, 0x00, 0x54]) := by decide

/-- Section 6: a write that is too wide changes no byte. The assembler would not take this value (R55), the ports do. -/
theorem test_too_wide_write_changes_nothing :
    bytesAfter (.wrfHoW8 true 0 9 0x1FF) [0x45, 0x00, 0x00, 0x54] = some [0x45, 0x00, 0x00, 0x54] := by decide

/-- Writing back the value held still enables the footprint (section 5). -/
theorem test_write_back_enables_its_byte :
    (match exec (.wrfHoW8 false 0 8 0xA5) (on bytesA) with
      | .next t => some (t.rsp.byteWe, t.rsp.byteRe)
      | _ => none) = some (0b1, 0b1) := by decide

/-- A word placed before the next step is what the step runs, as the first request after reset. -/
theorem test_reset_runs_a_placed_word :
    (match step (State.reset.withFetchWord 8 0x00) with
      | .next t => some (t.rsp.valid, t.index, t.observed)
      | _ => none) = some (true, 1, [.ok 0]) := by decide

/-! ### States for the witnesses -/

/-- The four-byte buffer of the tables' error rows. -/
def bytes4 : List Byte := [0x45, 0x00, 0x00, 0x54]

/-- Four bytes, six index bits, combinational. -/
def params4 : Params := { Config.resetParams with nBytes := 4, idxW := 6 }

/-- The same with a pipeline of two stages. -/
def params4Piped : Params := { params4 with latency := 2 }

/-- The same with the static closed range `[4, 19]`. -/
def params4Static : Params := { params4 with staticRange := true, sForm := .closed, sLo := 4, sHi := 19 }

def s4 : State := State.launch params4 [] (Memory.ofBytes bytes4) []

def s4Static : State := State.launch params4Static [] (Memory.ofBytes bytes4) []

def s4Piped : State := State.launch params4Piped [] (Memory.ofBytes bytes4) []

/-- A write of bytes 0 and 1 is in flight. -/
def writing : InFlight :=
  { host := 0, req := (Instr.wrfHoW8 false 4 12 0xAB).request, bufIn := Memory.ofBytes bytes4 }

/-- The pipelined instance with that write in its newest stage. -/
def s4Flying : State := { s4Piped with pipe := [some writing, none], index := 1 }

theorem idle_response_good (n : Nat) (m : Memory) (h : m.good n = true) : Response.Good n (Response.idle m) where
  bufOut := h
  reWidth := Nat.two_pow_pos n
  weWidth := Nat.two_pow_pos n
  weSubset := .inl rfl
  errorSilent := fun h => absurd rfl h
  faultIsError := nofun
  idleSilent := fun _ => ⟨rfl, rfl, rfl, rfl, rfl⟩

/-- Launched instances meet the invariant where their parameters and the buffer are good. -/
theorem block_good (n : Nat) (b : Block) (m : Memory) (hm : m.good n = true) (hr : b.rsp = Response.idle m)
    (h : (legal b.params && decide (b.params.nBytes = n) && decide (b.pipe.length = b.params.latency) &&
      b.inFlight.all fun f => f.req.fits b.params.idxW && f.bufIn.good n) = true) : b.Good n := by
  simp only [Bool.and_eq_true, List.all_eq_true, decide_eq_true_eq] at h
  exact ⟨h.1.1.1, h.1.1.2, h.1.2, fun f hf => (h.2 f hf).1, fun f hf => (h.2 f hf).2,
    by rw [hr]; exact idle_response_good n m hm⟩

theorem s4_inv : s4.Inv where
  buf := by decide
  blocks b hb := by
    rw [show s4.blocks = [s4.block] from rfl, List.mem_singleton] at hb
    subst hb
    exact block_good _ _ s4.buf (by decide) rfl (by decide)
  faultMarked := by decide

theorem s4Piped_inv : s4Piped.Inv where
  buf := by decide
  blocks b hb := by
    rw [show s4Piped.blocks = [s4Piped.block] from rfl, List.mem_singleton] at hb
    subst hb
    exact block_good _ _ s4.buf (by decide) rfl (by decide)
  faultMarked := by decide

theorem s4Flying_inv : s4Flying.Inv where
  buf := by decide
  blocks b hb := by
    rw [show s4Flying.blocks = [s4Flying.block] from rfl, List.mem_singleton] at hb
    subst hb
    exact block_good _ _ s4.buf (by decide) rfl (by decide)
  faultMarked := by decide

/-- A static instance with seven index bits and a pipeline of two stages. -/
def paramsOther : Params := { params4Static with idxW := 7, latency := 2 }

/-- The combinational instance and that one, on one buffer. -/
def s4Pair : State := State.launch params4 [paramsOther] (Memory.ofBytes bytes4) []

theorem s4Pair_inv : s4Pair.Inv where
  buf := by decide
  blocks b hb := by
    rw [show s4Pair.blocks = [s4Pair.block, Block.fresh (Memory.ofBytes bytes4) paramsOther] from rfl, List.mem_cons,
      List.mem_singleton] at hb
    rcases hb with rfl | rfl
    · exact block_good _ _ s4.buf (by decide) rfl (by decide)
    · exact block_good _ _ s4.buf (by decide) rfl (by decide)
  faultMarked := by decide

theorem s4_wf : s4.buf.wf = true := by decide

/-! ### Witnesses: encoding -/

theorem test_witness_DecodeOfEncodeIsTheInstruction :
    (Instr.rdfHoW8 false 0 0).wf 6 = true ∧
    (Instr.wrfClW128 true 63 63 0xFFFFFFFFFFFFFFFFFFFFFFFFFFFFFFFF).wf 6 = true := by decide

/-- A write word of all ones above its control byte, and a read word with ignored `wval` bits. -/
theorem test_witness_EncodeOfDecodeIsTheWord :
    decode 6 0xFFFFFFFFFFFFFFFFFFFFFFFFFFFFFFFFFFF27 =
      .ok (.wrfClW128 true 63 63 0xFFFFFFFFFFFFFFFFFFFFFFFFFFFFFFFF) ∧
    decode 6 0xFFFFFFFFFFFFFFFFFFFFFFFFFFFFFFFFFFF04 = .ok (.rdfHoW8 true 63 63) := ⟨rfl, rfl⟩

theorem test_witness_OpcodeMapNamesFortyControlBytes :
    63 < 2 ^ 6 ∧ ({ ctl := 0x27, lo := 63, hi := 63, wval := 0 } : Request).fits 6 = true ∧
    ({ ctl := 0x28, lo := 63, hi := 63, wval := 0 } : Request).fits 6 = true := by decide

theorem test_witness_ReservedControlBytesRaiseIllegalControl :
    ∀ c ∈ [0x27#8, 0x28#8, 0xFF#8],
      ({ ctl := c, lo := 0, hi := 8, wval := 0 } : Request).fits s4.params.idxW = true ∧
      (0x28 ≤ c.toNat ∨ c = 0x27) := by decide

/-! ### Witnesses: the resolver -/

/-- One line per clause, at the clause's boundary, with `W = 8` and `N = 4`. -/
theorem test_witness_ResolverMakesItsChecksInOrder :
    (5 > 4) ∧
    (24 ≤ 33 ∧ 24 + (33 - 24) > 8 * 4) ∧
    (24 ≤ 32 ∧ 24 + (32 - 24 + 1) > 8 * 4) ∧
    (23 ≤ 32 ∧ 23 + (32 - 23) ≤ 8 * 4 ∧ 32 - 23 > 8) ∧
    (23 ≤ 31 ∧ 23 + (31 - 23 + 1) ≤ 8 * 4 ∧ 31 - 23 + 1 > 8) ∧
    (24 ≤ 32 ∧ 24 + (32 - 24) ≤ 8 * 4 ∧ 32 - 24 ≤ 8) ∧
    (24 ≤ 31 ∧ 24 + (31 - 24 + 1) ≤ 8 * 4 ∧ 31 - 24 + 1 ≤ 8) := by decide

theorem test_witness_ResolvedRangeLiesInTheBuffer :
    resolveFor params4 .halfOpen .w8 32 32 = .ok (32, 0) ∧ resolveFor params4 .closed .w8 24 31 = .ok (24, 8) ∧
    resolveFor params4Static .halfOpen .w16 0 0 = .ok (4, 16) := ⟨rfl, rfl, rfl⟩

theorem test_witness_ZeroLengthRangesAreLegalNoOps :
    resolve .halfOpen 32 32 8 4 = .ok (32, 0) ∧ 32 ≤ 8 * 4 ∧
    resolveFor s4.params .halfOpen .w8 (Instr.rdfHoW8 false 32 32).lo (Instr.rdfHoW8 false 32 32).hi = .ok (32, 0) ∧
    resolveFor s4.params .halfOpen .w8 (Instr.wrfHoW8 false 5 5 0xFF).lo (Instr.wrfHoW8 false 5 5 0xFF).hi = .ok (5, 0) :=
  ⟨rfl, by decide, rfl, rfl⟩

theorem test_witness_ClosedRangesAreNeverEmpty :
    resolve .closed 31 31 8 4 = .ok (31, 1) ∧ 1 ≤ 1 ∧ 32 ≤ 8 * 4 := ⟨rfl, by decide, by decide⟩

/-- A legal static range, an inverted one, and one that ends past the buffer. -/
theorem test_witness_StaticInstanceActsAsDynamic :
    (s4Static.params.staticRange = true ∧ legal s4Static.params = true) ∧
    resolve .halfOpen 5 3 8 4 = .error .outOfBounds ∧ resolve .closed 0 32 8 4 = .error .outOfBounds :=
  ⟨by decide, rfl, rfl⟩

theorem test_witness_StaticInstanceActsAsDynamic_reserved :
    s4Static.params.staticRange = true ∧
    ({ ctl := 0x28, lo := 63, hi := 0, wval := 0 } : Request).fits s4Static.params.idxW = true ∧ 0x28 ≤ (0x28#8).toNat := by
  decide

/-! ### Witnesses: the instructions. The bounds of each clause at their boundary, for `W = 8` and `N = 4` -/

theorem test_witness_RdfHoReadsField :
    s4.params.staticRange = false ∧
    (24 ≤ 32 ∧ 32 ≤ 8 * s4.params.nBytes ∧ 32 - 24 ≤ 8) ∧ (32 ≤ 32 ∧ 32 ≤ 8 * s4.params.nBytes ∧ 32 - 32 ≤ 8) ∧
    (33 > 32) ∧ (33 > 8 * s4.params.nBytes) ∧ (23 ≤ 32 ∧ 32 ≤ 8 * s4.params.nBytes ∧ 32 - 23 > 8) := by decide

theorem test_witness_RdfClReadsField :
    s4.params.staticRange = false ∧
    (24 ≤ 31 ∧ 31 < 8 * s4.params.nBytes ∧ 31 - 24 + 1 ≤ 8) ∧ (31 ≤ 31 ∧ 31 < 8 * s4.params.nBytes ∧ 31 - 31 + 1 ≤ 8) ∧
    (5 > 4) ∧ (32 ≥ 8 * s4.params.nBytes) ∧ (23 ≤ 31 ∧ 31 < 8 * s4.params.nBytes ∧ 31 - 23 + 1 > 8) := by decide

theorem test_witness_WrfHoWritesField :
    s4.params.staticRange = false ∧ s4.buf.wf = true ∧
    (24 ≤ 32 ∧ 32 ≤ 8 * s4.params.nBytes ∧ 32 - 24 ≤ 8) ∧ (32 ≤ 32 ∧ 32 ≤ 8 * s4.params.nBytes ∧ 32 - 32 ≤ 8) ∧
    (33 > 32) ∧ (33 > 8 * s4.params.nBytes) ∧ (23 ≤ 32 ∧ 32 ≤ 8 * s4.params.nBytes ∧ 32 - 23 > 8) := by decide

theorem test_witness_WrfClWritesField :
    s4.params.staticRange = false ∧ s4.buf.wf = true ∧
    (24 ≤ 31 ∧ 31 < 8 * s4.params.nBytes ∧ 31 - 24 + 1 ≤ 8) ∧ (31 ≤ 31 ∧ 31 < 8 * s4.params.nBytes ∧ 31 - 31 + 1 ≤ 8) ∧
    (5 > 4) ∧ (32 ≥ 8 * s4.params.nBytes) ∧ (23 ≤ 31 ∧ 31 < 8 * s4.params.nBytes ∧ 31 - 23 + 1 > 8) := by decide

theorem test_witness_BitPositionsCountFromTheMostSignificantBit :
    s4.buf.wf = true ∧ 0 ≠ 31 / 8 := by decide

/-- A read that resolves, with a bit below and a bit at its length, and an empty one. -/
theorem test_witness_ReadValueIsTheFieldMostSignificantBitFirst :
    (Instr.rdfClW8 false 24 31).op = .read ∧ resolveFor s4.params .closed .w8 24 31 = .ok (24, 8) ∧ 7 < 8 ∧ 8 ≤ 8 ∧
    resolveFor s4.params .halfOpen .w8 32 32 = .ok (32, 0) := ⟨rfl, rfl, by decide, by decide, rfl⟩

theorem test_witness_WriteSetsTheFieldAndNoOtherBit :
    s4.buf.wf = true ∧ (Instr.wrfClW8 false 16 23 0xFF).op = .write ∧
    resolveFor s4.params .closed .w8 16 23 = .ok (16, 8) ∧ 7 < 8 ∧ (15 < 16) ∧ (16 + 8 ≤ 24) :=
  ⟨s4_wf, rfl, rfl, by decide, by decide, by decide⟩

theorem test_witness_ReadDatapathEqualsReadField : (0 : Nat) < 1 ∧ (0 : Nat) < 128 ∧ (128 : Nat) ≤ 128 := by decide

/-- Three bytes of footprint, so that a byte in the middle exists. -/
theorem test_witness_WriteDatapathEqualsWriteField :
    s4.buf.wf = true ∧ 0 < 16 ∧ 2 ≤ lastByte 4 16 - firstByte 4 ∧ 0 < 1 ∧ 1 < lastByte 4 16 - firstByte 4 := by decide

/-- Each law's hypotheses: two widths; the two forms; buffers that differ outside the footprint; an inner point. -/
theorem test_witness_ReadLawsHold :
    (∃ t u, exec (.rdfHoW8 false 4 8) s4 = .next t ∧ exec (.rdfHoW64 true 4 8) s4 = .next u ∧ t.rsp.err = 0 ∧
      u.rsp.err = 0) ∧
    (s4.params.staticRange = false ∧ (Instr.rdfHoW16 false 4 20).hi = (Instr.rdfClW16 false 4 19).hi + 1 ∧
      (Instr.rdfHoW16 false 4 20).lo < (Instr.rdfHoW16 false 4 20).hi) ∧
    (∀ a, (footprint 0 8).testBit a = true → Memory.read [(0, 5)] a = Memory.read [(0, 5), (1, 7)] a) ∧
    (4 < 5 ∧ 5 < 6) := by
  refine ⟨⟨_, _, rfl, rfl, rfl, rfl⟩, by decide, fun a h => ?_, by decide⟩
  rw [testBit_footprint] at h
  have h0 : a = 0 := by simp at h; omega
  subst h0
  rfl

theorem test_witness_WriteLawsHold : s4.buf.wf = true ∧ 7 < 8 ∧ 8 + 8 ≤ 16 := by decide

theorem test_witness_ReadAfterWriteGivesTheValue :
    s4.buf.wf = true ∧ (Instr.wrfHoW8 false 4 12 0xAB).op = .write ∧ (Instr.rdfHoW8 true 4 12).op = .read ∧
    resolveFor s4.params .halfOpen .w8 4 12 = .ok (4, 8) := ⟨s4_wf, rfl, rfl, rfl⟩

/-- The row `WRF.HO.W8 4, 8, 0xF3` of section 5. -/
theorem test_witness_ExcessValueBitsAreIgnored :
    resolveFor s4.params .halfOpen .w8 4 8 = .ok (4, 4) ∧ (0xF3 : Value).toNat % 2 ^ 4 = (0x03 : Value).toNat % 2 ^ 4 :=
  ⟨rfl, by decide⟩

theorem test_witness_AlignedFieldsAreBigEndian : (0 : Nat) < 1 := by decide

theorem test_witness_FootprintIsTheOverlappedBytes : (0 : Nat) < 1 ∧ (0 : Nat) < 128 ∧ 128 ≤ 128 := by decide

/-- A read and a write that resolve, with a byte on each side of the footprint `{1, 2}`. -/
theorem test_witness_InstructionsChangeOnlyTheirFootprint :
    s4.buf.wf = true ∧ resolveFor s4.params .halfOpen .w16 12 20 = .ok (12, 8) ∧
    (Instr.wrfHoW16 false 12 20 0).op = .write ∧ (Instr.rdfHoW16 false 12 20).op = .read ∧
    ¬(0 < 8 ∧ 12 / 8 ≤ 0 ∧ 0 ≤ (12 + 8 - 1) / 8) ∧ ¬(0 < 8 ∧ 12 / 8 ≤ 3 ∧ 3 ≤ (12 + 8 - 1) / 8) :=
  ⟨s4_wf, rfl, rfl, rfl, by decide, by decide⟩

/-! ### Witnesses: errors -/

theorem test_witness_RangeErrorsAreReported :
    resolveFor s4.params .halfOpen .w8 33 33 = .error .outOfBounds ∧
    resolveFor s4.params .closed .w8 0 8 = .error .fieldTooWide ∧
    resolveFor s4Static.params .halfOpen .w8 0 0 = .error .fieldTooWide := ⟨rfl, rfl, rfl⟩

/-- One request per clause: reserved, inverted, past the end, too wide, in range. -/
theorem test_witness_FirstApplicableErrorIsReported :
    s4.params.staticRange = false ∧ ({ ctl := 0x84, lo := 5, hi := 3, wval := 0 } : Request).fits 6 = true ∧
    (5 > 4) ∧ (24 ≤ 33 ∧ 24 + rangeLength .halfOpen 24 33 > 8 * s4.params.nBytes) ∧
    (23 ≤ 32 ∧ 23 + rangeLength .halfOpen 23 32 ≤ 8 * s4.params.nBytes ∧ rangeLength .halfOpen 23 32 > 8) ∧
    (24 ≤ 32 ∧ 24 + rangeLength .halfOpen 24 32 ≤ 8 * s4.params.nBytes ∧ rangeLength .halfOpen 24 32 ≤ 8) ∧
    (decodeRequest 6 { ctl := 0x00, lo := 24, hi := 33, wval := 0 }).isOk = true := by decide

theorem test_witness_ReservedControlByteEndsTheRun :
    ∃ rest, ({ s4 with pending := [.issue { ctl := 0x28, lo := 0, hi := 8, wval := 0 }] } : State).pending =
        .issue { ctl := 0x28, lo := 0, hi := 8, wval := 0 } :: rest ∧
      s4.lawful = true ∧ s4.live = true ∧ s4.quiet = true ∧
      ({ ctl := 0x28, lo := 0, hi := 8, wval := 0 } : Request).fits s4.params.idxW = true ∧ 0x28 ≤ (0x28#8).toNat :=
  ⟨[], rfl, by decide⟩

theorem test_witness_CheckedErrorLeavesNothingBehind :
    (Instr.rdfHoW8 true 5 3).chk = true ∧ resolveFor s4.params .halfOpen .w8 5 3 = .error .outOfBounds := ⟨rfl, rfl⟩

theorem test_witness_OnlyUncheckedRangeErrorsFault : s4.faulted = none := by decide

theorem test_witness_MarkedRunsPerformNothing :
    s4.lawful = true ∧ ({ s4 with faulted := some .race } : State).faulted = some .race ∧
    ({ s4 with refused := some .hazard } : State).faulted = none ∧
    ({ s4 with refused := some .hazard } : State).refused = some .hazard := by decide

/-! ### Witnesses: requests and runs -/

/-- The first clause: a state of two instances whose host issues a request, with a second one after it. -/
theorem test_witness_StepRunsTheDecodedRequest_issue :
    let r : Request := { ctl := 0x27, lo := 63, hi := 63, wval := 1 }
    let s : State := { s4Pair with pending := [.issue r, .issue writing.req] }
    s.lawful = true ∧ s.live = true ∧ s.quiet = true ∧ s.pending = .issue r :: [.issue writing.req] ∧
    decodeRequest s.params.idxW r = .ok (.wrfClW128 true 63 63 1) :=
  ⟨by decide, by decide, by decide, rfl, rfl⟩

/-- The second clause: a word placed on a state. -/
theorem test_witness_StepRunsTheDecodedRequest_word :
    s4.lawful = true ∧ s4.live = true ∧ s4.quiet = true ∧
    decode s4.params.idxW (0x08 % 2 ^ 8) = .ok (.rdfHoW16 false 0 0) :=
  ⟨by decide, by decide, by decide, rfl⟩

/-- The same buffer in a combinational and in a pipelined instance with a write in flight. -/
theorem test_witness_ResponseDependsOnRequestAndBufferOnly :
    s4Flying.params = { s4.params with latency := 2 } ∧ s4Flying.buf = s4.buf ∧
    (∃ t, State.perform (Instr.wrfHoW8 false 4 12 0xAB).request s4 = .next t) ∧
    ∃ t, State.perform (Instr.wrfHoW8 false 4 12 0xAB).request s4Flying = .next t :=
  ⟨rfl, rfl, ⟨_, rfl⟩, ⟨_, rfl⟩⟩

/-- A list that runs to its end, and one whose first request ends the run. -/
theorem test_witness_RunPerformsRequestsInOrder :
    s4.lawful = true ∧ s4.live = true ∧ s4.quiet = true ∧
    (∃ t, s4.serveAll [(Instr.wrfHoW8 false 4 12 0xAB).request, (Instr.rdfHoW8 false 4 12).request] = .next t ∧
      t.live = true) ∧
    ∃ t, s4.serveAll [(Instr.rdfHoW8 false 5 3).request, (Instr.rdfHoW8 false 4 12).request] = .next t ∧
      t.live = false :=
  ⟨by decide, by decide, by decide, ⟨_, rfl, rfl⟩, ⟨_, rfl, rfl⟩⟩

theorem test_witness_StepsKeepTheParameters : ∃ t, step s4Flying = .next t := ⟨_, rfl⟩

theorem test_witness_StepsKeepTheInvariant : s4Flying.Inv ∧ ∃ t, step s4Flying = .next t := ⟨s4Flying_inv, ⟨_, rfl⟩⟩

theorem test_witness_ResetMeetsTheInvariant :
    legal params4 = true ∧ (legal paramsOther = true ∧ paramsOther.nBytes = params4.nBytes) ∧
    (Memory.ofBytes bytes4).good params4.nBytes = true := by decide

theorem test_witness_RestartKeepsTheBuffer : s4Flying.Inv := s4Flying_inv

/-! ### Witnesses: ports, pipeline and reset -/

theorem test_witness_BusCarriesByteIOnLaneI : (3 : Nat) < 4 := by decide

/-- The write in flight completes on a buffer that has changed since it was sampled. -/
theorem test_witness_CommitChangesExactlyTheEnabledBytes :
    (s4Flying.buf.write 3 9).wf = true ∧ writing.req.fits s4Flying.params.idxW = true := by decide

theorem test_witness_IdleCyclesDriveIdleValues :
    s4Piped.Inv ∧ s4Piped.live = true ∧ s4Piped.quiet = true ∧ s4Piped.pending = [] ∧ s4.params.latency = 0 ∧
    (Pins.present { ctl := 0x28, lo := 0, hi := 63, wval := 0 }).req.fits s4.params.idxW = true :=
  ⟨s4Piped_inv, by decide, by decide, rfl, rfl, by decide⟩

/-- The same instance with another buffer and another history. -/
theorem test_witness_ResetPinHasNoEffectWithoutPipeline :
    s4.params.latency = 0 ∧ ({ s4 with buf := [], index := 7 } : State).params = s4.params ∧
    (∃ t, s4.blockCycle (Pins.present writing.req) s4.buf = .next t) ∧
    ∃ t, ({ s4 with buf := [], index := 7 } : State).blockCycle { Pins.present writing.req with rst := true } s4.buf =
      .next t := ⟨rfl, rfl, ⟨_, rfl⟩, ⟨_, rfl⟩⟩

/-- A write is in flight, another request is presented, and `rst` is 1. -/
theorem test_witness_ResetCycleDiscardsRequestsInFlight :
    s4Flying.Inv ∧ s4Flying.live = true ∧ (∀ b ∈ s4Flying.peers, b.quiet = true) ∧ s4Flying.params.latency ≠ 0 ∧
    ({ Pins.present (Instr.rdfHoW8 false 0 8).request with rst := true } : Pins).rst = true ∧
    (Instr.rdfHoW8 false 0 8).request.fits s4Flying.params.idxW = true :=
  ⟨s4Flying_inv, by decide, by decide, by decide, rfl, by decide⟩

/-- After that reset cycle a request is issued, and two cycles pass before its response. -/
theorem test_witness_ResetCycleDiscardsRequestsInFlight_later :
    (∀ p ∈ [Pins.present writing.req, Pins.idle].take (2 - s4Flying.params.latency), p.reqValid = false) ∧
    ∃ u, Sys2Proof.core.run 2
      { s4Flying.resetCycle s4Flying.buf with
        pending := [Pins.present writing.req, Pins.idle].map fun p => .clock [p] } = .next u :=
  ⟨by decide, ⟨_, rfl⟩⟩

theorem test_witness_PipelinedRequestEqualsUntimedStep :
    s4Piped.Inv ∧ s4Piped.live = true ∧ s4Piped.quiet = true ∧ writing.req.fits s4Piped.params.idxW = true :=
  ⟨s4Piped_inv, by decide, by decide, by decide⟩

/-- A write of bytes 0 and 1, and a read of byte 2 in the next cycle. -/
theorem test_witness_HazardFreePipelineIsSequential :
    s4Piped.Inv ∧ s4Piped.live = true ∧ s4Piped.quiet = true ∧ s4Piped.params.latency ≠ 0 ∧
    (∀ (i j : Nat) (a b : Request), i < j → j ≤ i + s4Piped.params.latency →
      [writing.req, (Instr.rdfHoW8 false 16 24).request][i]? = some a →
      [writing.req, (Instr.rdfHoW8 false 16 24).request][j]? = some b →
      Posed.writes ⟨s4Piped.params, a⟩ = true → sharesByte ⟨s4Piped.params, a⟩ ⟨s4Piped.params, b⟩ = false) ∧
    ∃ t, s4Piped.serveAll [writing.req, (Instr.rdfHoW8 false 16 24).request] = .next t ∧ t.live = true := by
  refine ⟨s4Piped_inv, by decide, by decide, by decide, ?_, ⟨_, rfl, rfl⟩⟩
  intro i j a b hij _ ha hb _
  match i, j, hij, ha, hb with
  | 0, 1, _, ha, hb =>
    cases ha
    cases hb
    decide
  | k + 1, 1, h, _, _ => omega
  | _, n + 2, _, _, hb => simp at hb

/-- The requests of the next witnesses: the write in flight, and a read of byte 1 by a host. -/
def issuedWrite : Issued := { block := 0, host := 0, posed := ⟨params4Piped, writing.req⟩ }

def readOfByte1 (block host : Nat) (p : Params) : Issued :=
  { block := block, host := host, posed := ⟨p, (Instr.rdfHoW8 true 15 16).request⟩ }

/-- A read of byte 1 by the writing host while its write of bytes 0 and 1 is in flight. -/
theorem test_witness_HazardousIssueRefusesTheRun :
    s4Flying.lawful = true ∧ s4Flying.live = true ∧
    (s4Flying.driven [Pins.present (Instr.rdfHoW8 true 15 16).request]).any Driven.overflows = false ∧
    readOfByte1 0 0 params4Piped ∈ acceptedOf (s4Flying.driven [Pins.present (Instr.rdfHoW8 true 15 16).request]) ∧
    issuedWrite ∈ flightsOf (s4Flying.driven [Pins.present (Instr.rdfHoW8 true 15 16).request]) ∧
    issuedWrite.posed.writes = true ∧ issuedWrite.posed.footprint.testBit 1 = true ∧
    (readOfByte1 0 0 params4Piped).posed.footprint.testBit 1 = true := by decide

/-! ### Witnesses: sharing the buffer -/

/-- A group whose write and read on two instances meet in byte 1 only; and a group of two reads, which never race. The static
instance reads bytes 0 to 2. -/
theorem test_witness_OverlappingWritesRace :
    (s4Pair.posed [⟨0, writing.req⟩, ⟨1, (Instr.rdfHoW16 false 0 0).request⟩] =
        [] ++ ⟨params4, writing.req⟩ :: [] ++ ⟨paramsOther, (Instr.rdfHoW16 false 0 0).request⟩ :: [] ∧
      Posed.writes ⟨params4, writing.req⟩ = true ∧ (Posed.footprint ⟨params4, writing.req⟩).testBit 1 = true ∧
      (Posed.footprint ⟨paramsOther, (Instr.rdfHoW16 false 0 0).request⟩).testBit 1 = true) ∧
    ∀ xs ys zs a b,
      s4Pair.posed [⟨0, (Instr.rdfHoW8 false 0 8).request⟩, ⟨1, (Instr.rdfHoW16 false 0 0).request⟩] =
        xs ++ a :: ys ++ b :: zs →
      (a.writes = true ∨ b.writes = true) →
      ∀ i, ¬(a.footprint.testBit i = true ∧ b.footprint.testBit i = true) := by
  refine ⟨by decide, fun xs ys zs a b he hw => ?_⟩
  have reads : ∀ r ∈ s4Pair.posed [⟨0, (Instr.rdfHoW8 false 0 8).request⟩, ⟨1, (Instr.rdfHoW16 false 0 0).request⟩],
      r.writes = false := by decide
  have ha := reads a (by rw [he]; simp)
  have hb := reads b (by rw [he]; simp)
  rcases hw with h | h
  · rw [ha] at h; cases h
  · rw [hb] at h; cases h

/-- In a clock cycle: a second host reads byte 1 while the first one's write is in flight; and two instances accept a write
and a read of byte 1 in one cycle. -/
theorem test_witness_OverlappingWritesRace_cycle :
    ((s4Flying.driven [Pins.presentBy 1 (Instr.rdfHoW8 true 15 16).request]).any Driven.overflows = false ∧
      readOfByte1 0 1 params4Piped ∈
        acceptedOf (s4Flying.driven [Pins.presentBy 1 (Instr.rdfHoW8 true 15 16).request]) ∧
      issuedWrite ∈ flightsOf (s4Flying.driven [Pins.presentBy 1 (Instr.rdfHoW8 true 15 16).request]) ∧
      issuedWrite.posed.writes = true ∧ issuedWrite.posed.footprint.testBit 1 = true ∧
      (readOfByte1 0 1 params4Piped).posed.footprint.testBit 1 = true) ∧
    ((s4Pair.driven [Pins.present writing.req, Pins.present (Instr.rdfHoW16 false 0 0).request]).any Driven.overflows =
        false ∧
      ∀ x ∈ acceptedOf (s4Pair.driven [Pins.present writing.req, Pins.present (Instr.rdfHoW16 false 0 0).request]),
        x.posed.footprint.testBit 1 = true) := by decide

/-- A second host's write over a read in flight races (R42). -/
theorem test_second_host_write_over_a_read_races :
    (match State.clock [Pins.presentBy 1 writing.req]
        { s4Flying with pipe := [some { writing with req := (Instr.rdfHoW8 true 15 16).request }, none] } with
      | .next t => some t.faulted
      | _ => none) = some (some .race) := by decide

/-- Two instances with different parameters answer in one cycle: the static one, one cycle after its issue, reads its own range
`[4, 19]` of the bytes it sampled, while the other writes byte 3. -/
theorem test_two_instances_run_together :
    (match Sys2Proof.core.run 3 { s4Pair with pending :=
        [.clock [Pins.idle, Pins.present (Instr.rdfHoW16 false 99 99).request], .clock [],
          .clock [Pins.present (Instr.wrfHoW8 false 24 32 0x11).request]] } with
      | .next t => some (t.rsp.byteWe, t.peers.map (·.rsp.rdValue), t.buf.read 3, t.index)
      | _ => none) = some (0b1000, [0x5000], 0x11, 2) := by decide

/-- In a group, a fatal error of one requester leaves the other's write to take effect (assumption 27). -/
theorem test_fatal_error_stops_no_other_requester :
    (match s4Pair.overlap [⟨1, (Instr.rdfHoW8 false 0 0).request⟩, ⟨0, (Instr.wrfHoW8 false 24 32 0x11).request⟩] with
      | .next t => some (t.faulted, t.buf.read 3, t.index)
      | _ => none) = some (some (.unchecked .fieldTooWide), 0x11, 2) := by decide

/-- Writes to the adjacent bytes 0 and 1. -/
theorem test_witness_NonClashingRequestsCommute :
    s4.Inv ∧ s4.live = true ∧
    clash ⟨s4.params, (Instr.wrfHoW8 false 0 8 1).request⟩ ⟨s4.params, (Instr.wrfHoW8 false 8 16 2).request⟩ = false ∧
    ∃ t u, State.perform (Instr.wrfHoW8 false 0 8 1).request s4 = .next t ∧ t.live = true ∧
      State.perform (Instr.wrfHoW8 false 8 16 2).request t = .next u ∧ u.live = true :=
  ⟨s4_inv, by decide, by decide, ⟨_, _, rfl, rfl, rfl, rfl⟩⟩

/-- The last byte of the write in flight, and the last byte of a quiet instance. -/
theorem test_witness_AccessDuringAWriteRaces :
    (1 < s4Flying.params.nBytes ∧ s4Flying.buf.wf = true ∧ issuedWrite ∈ s4Flying.flights ∧
      issuedWrite.posed.writes = true ∧ issuedWrite.posed.footprint.testBit 1 = true) ∧
    (3 < s4.params.nBytes ∧ s4.buf.wf = true ∧ s4.flights = []) := by decide

/-- After another agent writes byte 3, every instance's idle `rsp_buf_out` shows it, also right after a response (R19, R93). -/
theorem test_access_drives_the_current_buffer :
    (match Sys2Proof.core.run 2 { s4Pair with pending :=
        [.issue (Instr.rdfHoW8 false 0 8).request, .access 3 (some 0x11)] } with
      | .next t => some (t.blocks.map fun b => (b.rsp.valid, b.rsp.bufOut.read 3))
      | _ => none) = some [(false, 0x11), (false, 0x11)] := by decide

/-! ### Witnesses: several instances -/

theorem test_witness_OtherInstanceRunsByItsOwnParameters :
    s4Pair.Inv ∧ s4Pair.peers[0]? = some (Block.fresh (Memory.ofBytes bytes4) paramsOther) ∧
    decodeRequest paramsOther.idxW { ctl := 0x0B, lo := 127, hi := 127, wval := 1 } = .ok (.wrfClW16 false 127 127 1) :=
  ⟨s4Pair_inv, rfl, rfl⟩

theorem test_witness_RaceFreeGroupEqualsSerialRun :
    s4.Inv ∧ s4.live = true ∧
    race ([writing.req, (Instr.rdfHoW8 false 16 24).request].map fun r => { params := s4.params, req := r }) = false ∧
    ∃ t, s4.serveAll [writing.req, (Instr.rdfHoW8 false 16 24).request] = .next t ∧ t.live = true :=
  ⟨s4_inv, by decide, by decide, ⟨_, rfl, rfl⟩⟩

theorem test_witness_StepsKeepAccessExclusive :
    s4Flying.Inv ∧ s4Flying.Exclusive ∧ ∃ t, step s4Flying = .next t := by
  refine ⟨s4Flying_inv, ?_, ⟨_, rfl⟩⟩
  unfold State.Exclusive
  decide

/-! ### Witnesses: assembler -/

theorem test_witness_PseudoInstructionsExpandToHalfOpen :
    60 + 3 < 2 ^ 6 ∧ 255 < 2 ^ Width.w8.bits ∧ 2 ^ 6 ≤ 60 + 4 := by decide

theorem test_witness_AssembledInstructionsAreWellFormed :
    assembleLine 6 "WRFL.W8.C 60, 3, 0xFF" = .ok (some (.wrfHoW8 true 60 63 0xFF)) := by decide

end Sys2Proof.Tests
end

/-! The statements of 00_scope.md: what no step changes (R6, R16), the invariant at the start of a run (R95, R97), and a
request on a block beside the state's own (R42, R92). A block is the model's word for one BFX unit with its own parameters. -/

namespace Sys2Proof.Machine

/-! ### Elaboration parameters: each operation keeps those of every block -/

/-- The blocks of `t` have, one by one, the parameters of those of `s` (R6, R16). -/
def State.SameParams (s t : State) : Prop := t.blocks.map (·.params) = s.blocks.map (·.params)

theorem State.sameParams_iff {s t : State} :
    s.SameParams t ↔ t.params = s.params ∧ t.peers.map (·.params) = s.peers.map (·.params) :=
  List.cons_eq_cons

theorem State.SameParams.refl (s : State) : s.SameParams s := rfl

theorem State.SameParams.trans {s t u : State} (h : s.SameParams t) (h' : t.SameParams u) : s.SameParams u :=
  Eq.trans h' h

theorem State.SameParams.of_peers_eq {s t : State} (hp : t.params = s.params) (hs : t.peers = s.peers) :
    s.SameParams t := State.sameParams_iff.mpr ⟨hp, congrArg _ hs⟩

theorem State.sameParams_idle (s : State) : s.SameParams s.idle :=
  State.sameParams_iff.mpr ⟨rfl, by simp [Function.comp_def]⟩

theorem State.sameParams_idlePeers (s : State) : s.SameParams s.idlePeers :=
  State.sameParams_iff.mpr ⟨rfl, by simp [Function.comp_def]⟩

/-- On another block, an operation that keeps the parameters of the block it is done on keeps those of all. -/
theorem onPeer_sameParams {k : Nat} {f : State → Outcome} {s t : State}
    (hf : ∀ u v, f u = .next v → v.params = u.params) (h : s.onPeer k f = .next t) : s.SameParams t := by
  obtain ⟨b, u, hb, hu, rfl⟩ := onPeer_cases h
  have hparams : u.params = b.params := hf _ _ hu
  have hk : (s.peers.map (·.params))[k]? = some b.params := by simp [hb]
  refine State.sameParams_iff.mpr ⟨rfl, ?_⟩
  rw [List.map_set, State.block_params, hparams]
  obtain ⟨hlt, hget⟩ := List.getElem?_eq_some_iff.mp hk
  rw [← hget, List.set_getElem_self]

theorem serve_sameParams {r : Request} {s t : State} (h : s.serve r = .next t) : s.SameParams t := by
  obtain ⟨hparams, -, -, -, hpeers⟩ := perform_frame h
  exact .of_peers_eq hparams hpeers

/-- On whichever block it is done, an operation that keeps the block's parameters and the others keeps all parameters. -/
theorem onBlock_sameParams {k : Nat} {f : State → Outcome} {s t : State}
    (hf : ∀ u v, f u = .next v → v.params = u.params ∧ v.peers = u.peers) (h : s.onBlock k f = .next t) :
    s.SameParams t := by
  cases k with
  | zero => exact .of_peers_eq (hf _ _ h).1 (hf _ _ h).2
  | succ j => exact onPeer_sameParams (k := j) (fun u v hv => (hf u v hv).1) h

theorem together_sameParams {m : Memory} {ms : List Member} {s t : State} (h : s.together m ms = .next t) :
    s.SameParams t := by
  induction ms generalizing s with
  | nil => cases h; exact .refl _
  | cons x ms ih =>
    obtain ⟨u, hu, ht⟩ := andThen_eq_next.mp h
    refine State.SameParams.trans (onBlock_sameParams (fun v w hw => ?_) hu) (ih ht)
    obtain ⟨hparams, -, -, -, hpeers⟩ := complete_frame hw
    exact ⟨hparams, hpeers⟩

theorem overlap_sameParams {ms : List Member} {s t : State} (h : s.overlap ms = .next t) : s.SameParams t := by
  obtain ⟨-, ⟨-, rfl⟩ | ⟨-, ht⟩⟩ := overlap_cases h
  · exact s.sameParams_idle
  · exact s.sameParams_idle.trans (together_sameParams ht)

theorem cyclePeers_sameParams {ps : List Pins} {m : Memory} {k : Nat} {s t : State}
    (h : State.cyclePeers ps m k s = .next t) : s.SameParams t := by
  induction k generalizing t with
  | zero => cases h; exact .refl _
  | succ k ih =>
    obtain ⟨u, hu, ht⟩ := cyclePeers_succ h
    exact (ih hu).trans (onPeer_sameParams (fun _ _ hc => (blockCycle_frame hc).1) ht)

theorem clock_sameParams {ps : List Pins} {s t : State} (h : s.clock ps = .next t) : s.SameParams t := by
  obtain ⟨-, ⟨-, rfl⟩ | ⟨-, -, u, hu, ht⟩⟩ := clock_cases h
  · exact s.sameParams_idle
  · obtain ⟨hparams, -, hpeers⟩ := blockCycle_frame hu
    exact (State.SameParams.of_peers_eq hparams hpeers).trans (cyclePeers_sameParams ht)

theorem access_sameParams {a : Nat} {new : Option Byte} {s t : State} (h : s.access a new = .next t) :
    s.SameParams t := by
  obtain ⟨-, ⟨-, rfl⟩ | ⟨-, b, -, rfl⟩ | ⟨-, -, rfl⟩⟩ := access_cases h
  · exact s.sameParams_idle
  · exact State.sameParams_idle { s with buf := s.buf.write a b }
  · exact s.sameParams_idle

/-- What an action of the host can answer: a request or a group that has to wait gives an idle cycle, and any other action is
done with the rest left pending (R101). -/
theorem act_cases {a : HostAction} {rest : List HostAction} {s t : State} (h : s.act a rest = .next t) :
    (s.quiet = false ∧ s.clock [] = .next t) ∨
      (∃ r, a = .issue r ∧ s.quiet = true ∧ State.serve r { s.idlePeers with pending := rest } = .next t) ∨
      (∃ ms, a = .overlap ms ∧ s.quiet = true ∧ State.overlap ms { s with pending := rest } = .next t) ∨
      (∃ ps, a = .clock ps ∧ State.clock ps { s with pending := rest } = .next t) ∨
      (∃ n new, a = .access n new ∧ State.access n new { s with pending := rest } = .next t) := by
  cases a with
  | issue r =>
    simp only [State.act] at h
    split at h
    · next hq => exact .inr (.inl ⟨r, rfl, hq, h⟩)
    · next hq => exact .inl ⟨by simpa using hq, h⟩
  | overlap ms =>
    simp only [State.act] at h
    split at h
    · next hq => exact .inr (.inr (.inl ⟨ms, rfl, hq, h⟩))
    · next hq => exact .inl ⟨by simpa using hq, h⟩
  | clock ps => exact .inr (.inr (.inr (.inl ⟨ps, rfl, h⟩)))
  | access n new => exact .inr (.inr (.inr (.inr ⟨n, new, rfl, h⟩)))

theorem State.sameParams_pending (s : State) (rest : List HostAction) : s.SameParams { s with pending := rest } := rfl

theorem act_sameParams {a : HostAction} {rest : List HostAction} {s t : State} (h : s.act a rest = .next t) :
    s.SameParams t := by
  rcases act_cases h with ⟨-, hwait⟩ | ⟨r, -, -, hissue⟩ | ⟨ms, -, -, hgroup⟩ | ⟨ps, -, hcycle⟩ | ⟨n, new, -, haccess⟩
  · exact clock_sameParams hwait
  · exact s.sameParams_idlePeers.trans ((s.idlePeers.sameParams_pending rest).trans (serve_sameParams hissue))
  · exact (s.sameParams_pending rest).trans (overlap_sameParams hgroup)
  · exact (s.sameParams_pending rest).trans (clock_sameParams hcycle)
  · exact (s.sameParams_pending rest).trans (access_sameParams haccess)

/-- Settles O37: a step is an idle cycle or the host's next action, and each of these keeps the parameters. -/
theorem stepsKeepTheParameters : Obligations.StepsKeepTheParameters := by
  intro s t h
  obtain ⟨-, -, ⟨-, hclock⟩ | ⟨a, rest, -, hact⟩⟩ := step_cases h
  · exact clock_sameParams hclock
  · exact act_sameParams hact

/-! ### The start of a run -/

/-- The idle outputs of R19 are good outputs. -/
theorem Response.good_idle {n : Nat} {m : Memory} (h : m.good n = true) : Response.Good n (Response.idle m) where
  bufOut := h
  reWidth := Nat.two_pow_pos n
  weWidth := Nat.two_pow_pos n
  weSubset := .inl rfl
  errorSilent := fun he => absurd rfl he
  faultIsError := nofun
  idleSilent := fun _ => ⟨rfl, rfl, rfl, rfl, rfl⟩

@[simp] theorem Block.fresh_inFlight (m : Memory) (p : Params) : (Block.fresh m p).inFlight = [] := by
  simp [Block.fresh, Block.inFlight]

/-- A block of legal parameters right after reset is good (R95). -/
theorem Block.good_fresh {n : Nat} {m : Memory} {p : Params} (hp : legal p = true) (hn : p.nBytes = n)
    (hm : m.good n = true) : (Block.fresh m p).Good n where
  params := hp
  size := hn
  stages := List.length_replicate
  stagesFit := by simp
  stagesGood := by simp
  outputs := Response.good_idle hm

theorem State.launch_blocks (p : Params) (others : List Params) (m : Memory) (actions : List HostAction) :
    (State.launch p others m actions).blocks = (p :: others).map (Block.fresh m) := rfl

theorem State.inv_launch {p : Params} {others : List Params} {m : Memory} (actions : List HostAction)
    (hp : legal p = true) (hothers : ∀ q ∈ others, legal q = true ∧ q.nBytes = p.nBytes)
    (hm : m.good p.nBytes = true) : (State.launch p others m actions).Inv where
  buf := hm
  blocks := by
    rw [State.launch_blocks, List.forall_mem_map, List.forall_mem_cons]
    exact ⟨Block.good_fresh hp rfl hm, fun q hq => Block.good_fresh (hothers q hq).1 (hothers q hq).2 hm⟩
  faultMarked := by
    rw [State.launch_blocks, List.forall_mem_map]
    exact fun _ _ => nofun

/-- No request is in flight on a state none of whose blocks holds one. -/
theorem State.flights_eq_nil {s : State} (h : ∀ b ∈ s.blocks, b.inFlight = []) : s.flights = [] := by
  unfold State.flights flightsOf State.driven
  rw [List.flatMap_eq_nil_iff, List.forall_mem_map]
  intro x hx
  have hb : x.1.inFlight = [] := h x.1 (List.fst_mem_of_mem_zipIdx hx)
  simp [Driven.flights, hb]

theorem State.flights_launch (p : Params) (others : List Params) (m : Memory) (actions : List HostAction) :
    (State.launch p others m actions).flights = [] := by
  apply State.flights_eq_nil
  rw [State.launch_blocks, List.forall_mem_map]
  exact fun q _ => Block.fresh_inFlight m q

/-- With nothing in flight, nothing in flight clashes (R42). -/
theorem State.exclusive_of_flights_eq_nil {s : State} (h : s.flights = []) : s.Exclusive := by
  simp [State.Exclusive, h]

/-- Settles O39: the reset state is itself a launch. -/
theorem resetMeetsTheInvariant : Obligations.ResetMeetsTheInvariant := by
  have hreset : State.reset = State.launch Config.resetParams [] [] [] := rfl
  rw [Obligations.ResetMeetsTheInvariant, hreset]
  exact ⟨State.inv_launch [] (by decide) (by simp) (by decide),
    State.exclusive_of_flights_eq_nil (State.flights_launch ..),
    fun p others m actions hp hothers hm => ⟨State.inv_launch actions hp hothers hm,
      State.exclusive_of_flights_eq_nil (State.flights_launch ..)⟩⟩

/-! ### A request on a block beside the state's own -/

/-- The buffer after a request is the one its response commits (R20, R24). -/
theorem commit_of_perform {r : Request} {s t : State} (h : State.perform r s = .next t) :
    commit s.params.nBytes s.buf t.rsp = t.buf := by
  rcases perform_cases h with ⟨i, -, hi⟩ | ⟨-, rfl⟩
  · rcases exec_cases hi with ⟨st, l, -, rfl⟩ | ⟨e, -, rfl⟩
    · rfl
    · exact commit_of_no_enable _ _ rfl
  · exact commit_of_no_enable _ _ rfl

/-- Completing a request that sampled the buffer as it still stands is performing it (R99). -/
theorem complete_of_perform {host : Nat} {r : Request} {s t : State} (h : State.perform r s = .next t) :
    s.complete { host := host, req := r, bufIn := s.buf } = .next t := by
  have hcommit := commit_of_perform h
  simp only [State.complete, h, andThen_next, hcommit]

/-- The same for the host's next request, with which the position in the run advances (R14). -/
theorem complete_of_serve {host : Nat} {r : Request} {s t : State} (h : s.serve r = .next t) :
    State.complete { host := host, req := r, bufIn := s.buf } { s with index := s.index + 1 } = .next t :=
  complete_of_perform (s := { s with index := s.index + 1 }) h

/-- An instruction reads neither the outputs of the last step nor the other blocks, and leaves the latter alone (R12). -/
theorem exec_of_other_rsp_peers {i : Instr} {s u : State} (h : exec i s = .next u) (rsp : Response)
    (peers : List Block) : exec i { s with rsp := rsp, peers := peers } = .next { u with peers := peers } := by
  rcases exec_cases h with ⟨st, l, hr, rfl⟩ | ⟨e, hr, rfl⟩
  · exact exec_of_ok hr
  · exact exec_of_error hr

theorem onPeer_of_next {k : Nat} {f : State → Outcome} {s u : State} {b : Block} (hb : s.peers[k]? = some b)
    (hu : f (s.focus b) = .next u) :
    s.onPeer k f = .next { u.focus s.block with peers := s.peers.set k u.block } := by
  simp [State.onPeer, hb, hu]

theorem race_posed_singleton (m : Member) (s : State) : race (s.posed [m]) = false := by
  unfold State.posed
  cases h : s.blocks[m.block]? <;> simp [h, race]

/-- A group of one request, presented to another block, races with nothing: the request is served there, on the buffer as
the group finds it, and every other block is idle (R19, R42). -/
theorem overlap_singleton_peer {k : Nat} {r : Request} {s u : State} {b : Block} (hb : s.idle.peers[k]? = some b)
    (hu : (s.idle.focus b).serve r = .next u) :
    s.overlap [{ block := k + 1, req := r }] =
      .next { u.focus s.idle.block with peers := s.idle.peers.set k u.block } := by
  have hlt : k < s.peers.length := by simpa using (List.getElem?_eq_some_iff.mp hb).1
  have hexists : ¬ s.blocks.length ≤ k + 1 := Nat.not_le.mpr (Nat.succ_lt_succ hlt)
  have hdone := onPeer_of_next (k := k)
    (f := fun v => State.complete { host := 0, req := r, bufIn := s.buf } { v with index := v.index + 1 })
    hb (complete_of_serve hu)
  simp [State.overlap, State.together, State.onBlock, race_posed_singleton, hexists, hdone]

/-- Settles O58: the request is served on the other block as its instruction runs on the state written around that
block, and only that block's outputs are not idle. -/
theorem otherInstanceRunsByItsOwnParameters : Obligations.OtherInstanceRunsByItsOwnParameters := by
  intro s k b r i _ hb hdecode
  obtain ⟨u, hexec⟩ : ∃ u, exec i { s.focus b with index := s.index + 1 } = .next u := ⟨_, exec_eq i _⟩
  have hidle : s.idle.peers[k]? = some { b with rsp := Response.idle s.buf } := by simp [hb]
  have hserve : (s.idle.focus { b with rsp := Response.idle s.buf }).serve r = .next { u with peers := s.idle.peers } :=
    (perform_of_ok hdecode).trans (exec_of_other_rsp_peers hexec (Response.idle s.buf) s.idle.peers)
  obtain ⟨hparams, hpipe, -⟩ := perform_frame hserve
  have hblock : u.block = { b with rsp := u.rsp } := by
    rw [State.block, show u.params = b.params from hparams, show u.pipe = b.pipe from hpipe]
  have hpeer : (s.idle.peers.set k u.block)[k]? = some { b with rsp := u.rsp } := by
    rw [List.getElem?_set_self (List.getElem?_eq_some_iff.mp hidle).1, hblock]
  exact ⟨_, u, overlap_singleton_peer hidle hserve, hexec, rfl, rfl, rfl, rfl, rfl, hpeer, rfl, rfl, rfl⟩

end Sys2Proof.Machine

/-! The statements of 10_state.md, the invariant: every operation keeps the buffer, the blocks and the marks good (R17 to R20,
R26, R82). -/

namespace Sys2Proof.Machine

/-! ### Good buffers and good responses -/

theorem Memory.good_iff {n : Nat} {m : Memory} : m.good n = true ↔ m.wf = true ∧ m.within n = true :=
  Bool.and_eq_true_iff

theorem Memory.good_write {n : Nat} {m : Memory} (h : m.good n = true) {a : Nat} (ha : a < n) (b : Byte) :
    (m.write a b).good n = true := by
  obtain ⟨hwf, hwithin⟩ := Memory.good_iff.mp h
  exact Memory.good_iff.mpr ⟨Memory.wf_write hwf a b, Memory.within_write hwithin ha b⟩

theorem Memory.good_commit {n : Nat} {m : Memory} (h : m.good n = true) (r : Response) : (commit n m r).good n = true := by
  obtain ⟨hwf, hwithin⟩ := Memory.good_iff.mp h
  exact Memory.good_iff.mpr ⟨wf_commit hwf n r, within_commit hwithin r⟩

theorem Memory.good_writeField {n : Nat} {m : Memory} (h : m.good n = true) {s l : Nat} (hs : s + l ≤ 8 * n) (v : Nat) :
    (writeField m s l v).good n = true := by
  obtain ⟨hwf, hwithin⟩ := Memory.good_iff.mp h
  exact Memory.good_iff.mpr ⟨wf_writeField hwf s l v, within_writeField hwithin hs v⟩

theorem Response.good_ofRead {n : Nat} {m : Memory} (h : m.good n = true) {s l : Nat} (hs : s + l ≤ 8 * n) :
    Response.Good n (Response.ofRead m s l) where
  bufOut := h
  reWidth := footprint_lt hs
  weWidth := Nat.two_pow_pos n
  weSubset := .inl rfl
  errorSilent := fun he => absurd rfl he
  faultIsError := nofun
  idleSilent := nofun

theorem Response.good_ofWrite {n : Nat} {m : Memory} (h : m.good n = true) {s l : Nat} (hs : s + l ≤ 8 * n) (v : Nat) :
    Response.Good n (Response.ofWrite m s l v) where
  bufOut := Memory.good_writeField h hs v
  reWidth := footprint_lt hs
  weWidth := footprint_lt hs
  weSubset := .inr rfl
  errorSilent := fun he => absurd rfl he
  faultIsError := nofun
  idleSilent := nofun

theorem Response.good_ofError {n : Nat} {m : Memory} (h : m.good n = true) {code : BitVec 2} (hcode : code ≠ 0)
    (fault : Bool) : Response.Good n (Response.ofError m code fault) where
  bufOut := h
  reWidth := Nat.two_pow_pos n
  weWidth := Nat.two_pow_pos n
  weSubset := .inl rfl
  errorSilent := fun _ => ⟨rfl, rfl, rfl⟩
  faultIsError := fun _ => hcode
  idleSilent := nofun

theorem okResponse_good {n : Nat} {m : Memory} (h : m.good n = true) {s l : Nat} (hs : s + l ≤ 8 * n) (i : Instr) :
    Response.Good n (okResponse i m s l) := by
  cases hop : i.op with
  | read => rw [okResponse_read hop]; exact Response.good_ofRead h hs
  | write => rw [okResponse_write hop]; exact Response.good_ofWrite h hs _

@[simp] theorem okResponse_fault (i : Instr) (m : Memory) (s l : Nat) : (okResponse i m s l).fault = false := by
  cases hop : i.op with
  | read => rw [okResponse_read hop]; rfl
  | write => rw [okResponse_write hop]; rfl

@[simp] theorem okResponse_valid (i : Instr) (m : Memory) (s l : Nat) : (okResponse i m s l).valid = true := by
  cases hop : i.op with
  | read => rw [okResponse_read hop]; rfl
  | write => rw [okResponse_write hop]; rfl

theorem RangeError.code_ne_zero (e : RangeError) : e.code ≠ 0 := by cases e <;> decide

/-! ### What a request does to the marks and the outputs -/

@[simp] theorem State.takeOk_live (s : State) (r : Response) : (s.takeOk r).live = s.live := rfl

/-- Only an unchecked range error sets a mark (R81). -/
@[simp] theorem State.takeError_live (s : State) (e : RangeError) (chk : Bool) :
    (s.takeError e chk).live = (chk && s.live) := by
  cases chk <;> rfl

@[simp] theorem State.takeIllegal_live (s : State) : s.takeIllegal.live = false := Bool.and_false _

/-- A request takes no mark back (R23). -/
theorem perform_keeps_marks {r : Request} {s t : State} (h : State.perform r s = .next t) (hs : s.live = false) :
    t.live = false := by
  rcases perform_cases h with ⟨i, -, hi⟩ | ⟨-, rfl⟩
  · rcases exec_cases hi with ⟨st, l, -, rfl⟩ | ⟨e, -, rfl⟩ <;> simp [hs]
  · simp

/-- A request that drives `rsp_fault` sets a mark (R79, R81). -/
theorem perform_fault_marks {r : Request} {s t : State} (h : State.perform r s = .next t) (hf : t.rsp.fault = true) :
    t.live = false := by
  rcases perform_cases h with ⟨i, -, hi⟩ | ⟨-, rfl⟩
  · rcases exec_cases hi with ⟨st, l, -, rfl⟩ | ⟨e, -, rfl⟩
    · simp at hf
    · have hunchecked : i.chk = false := by simpa [rangeFault] using hf
      simp [hunchecked]
  · simp

/-- A request answers with `rsp_valid` set (R19). -/
theorem perform_valid {r : Request} {s t : State} (h : State.perform r s = .next t) : t.rsp.valid = true := by
  rcases perform_cases h with ⟨i, -, hi⟩ | ⟨-, rfl⟩
  · rcases exec_cases hi with ⟨st, l, -, rfl⟩ | ⟨e, -, rfl⟩ <;> simp
  · rfl

/-- On a good buffer a request answers with good outputs. -/
theorem perform_rsp_good {r : Request} {s t : State} (hs : s.buf.good s.params.nBytes = true)
    (h : State.perform r s = .next t) : Response.Good s.params.nBytes t.rsp := by
  rcases perform_cases h with ⟨i, -, hi⟩ | ⟨-, rfl⟩
  · rcases exec_cases hi with ⟨st, l, hr, rfl⟩ | ⟨e, -, rfl⟩
    · exact okResponse_good hs (resolveFor_bounds hr).1 i
    · exact Response.good_ofError hs e.code_ne_zero _
  · exact Response.good_ofError hs (by decide) _

/-! ### Good pipelines -/

/-- The stages of a block with parameters `p`: `LATENCY` of them, each request fitting the ports, each sample a good buffer
(R17). -/
def PipeGood (p : Params) (pipe : List (Option InFlight)) : Prop :=
  pipe.length = p.latency ∧ ∀ f, some f ∈ pipe → f.req.fits p.idxW = true ∧ f.bufIn.good p.nBytes = true

theorem Block.mem_inFlight {b : Block} {f : InFlight} : f ∈ b.inFlight ↔ some f ∈ b.pipe := by
  simp [Block.inFlight]

theorem Block.good_iff {n : Nat} {b : Block} :
    b.Good n ↔ legal b.params = true ∧ b.params.nBytes = n ∧ PipeGood b.params b.pipe ∧ Response.Good n b.rsp := by
  constructor
  · intro h
    refine ⟨h.params, h.size, ⟨h.stages, fun f hf => ?_⟩, h.outputs⟩
    have hmem := Block.mem_inFlight.mpr hf
    exact ⟨h.stagesFit f hmem, h.size.symm ▸ h.stagesGood f hmem⟩
  · rintro ⟨hlegal, rfl, ⟨hlength, hstages⟩, hrsp⟩
    exact ⟨hlegal, rfl, hlength, fun f hf => (hstages f (Block.mem_inFlight.mp hf)).1,
      fun f hf => (hstages f (Block.mem_inFlight.mp hf)).2, hrsp⟩

theorem pipeGood_replicate (p : Params) : PipeGood p (List.replicate p.latency none) :=
  ⟨List.length_replicate, fun f hf => by simp at hf⟩

/-- Shifting a pipeline and filling its first stage with something good keeps it good (R98). -/
theorem PipeGood.shift {p : Params} {pipe : List (Option InFlight)} (h : PipeGood p pipe) (hl : p.latency ≠ 0)
    {x : Option InFlight} (hx : ∀ f, x = some f → f.req.fits p.idxW = true ∧ f.bufIn.good p.nBytes = true) :
    PipeGood p (x :: pipe.dropLast) := by
  obtain ⟨hlength, hstages⟩ := h
  refine ⟨by simp [hlength]; omega, fun f hf => ?_⟩
  rcases List.mem_cons.mp hf with heq | hmem
  · exact hx f heq.symm
  · exact hstages f (List.mem_of_mem_dropLast hmem)

/-! ### Steps that keep the invariant -/

/-- A step of an operation that keeps the invariant: no mark is taken back and the block it is done on keeps its parameters. -/
structure State.GoodStep (s t : State) : Prop where
  inv : t.Inv
  marks : s.live = false → t.live = false
  params : t.params = s.params

theorem State.GoodStep.trans {s t u : State} (h : s.GoodStep t) (h' : t.GoodStep u) : s.GoodStep u where
  inv := h'.inv
  marks := fun hs => h'.marks (h.marks hs)
  params := h'.params.trans h.params

theorem State.Inv.goodStep {s : State} (hs : s.Inv) : s.GoodStep s := ⟨hs, id, rfl⟩

theorem State.Inv.pipeGood {s : State} (hs : s.Inv) : PipeGood s.params s.pipe := by
  obtain ⟨-, -, hpipe, -⟩ := Block.good_iff.mp (hs.blocks s.block (by simp))
  exact hpipe

/-- The host's side of a run is no part of the invariant. -/
theorem State.Inv.hostSide {s : State} (hs : s.Inv) (index : Nat) (pending : List HostAction) :
    State.Inv { s with index := index, pending := pending } :=
  ⟨hs.buf, hs.blocks, hs.faultMarked⟩

/-- Setting a mark keeps the invariant. -/
theorem State.Inv.marked {s : State} (hs : s.Inv) {f : Option FaultReason} {r : Option RefuseReason}
    (h : ¬(f = none ∧ r = none)) : s.GoodStep { s with faulted := f, refused := r } := by
  have hdead : State.live { s with faulted := f, refused := r } = false := by
    cases f <;> cases r <;> simp_all [State.live]
  exact ⟨⟨hs.buf, hs.blocks, fun _ _ _ => hdead⟩, fun _ => hdead, rfl⟩

/-- An operation on the state's own block alone: what it has to leave for the invariant to hold. -/
theorem State.Inv.ownStep {s t : State} (hs : s.Inv) (hparams : t.params = s.params) (hpeers : t.peers = s.peers)
    (hmarks : s.live = false → t.live = false) (hbuf : t.buf.good s.params.nBytes = true)
    (hpipe : PipeGood s.params t.pipe) (hrsp : Response.Good s.params.nBytes t.rsp)
    (hfault : t.rsp.fault = true → t.live = false) : s.GoodStep t := by
  obtain ⟨hlegal, -, -, -⟩ := Block.good_iff.mp (hs.blocks s.block (by simp))
  have hown : t.block.Good s.params.nBytes := by
    refine Block.good_iff.mpr ⟨?_, ?_, ?_, hrsp⟩ <;> rw [State.block_params, hparams]
    · exact hlegal
    · exact hpipe
  have hblock : ∀ b ∈ t.blocks, b = t.block ∨ b ∈ s.blocks := by
    intro b hb
    rw [State.mem_blocks, hpeers] at hb
    exact hb.imp id fun hmem => by simp [hmem]
  refine ⟨⟨hparams.symm ▸ hbuf, fun b hb => ?_, fun b hb hf => ?_⟩, hmarks, hparams⟩
  · rw [hparams]
    rcases hblock b hb with rfl | hmem
    · exact hown
    · exact hs.blocks b hmem
  · rcases hblock b hb with rfl | hmem
    · exact hfault hf
    · exact hmarks (hs.faultMarked b hmem hf)

/-- Performing a request keeps the invariant (R24). -/
theorem perform_goodStep {r : Request} {s t : State} (hs : s.Inv) (h : State.perform r s = .next t) : s.GoodStep t := by
  obtain ⟨hparams, hpipe, -, -, hpeers⟩ := perform_frame h
  refine hs.ownStep hparams hpeers (perform_keeps_marks h) ?_ (hpipe.symm ▸ hs.pipeGood) (perform_rsp_good hs.buf h)
    (perform_fault_marks h)
  rw [← commit_of_perform h]
  exact Memory.good_commit hs.buf _

/-- Completing a request on a good sample keeps the invariant (R20, R99). -/
theorem complete_goodStep {f : InFlight} {s t : State} (hs : s.Inv) (hf : f.bufIn.good s.params.nBytes = true)
    (h : s.complete f = .next t) : s.GoodStep t := by
  obtain ⟨hparams, hpipe, -, -, hpeers⟩ := complete_frame h
  obtain ⟨u, hu, rfl⟩ := complete_cases h
  have hmarks : s.live = false → u.live = false := perform_keeps_marks (s := { s with buf := f.bufIn }) hu
  have hrsp : Response.Good s.params.nBytes u.rsp := perform_rsp_good (s := { s with buf := f.bufIn }) hf hu
  have hfault : u.rsp.fault = true → u.live = false := perform_fault_marks hu
  exact hs.ownStep hparams hpeers hmarks (Memory.good_commit hs.buf _) (hpipe.symm ▸ hs.pipeGood) hrsp hfault

/-- The same with which the position in the run advances (R14). -/
theorem complete_next_goodStep {f : InFlight} {s t : State} (hs : s.Inv) (hf : f.bufIn.good s.params.nBytes = true)
    (h : State.complete f { s with index := s.index + 1 } = .next t) : s.GoodStep t := by
  obtain ⟨hinv, hmarks, hparams⟩ := complete_goodStep (hs.hostSide (s.index + 1) s.pending) hf h
  exact ⟨hinv, hmarks, hparams⟩

theorem idleOn_goodStep {m : Memory} {s : State} (hs : s.Inv) (hm : m.good s.params.nBytes = true) :
    s.GoodStep (s.idleOn m) :=
  hs.ownStep rfl rfl id hs.buf hs.pipeGood (Response.good_idle hm) nofun

/-- Other blocks that drive idle outputs are as good as before (R19). -/
theorem idlePeers_goodStep {s : State} (hs : s.Inv) : s.GoodStep s.idlePeers := by
  refine ⟨⟨hs.buf, fun b hb => ?_, fun b hb hf => ?_⟩, id, rfl⟩
  · rw [State.mem_blocks, State.idlePeers_peers, List.mem_map] at hb
    rcases hb with rfl | ⟨c, hc, rfl⟩
    · exact hs.blocks s.block (by simp)
    · obtain ⟨hlegal, hsize, hpipe, -⟩ := Block.good_iff.mp (hs.blocks c (by simp [hc]))
      exact Block.good_iff.mpr ⟨hlegal, hsize, hpipe, Response.good_idle hs.buf⟩
  · rw [State.mem_blocks, State.idlePeers_peers, List.mem_map] at hb
    rcases hb with rfl | ⟨c, hc, rfl⟩
    · exact hs.faultMarked s.block (by simp) hf
    · cases hf

theorem idle_goodStep {s : State} (hs : s.Inv) : s.GoodStep s.idle :=
  (idleOn_goodStep hs hs.buf).trans (idlePeers_goodStep (idleOn_goodStep hs hs.buf).inv)

theorem resetCycle_goodStep {m : Memory} {s : State} (hs : s.Inv) (hm : m.good s.params.nBytes = true) :
    s.GoodStep (s.resetCycle m) :=
  hs.ownStep rfl rfl id hs.buf (pipeGood_replicate s.params) (Response.good_idle hm) nofun

theorem retire_goodStep {m : Memory} {s t : State} (hs : s.Inv) (hm : m.good s.params.nBytes = true)
    (h : s.retire m = .next t) : s.GoodStep t := by
  rcases retire_cases h with ⟨f, hlast, hf⟩ | rfl
  · obtain ⟨-, hstages⟩ := hs.pipeGood
    exact complete_goodStep hs (hstages f (List.mem_of_getLast? hlast)).2 hf
  · exact idleOn_goodStep hs hm

/-- A stage filled in a cycle holds what the pins present, if they present something, and this cycle's sample (R99). -/
theorem stageOf_eq_some {pins : Pins} {m : Memory} {f : InFlight} (h : stageOf pins m = some f) :
    pins.reqValid = true ∧ f = { host := pins.host, req := pins.req, bufIn := m } := by
  unfold stageOf at h
  split at h
  · next hv => exact ⟨hv, (Option.some.inj h).symm⟩
  · cases h

theorem shiftCycle_goodStep {pins : Pins} {m : Memory} {s t : State} (hs : s.Inv) (hl : s.params.latency ≠ 0)
    (hm : m.good s.params.nBytes = true) (hfit : pins.reqValid = true → pins.req.fits s.params.idxW = true)
    (h : s.shiftCycle pins m = .next t) : s.GoodStep t := by
  obtain ⟨u, hu, rfl⟩ := shiftCycle_cases h
  have hretire := retire_goodStep hs hm hu
  have hpipe : PipeGood u.params (stageOf pins m :: s.pipe.dropLast) := by
    rw [hretire.params]
    refine hs.pipeGood.shift hl fun f hf => ?_
    obtain ⟨hvalid, rfl⟩ := stageOf_eq_some hf
    exact ⟨hfit hvalid, hm⟩
  obtain ⟨-, -, -, houtputs⟩ := Block.good_iff.mp (hretire.inv.blocks u.block (by simp))
  exact hretire.trans (hretire.inv.ownStep rfl rfl id hretire.inv.buf hpipe houtputs
    (hretire.inv.faultMarked u.block (by simp)))

/-- One block's clock cycle keeps the invariant (R93, R94, R98). -/
theorem blockCycle_goodStep {pins : Pins} {m : Memory} {s t : State} (hs : s.Inv) (hm : m.good s.params.nBytes = true)
    (hfit : pins.reqValid = true → pins.req.fits s.params.idxW = true) (h : s.blockCycle pins m = .next t) :
    s.GoodStep t := by
  rcases blockCycle_cases h with ⟨-, -, hcomb⟩ | ⟨-, -, rfl⟩ | ⟨-, -, rfl⟩ | ⟨hl, -, hshift⟩
  · exact complete_next_goodStep hs hm hcomb
  · exact idleOn_goodStep hs hm
  · exact resetCycle_goodStep hs hm
  · exact shiftCycle_goodStep hs hl hm hfit hshift

/-! ### Every block -/

/-- The invariant speaks of every block alike: it holds of the state written around another of them. -/
theorem State.Inv.focus {s : State} (hs : s.Inv) {b : Block} (hb : b ∈ s.peers) : (s.focus b).Inv := by
  have hmem : ∀ c ∈ (s.focus b).blocks, c ∈ s.blocks := by
    intro c hc
    rw [State.mem_blocks, State.focus_block, State.focus_peers] at hc
    rcases hc with rfl | hc
    · simp [hb]
    · simp [hc]
  have hsize : b.params.nBytes = s.params.nBytes := (hs.blocks b (by simp [hb])).size
  refine ⟨?_, fun c hc => ?_, fun c hc => hs.faultMarked c (hmem c hc)⟩
  · rw [State.focus_params, hsize]; exact hs.buf
  · rw [State.focus_params, hsize]; exact hs.blocks c (hmem c hc)

@[simp] theorem State.onBlock_zero (f : State → Outcome) (s : State) : s.onBlock 0 f = f s := rfl

@[simp] theorem State.onBlock_succ (k : Nat) (f : State → Outcome) (s : State) :
    s.onBlock (k + 1) f = s.onPeer k f := rfl

/-- An operation that keeps the invariant, and the other blocks, on the state's own block keeps it on any other block. -/
theorem onPeer_goodStep {k : Nat} {f : State → Outcome} {s t : State} (hs : s.Inv)
    (hf : ∀ b u, s.peers[k]? = some b → f (s.focus b) = .next u → (s.focus b).GoodStep u ∧ u.peers = s.peers)
    (h : s.onPeer k f = .next t) : s.GoodStep t := by
  obtain ⟨b, u, hb, hu, rfl⟩ := onPeer_cases h
  obtain ⟨hstep, hpeers⟩ := hf b u hb hu
  have hsize : u.params.nBytes = s.params.nBytes := by
    rw [hstep.params]
    exact (hs.blocks b (by simp [List.mem_of_getElem? hb])).size
  have hmem : ∀ c ∈ State.blocks { u.focus s.block with peers := s.peers.set k u.block },
      c = s.block ∨ c ∈ u.blocks := by
    intro c hc
    rw [State.mem_blocks] at hc
    refine hc.imp id fun hset => ?_
    rw [State.mem_blocks, hpeers, or_comm]
    exact List.mem_or_eq_of_mem_set hset
  refine ⟨⟨?_, fun c hc => ?_, fun c hc hfault => ?_⟩, hstep.marks, rfl⟩
  · exact hsize ▸ hstep.inv.buf
  · rcases hmem c hc with rfl | hc
    · exact hs.blocks s.block (by simp)
    · exact hsize ▸ hstep.inv.blocks c hc
  · rcases hmem c hc with rfl | hc
    · exact hstep.marks (hs.faultMarked s.block (by simp) hfault)
    · exact hstep.inv.faultMarked c hc hfault

/-- What the pins of a cycle present fits the ports of the block they drive (R18). -/
def State.PinsFit (ps : List Pins) (s : State) : Prop :=
  ∀ k p, (s.blocks.map (·.params))[k]? = some p → (ps.getD k Pins.idle).reqValid = true →
    (ps.getD k Pins.idle).req.fits p.idxW = true

theorem State.mem_driven {ps : List Pins} {s : State} {d : Driven} :
    d ∈ s.driven ps ↔
      ∃ k b, s.blocks[k]? = some b ∧ d = { block := k, pins := ps.getD k Pins.idle, unit := b } := by
  simp only [State.driven, List.mem_map, Prod.exists, List.mem_zipIdx_iff_getElem?]
  exact ⟨fun ⟨b, k, hb, hd⟩ => ⟨k, b, hb, hd.symm⟩, fun ⟨k, b, hb, hd⟩ => ⟨b, k, hb, hd.symm⟩⟩

/-- The pins fit exactly when the clock does not refuse the cycle for them (assumption 15). -/
theorem State.pinsFit_iff {ps : List Pins} {s : State} :
    s.PinsFit ps ↔ (s.driven ps).any Driven.overflows = false := by
  rw [List.any_eq_false]
  constructor
  · intro hfit d hd
    obtain ⟨k, b, hb, rfl⟩ := State.mem_driven.mp hd
    have := hfit k b.params (by simp [hb])
    simpa [Driven.overflows] using this
  · intro hno k p hp hvalid
    rw [List.getElem?_map, Option.map_eq_some_iff] at hp
    obtain ⟨b, hb, rfl⟩ := hp
    have := hno _ (State.mem_driven.mpr ⟨k, b, hb, rfl⟩)
    simp only [Driven.overflows, hvalid] at this
    simpa using this

theorem State.PinsFit.of_sameParams {ps : List Pins} {s t : State} (h : s.PinsFit ps) (ht : s.SameParams t) :
    t.PinsFit ps := by
  unfold State.PinsFit
  rw [show t.blocks.map (·.params) = s.blocks.map (·.params) from ht]
  exact h

theorem cyclePeers_goodStep {ps : List Pins} {m : Memory} {k : Nat} {s t : State} (hs : s.Inv)
    (hm : m.good s.params.nBytes = true) (hfit : s.PinsFit ps) (h : State.cyclePeers ps m k s = .next t) :
    s.GoodStep t := by
  induction k generalizing t with
  | zero => cases h; exact hs.goodStep
  | succ k ih =>
    obtain ⟨u, hu, ht⟩ := cyclePeers_succ h
    have hsofar := ih hu
    have hufit : u.PinsFit ps := hfit.of_sameParams (cyclePeers_sameParams hu)
    refine hsofar.trans (onPeer_goodStep hsofar.inv (fun b v hb hv => ?_) ht)
    have hmem : b ∈ u.peers := List.mem_of_getElem? hb
    obtain ⟨-, -, hpeers⟩ := blockCycle_frame hv
    refine ⟨blockCycle_goodStep (hsofar.inv.focus hmem) ?_ (hufit (k + 1) b.params ?_) hv, hpeers⟩
    · rw [State.focus_params, (hsofar.inv.blocks b (by simp [hmem])).size, hsofar.params]
      exact hm
    · simp [State.blocks, hb]

/-- A clock cycle of every block keeps the invariant (R42, R98, R101). -/
theorem clock_goodStep {ps : List Pins} {s t : State} (hs : s.Inv) (h : s.clock ps = .next t) : s.GoodStep t := by
  obtain ⟨hno, ⟨hmark, rfl⟩ | ⟨-, -, u, hu, ht⟩⟩ := clock_cases h
  · refine (idle_goodStep hs).trans ((idle_goodStep hs).inv.marked ?_)
    rcases hmark with hhazard | hrace
    · simp [hhazard]
    · simp [hrace]
  · have hfit := State.pinsFit_iff.mpr hno
    obtain ⟨hparams, -, hpeers⟩ := blockCycle_frame hu
    have hown := blockCycle_goodStep hs hs.buf (hfit 0 s.params rfl) hu
    exact hown.trans (cyclePeers_goodStep hown.inv (hown.params.symm ▸ hs.buf)
      (hfit.of_sameParams (.of_peers_eq hparams hpeers)) ht)

/-- A request of a group keeps the invariant on whichever block it is presented to (R42). -/
theorem onBlock_complete_goodStep {start : Memory} {x : Member} {s t : State} (hs : s.Inv)
    (hstart : start.good s.params.nBytes = true)
    (h : s.onBlock x.block (fun u =>
      State.complete { host := 0, req := x.req, bufIn := start } { u with index := u.index + 1 }) = .next t) :
    s.GoodStep t := by
  cases hk : x.block with
  | zero => rw [hk, State.onBlock_zero] at h; exact complete_next_goodStep hs hstart h
  | succ k =>
    rw [hk, State.onBlock_succ] at h
    refine onPeer_goodStep hs (fun b u hb hu => ?_) h
    have hmem : b ∈ s.peers := List.mem_of_getElem? hb
    obtain ⟨-, -, -, -, hpeers⟩ := complete_frame hu
    refine ⟨complete_next_goodStep (hs.focus hmem) ?_ hu, hpeers⟩
    rw [State.focus_params, (hs.blocks b (by simp [hmem])).size]
    exact hstart

theorem together_goodStep {start : Memory} {ms : List Member} {s t : State} (hs : s.Inv)
    (hstart : start.good s.params.nBytes = true) (h : s.together start ms = .next t) : s.GoodStep t := by
  induction ms generalizing s with
  | nil => cases h; exact hs.goodStep
  | cons x ms ih =>
    obtain ⟨u, hu, ht⟩ := andThen_eq_next.mp h
    have hfirst := onBlock_complete_goodStep hs hstart hu
    exact hfirst.trans (ih hfirst.inv (hfirst.params.symm ▸ hstart) ht)

theorem overlap_goodStep {ms : List Member} {s t : State} (hs : s.Inv) (h : s.overlap ms = .next t) : s.GoodStep t := by
  obtain ⟨-, ⟨-, rfl⟩ | ⟨-, ht⟩⟩ := overlap_cases h
  · exact (idle_goodStep hs).trans ((idle_goodStep hs).inv.marked (by simp))
  · exact (idle_goodStep hs).trans (together_goodStep (idle_goodStep hs).inv hs.buf ht)

/-- Another agent's access keeps the invariant: it writes a byte of the buffer, or none (R102). -/
theorem access_goodStep {a : Nat} {new : Option Byte} {s t : State} (hs : s.Inv) (h : s.access a new = .next t) :
    s.GoodStep t := by
  obtain ⟨ha, ⟨-, rfl⟩ | ⟨-, b, -, rfl⟩ | ⟨-, -, rfl⟩⟩ := access_cases h
  · exact (idle_goodStep hs).trans ((idle_goodStep hs).inv.marked (by simp))
  · have hwrite : s.GoodStep { s with buf := s.buf.write a b } :=
      ⟨⟨Memory.good_write hs.buf ha b, hs.blocks, hs.faultMarked⟩, id, rfl⟩
    exact hwrite.trans (idle_goodStep hwrite.inv)
  · exact idle_goodStep hs

theorem act_inv {a : HostAction} {rest : List HostAction} {s t : State} (hs : s.Inv) (h : s.act a rest = .next t) :
    t.Inv := by
  have hrest : State.Inv { s with pending := rest } := hs.hostSide s.index rest
  rcases act_cases h with ⟨-, hwait⟩ | ⟨r, -, -, hissue⟩ | ⟨ms, -, -, hgroup⟩ | ⟨ps, -, hcycle⟩ | ⟨n, new, -, haccess⟩
  · exact (clock_goodStep hs hwait).inv
  · exact (perform_goodStep ((idlePeers_goodStep hs).inv.hostSide (s.index + 1) rest) hissue).inv
  · exact (overlap_goodStep hrest hgroup).inv
  · exact (clock_goodStep hrest hcycle).inv
  · exact (access_goodStep hrest haccess).inv

/-- Settles O38: a step is an idle cycle or the host's next action, and each of these keeps the invariant. -/
theorem stepsKeepTheInvariant : Obligations.StepsKeepTheInvariant := by
  intro s t hs h
  obtain ⟨-, -, ⟨-, hclock⟩ | ⟨a, rest, -, hact⟩⟩ := step_cases h
  · exact (clock_goodStep hs hclock).inv
  · exact act_inv hs hact

end Sys2Proof.Machine

/-! The statements of 10_state.md about one request: what it changes, what marks it sets, what decides its response, and what
its commit leaves (R12, R18, R20, R23, R34, R81). -/

namespace Sys2Proof.Machine

/-! ### What an instruction changes -/

/-- The enables of a footprint, as the bytes that they name (R33). -/
theorem testBit_footprint_iff {s l a : Nat} :
    (footprint s l).testBit a = true ↔ 0 < l ∧ s / 8 ≤ a ∧ a ≤ (s + l - 1) / 8 := by
  simp [testBit_footprint, and_assoc]

/-- Settles O27: a read completes with the buffer as it was, a write with the field written, which leaves every byte outside
the footprint alone. -/
theorem instructionsChangeOnlyTheirFootprint : Obligations.InstructionsChangeOnlyTheirFootprint := by
  intro i s st l hwf hresolve
  have hexec := exec_of_ok hresolve
  cases hop : i.op with
  | read =>
    rw [okResponse_read hop, takeOk_ofRead] at hexec
    exact ⟨_, hexec, fun a => testBit_footprint_iff, nofun, fun _ => ⟨rfl, rfl⟩, fun _ _ => rfl, rfl, rfl⟩
  | write =>
    rw [okResponse_write hop, takeOk_ofWrite hwf (resolveFor_bounds hresolve).1] at hexec
    refine ⟨_, hexec, fun a => testBit_footprint_iff, fun _ => rfl, nofun, fun a ha => ?_, rfl, rfl⟩
    exact read_writeField_footprint s.buf (by simpa only [Bool.eq_false_iff, ne_eq, testBit_footprint_iff] using ha)

/-- Settles O32: an instruction that resolves leaves the marks, and one that does not sets `faulted` when it is unchecked. -/
theorem onlyUncheckedRangeErrorsFault : Obligations.OnlyUncheckedRangeErrorsFault := by
  intro i s hs
  cases hresolve : resolveFor s.params i.form i.width i.lo i.hi with
  | ok range =>
    obtain ⟨st, l⟩ := range
    exact ⟨_, exec_of_ok hresolve, rfl, by simp [hs]⟩
  | error e =>
    refine ⟨_, exec_of_error hresolve, rfl, fun r => ?_⟩
    cases hchk : i.chk with
    | true => simp [markAfter, hs]
    | false => simp [markAfter, eq_comm]

/-! ### What decides a response -/

/-- The latency takes no part in resolving a range (R24). -/
theorem resolveFor_of_other_latency (p : Params) (k : Nat) (form : RangeForm) (w : Width) (lo hi : Nat) :
    resolveFor { p with latency := k } form w lo hi = resolveFor p form w lo hi := rfl

/-- A reserved control byte takes `IllegalControl` (R79). -/
theorem perform_of_illegal {r : Request} {s : State} {c : Byte}
    (h : decodeRequest s.params.idxW r = .error (.illegalControl c)) : State.perform r s = .next s.takeIllegal := by
  simp [State.perform, h]

/-- Settles O35: on the same buffer, the same request decodes and resolves alike whatever the latency is, so that both runs
take the same of the three answers. -/
theorem responseDependsOnRequestAndBufferOnly : Obligations.ResponseDependsOnRequestAndBufferOnly := by
  intro r s s' t t' k hparams hbuf h h'
  have hidx : s'.params.idxW = s.params.idxW := by rw [hparams]
  have hbytes : s'.params.nBytes = s.params.nBytes := by rw [hparams]
  rcases perform_cases h with ⟨i, hdecode, hexec⟩ | ⟨hdecode, rfl⟩
  · rw [perform_of_ok (hidx ▸ hdecode)] at h'
    have hsame : resolveFor s'.params i.form i.width i.lo i.hi = resolveFor s.params i.form i.width i.lo i.hi := by
      rw [hparams, resolveFor_of_other_latency]
    rcases exec_cases hexec with ⟨st, l, hresolve, rfl⟩ | ⟨e, hresolve, rfl⟩
    · rw [exec_of_ok (hsame.trans hresolve), Host.Outcome.next.injEq] at h'
      subst h'
      exact ⟨by simp [hbuf], by simp [hbuf, hbytes], _, rfl, by simp [hbuf]⟩
    · rw [exec_of_error (hsame.trans hresolve), Host.Outcome.next.injEq] at h'
      subst h'
      exact ⟨by simp [hbuf], hbuf.symm, _, rfl, rfl⟩
  · rw [perform_of_illegal (hidx ▸ hdecode), Host.Outcome.next.injEq] at h'
    subst h'
    exact ⟨by simp [hbuf], hbuf.symm, [], by simp, by simp⟩

/-! ### The bus and the commit -/

theorem Memory.bus_succ (m : Memory) (n : Nat) :
    Memory.bus (n + 1) m = Memory.bus n m + 2 ^ (8 * n) * (m.read n).toNat := rfl

/-- Nothing on the bus is above `8*N` bits (R18). -/
theorem Memory.bus_lt (m : Memory) (n : Nat) : Memory.bus n m < 2 ^ (8 * n) := by
  induction n with
  | zero => exact Nat.one_pos
  | succ n ih =>
    have hbyte : (m.read n).toNat + 1 ≤ 2 ^ 8 := (m.read n).isLt
    calc Memory.bus (n + 1) m
        < 2 ^ (8 * n) + 2 ^ (8 * n) * (m.read n).toNat := Nat.add_lt_add_right ih _
      _ = 2 ^ (8 * n) * ((m.read n).toNat + 1) := by ring
      _ ≤ 2 ^ (8 * n) * 2 ^ 8 := Nat.mul_le_mul_left _ hbyte
      _ = 2 ^ (8 * (n + 1)) := by rw [← Nat.pow_add, Nat.mul_succ]

/-- Lane `i` of the bus carries byte `i` (R18). -/
theorem Memory.bus_lane (m : Memory) {n i : Nat} (hi : i < n) :
    Memory.bus n m / 2 ^ (8 * i) % 2 ^ 8 = (m.read i).toNat := by
  induction n with
  | zero => omega
  | succ n ih =>
    rcases Nat.lt_succ_iff_lt_or_eq.mp hi with hlt | rfl
    · have habove : 2 ^ (8 * n) = 2 ^ (8 * i) * (2 ^ 8 * 2 ^ (8 * (n - i - 1))) := by
        rw [← Nat.pow_add, ← Nat.pow_add]
        congr 1
        omega
      rw [Memory.bus_succ, habove, Nat.mul_assoc, Nat.add_mul_div_left _ _ (Nat.two_pow_pos _), Nat.mul_assoc,
        Nat.add_mul_mod_self_left, ih hlt]
    · rw [Memory.bus_succ, Nat.add_mul_div_left _ _ (Nat.two_pow_pos _), Nat.div_eq_of_lt (m.bus_lt i), Nat.zero_add,
        Nat.mod_eq_of_lt (m.read i).isLt]

/-- Settles O43. -/
theorem busCarriesByteIOnLaneI : Obligations.BusCarriesByteIOnLaneI :=
  fun m n => ⟨m.bus_lt n, fun _ hi => m.bus_lane hi⟩

/-- Completing a request that the ports can carry always answers a next state. -/
theorem complete_next {f : InFlight} {s : State} (h : f.req.fits s.params.idxW = true) : ∃ t, s.complete f = .next t := by
  obtain ⟨u, hu⟩ := perform_next (s := { s with buf := f.bufIn }) h
  exact ⟨_, by rw [State.complete, hu, andThen_next]⟩

theorem complete_valid {f : InFlight} {s t : State} (h : s.complete f = .next t) : t.rsp.valid = true := by
  obtain ⟨u, hu, rfl⟩ := complete_cases h
  have hvalid : u.rsp.valid = true := perform_valid hu
  exact hvalid

/-- Settles O44: the request is answered from its sample, and its response is committed to the buffer as it stands. -/
theorem commitChangesExactlyTheEnabledBytes : Obligations.CommitChangesExactlyTheEnabledBytes := by
  intro f s hwf hfits
  obtain ⟨t, ht⟩ := complete_next hfits
  refine ⟨t, ht, complete_valid ht, fun a => ?_⟩
  obtain ⟨u, -, rfl⟩ := complete_cases ht
  exact read_commit hwf s.params.nBytes u.rsp a

/-! ### Another agent's access -/

/-- A step without a response drives R19's idle values on every block and leaves the parameters and the pipelines. -/
theorem State.idle_blocks (s : State) : s.idle.blocks = s.blocks.map fun b => { b with rsp := Response.idle s.buf } := rfl

theorem access_of_race {a : Nat} {new : Option Byte} {s : State} (ha : a < s.params.nBytes)
    (hr : s.accessRaces a new = true) : s.access a new = .next { s.idle with faulted := some .race } := by
  simp [State.access, ha, hr]

/-- An access is exclusive when nothing is in flight (R102). -/
theorem accessRaces_of_flights_eq_nil {s : State} (h : s.flights = []) (a : Nat) (new : Option Byte) :
    s.accessRaces a new = false := by
  simp [State.accessRaces, h]

/-- Settles O54: a write in flight over the byte makes the access race; in each case the step drives idle values on the buffer
that it leaves. -/
theorem accessDuringAWriteRaces : Obligations.AccessDuringAWriteRaces := by
  intro s a new ha hwf
  refine ⟨fun x hx hwrites hcovers => ?_, fun t ht => ?_, fun hflights => ?_⟩
  · have hraces : s.accessRaces a new = true :=
      List.any_eq_true.mpr ⟨x, hx, by simp [hwrites, hcovers]⟩
    exact ⟨_, access_of_race ha hraces, rfl, rfl⟩
  · obtain ⟨-, ⟨-, rfl⟩ | ⟨-, b, -, rfl⟩ | ⟨-, -, rfl⟩⟩ := access_cases ht <;> exact State.idle_blocks _
  · have hfree := accessRaces_of_flights_eq_nil hflights a new
    cases new with
    | none => exact ⟨s.idle, by simp [State.access, ha, hfree], rfl, fun _ => rfl⟩
    | some b =>
      exact ⟨State.idle { s with buf := s.buf.write a b }, by simp [State.access, ha, hfree], rfl,
        fun x => Memory.read_write hwf a x b⟩

end Sys2Proof.Machine

/-! The statements of 10_state.md about steps and runs: what ends a run, one request as a step, a list of requests, an idle
cycle, and a request on its way through a pipeline (R14, R19, R23 to R25, R41, R98, R99). -/

namespace Sys2Proof.Machine

/-! ### What one step does -/

theorem step_of_faulted {s : State} {r : FaultReason} (hl : s.lawful = true) (hr : s.faulted = some r) :
    step s = .fault (.runFaulted r) := by
  simp [step, State.advance, hl, hr]

theorem step_of_refused {s : State} {r : RefuseReason} (hl : s.lawful = true) (hf : s.faulted = none)
    (hr : s.refused = some r) : step s = .refused (.runRefused r) := by
  simp [step, State.advance, hl, hf, hr]

/-- Settles O33. -/
theorem markedRunsPerformNothing : Obligations.MarkedRunsPerformNothing :=
  fun _ hl => ⟨fun _ hr => step_of_faulted hl hr, fun _ hf hr => step_of_refused hl hf hr⟩

/-- With nothing left to do a step is an idle clock cycle (R97). -/
theorem step_of_nothing_pending {s : State} (hl : s.lawful = true) (hlive : s.live = true) (hp : s.pending = []) :
    step s = s.clock [] := by
  rw [step_of_live hl hlive, hp]

theorem step_of_clock {s : State} {ps : List Pins} {rest : List HostAction} (hl : s.lawful = true)
    (hlive : s.live = true) (hp : s.pending = .clock ps :: rest) :
    step s = State.clock ps { s with pending := rest } := by
  rw [step_of_live hl hlive, hp]
  rfl

/-- With nothing in flight, the step of an issued request is that request (R24, R25). -/
theorem step_of_issue {s : State} {r : Request} {rest : List HostAction} (hl : s.lawful = true) (hlive : s.live = true)
    (hq : s.quiet = true) (hp : s.pending = .issue r :: rest) :
    step s = State.serve r { s.idlePeers with pending := rest } := by
  rw [step_of_live hl hlive, hp]
  exact if_pos hq

/-- A request that decodes was one that the ports can carry, and so is its instruction (R51). -/
theorem wf_of_decodeRequest {idxW : Nat} {r : Request} {i : Instr} (h : decodeRequest idxW r = .ok i) :
    i.wf idxW = true := by
  unfold decodeRequest at h
  split at h
  · next hfits =>
    split at h
    · next op form chk w _ =>
      cases h
      obtain ⟨-, -, -, -, hlo, hhi⟩ := Laws.make_fields op form w chk r.lo r.hi r.wval
      rw [Instr.wf, hlo, hhi]
      exact hfits
    · cases h
  · cases h

theorem decodeRequest_of_decode {idxW w : Nat} {i : Instr} (h : decode idxW w = .ok i) :
    decodeRequest idxW (Request.unpack idxW w) = .ok i := by
  unfold decode at h
  split at h
  · exact h
  · cases h

/-- The step of an issued request runs the instruction that it decodes to (R24). -/
theorem step_of_issue_decoded {s : State} {r : Request} {rest : List HostAction} {i : Instr} (hl : s.lawful = true)
    (hlive : s.live = true) (hq : s.quiet = true) (hp : s.pending = .issue r :: rest)
    (hi : decodeRequest s.params.idxW r = .ok i) :
    step s = exec i { s.idlePeers with pending := rest, index := s.index + 1 } :=
  (step_of_issue hl hlive hq hp).trans
    (perform_of_ok (s := { s.idlePeers with pending := rest, index := s.index + 1 }) hi)

/-- Settles O34: a word placed by `State.withFetchWord` is an issued request too. -/
theorem stepRunsTheDecodedRequest : Obligations.StepRunsTheDecodedRequest :=
  ⟨fun _ _ _ _ hl hlive hq hp hi => ⟨wf_of_decodeRequest hi, step_of_issue_decoded hl hlive hq hp hi⟩,
    fun s nbits w _ hl hlive hq hi => step_of_issue_decoded (s := s.withFetchWord nbits w) hl hlive hq rfl
      (decodeRequest_of_decode hi)⟩

/-! ### Runs -/

theorem core_run_succ {k : Nat} {s t : State} (h : step s = .next t) :
    Sys2Proof.core.run (k + 1) s = Sys2Proof.core.run k t := by
  have hstep : Sys2Proof.core.step s = .next t := h
  simp only [Host.Core.run, hstep]

theorem core_run_one {s t : State} (h : step s = .next t) : Sys2Proof.core.run 1 s = .next t := core_run_succ h

/-- A request reads neither the pipeline, the outputs nor the host's side, nor the other blocks, and leaves all but its outputs
alone (R12). -/
theorem perform_of_other_fields {r : Request} {s u : State} (h : State.perform r s = .next u)
    (pipe : List (Option InFlight)) (rsp : Response) (index : Nat) (peers : List Block) (pending : List HostAction) :
    State.perform r { s with pipe := pipe, rsp := rsp, index := index, peers := peers, pending := pending } =
      .next { u with pipe := pipe, index := index, peers := peers, pending := pending } := by
  rcases perform_cases h with ⟨i, hdecode, hexec⟩ | ⟨hdecode, rfl⟩
  · refine Eq.trans (perform_of_ok hdecode) ?_
    rcases exec_cases hexec with ⟨st, l, hr, rfl⟩ | ⟨e, hr, rfl⟩
    · exact exec_of_ok hr
    · exact exec_of_error hr
  · exact perform_of_illegal hdecode

/-- What a block carries beside its outputs. -/
def Block.kept (b : Block) : Params × List (Option InFlight) := (b.params, b.pipe)

/-- A block with R19's idle values on its outputs. -/
def Block.idleOn (m : Memory) (b : Block) : Block := { b with rsp := Response.idle m }

@[simp] theorem Block.idleOn_idleOn (m : Memory) (b : Block) : (b.idleOn m).idleOn m = b.idleOn m := rfl

@[simp] theorem Block.kept_idleOn (m : Memory) (b : Block) : (b.idleOn m).kept = b.kept := rfl

theorem map_kept_idleOn (m : Memory) (bs : List Block) :
    (bs.map (Block.idleOn m)).map Block.kept = bs.map Block.kept := by
  simp [Function.comp_def]

theorem State.idlePeers_eq (s : State) : s.idlePeers = { s with peers := s.peers.map (Block.idleOn s.buf) } := rfl

/-- The blocks of `t` are those of `s` but for their outputs. -/
def State.SameUnits (s t : State) : Prop := t.blocks.map Block.kept = s.blocks.map Block.kept

theorem State.sameUnits_iff {s t : State} :
    s.SameUnits t ↔ (t.params = s.params ∧ t.pipe = s.pipe) ∧ t.peers.map Block.kept = s.peers.map Block.kept := by
  simp [State.SameUnits, State.blocks, Block.kept]

theorem State.SameUnits.sameParams {s t : State} (h : s.SameUnits t) : s.SameParams t := by
  have := congrArg (List.map Prod.fst) h
  simpa [State.SameParams, Function.comp_def, Block.kept] using this

theorem State.lawful_eq (s : State) :
    s.lawful = (s.blocks.map (·.params)).all fun p => legal p && decide (p.nBytes = s.params.nBytes) := by
  simp [State.lawful, List.all_map, Function.comp_def]

theorem State.SameParams.lawful_eq {s t : State} (h : s.SameParams t) : t.lawful = s.lawful := by
  obtain ⟨hparams, -⟩ := State.sameParams_iff.mp h
  rw [State.lawful_eq, State.lawful_eq, hparams, show t.blocks.map (·.params) = s.blocks.map (·.params) from h]

theorem State.quiet_eq (s : State) :
    s.quiet = (s.blocks.map Block.kept).all fun x => x.2.all (·.isNone) := by
  simp only [State.quiet, List.all_map, Function.comp_def, Block.quiet, Block.kept]

theorem State.SameUnits.quiet_eq {s t : State} (h : s.SameUnits t) : t.quiet = s.quiet := by
  rw [State.quiet_eq, State.quiet_eq, show t.blocks.map Block.kept = s.blocks.map Block.kept from h]

theorem serve_frame {r : Request} {s t : State} (h : s.serve r = .next t) :
    t.params = s.params ∧ t.pipe = s.pipe ∧ t.index = s.index + 1 ∧ t.pending = s.pending ∧ t.peers = s.peers :=
  perform_frame h

/-- The step of an issued request from a state that differs from `s` in the outputs of the other blocks alone, and in what is
pending, is what serving the request on `s` gives, with the other blocks idle. -/
theorem step_of_serve {r : Request} {rest : List HostAction} {s t : State} {peers : List Block} (hl : s.lawful = true)
    (hlive : s.live = true) (hq : s.quiet = true) (hpeers : peers.map Block.kept = s.peers.map Block.kept)
    (h : s.serve r = .next t) :
    step { s with pending := .issue r :: rest, peers := peers } =
      .next { t with pending := rest, peers := peers.map (Block.idleOn s.buf) } := by
  have hunits : s.SameUnits { s with pending := .issue r :: rest, peers := peers } :=
    State.sameUnits_iff.mpr ⟨⟨rfl, rfl⟩, hpeers⟩
  obtain ⟨-, hpipe, hindex, -, -⟩ := serve_frame h
  rw [step_of_issue (s := { s with pending := .issue r :: rest, peers := peers })
    (hunits.sameParams.lawful_eq.trans hl) hlive (hunits.quiet_eq.trans hq) rfl]
  refine Eq.trans (perform_of_other_fields h s.pipe s.rsp (s.index + 1) _ rest) ?_
  rw [← hpipe, ← hindex]
  rfl

/-- The steps of a list of issued requests, from a state that differs from `s` in the outputs of the other blocks alone, are
the requests served one after the other up to the first that sets a mark (R25, R41). -/
theorem run_of_serveAll {rs : List Request} {s t : State} {peers : List Block} (hl : s.lawful = true)
    (hlive : s.live = true) (hq : s.quiet = true) (hpeers : peers.map Block.kept = s.peers.map Block.kept)
    (h : s.serveAll rs = .next t) :
    ∃ k ps, k ≤ rs.length ∧
      Sys2Proof.core.run k { s with pending := rs.map .issue, peers := peers } =
        .next { t with pending := (rs.drop k).map .issue, peers := ps } ∧
      ps.map Block.kept = s.peers.map Block.kept ∧
      (t.live = true → k = rs.length) := by
  induction rs generalizing s peers with
  | nil => cases h; exact ⟨0, peers, Nat.le_refl 0, rfl, hpeers, fun _ => rfl⟩
  | cons r rs ih =>
    obtain ⟨u, hu, ht⟩ := andThen_eq_next.mp h
    obtain ⟨huparams, hupipe, -, -, hupeers⟩ := serve_frame hu
    have hstep := step_of_serve (rest := rs.map .issue) hl hlive hq hpeers hu
    have hidle := (map_kept_idleOn s.buf peers).trans hpeers
    split at ht
    · next hulive =>
      have hunits : s.SameUnits u := State.sameUnits_iff.mpr ⟨⟨huparams, hupipe⟩, by rw [hupeers]⟩
      obtain ⟨k, ps, hk, hrun, hps, hall⟩ := ih (hunits.sameParams.lawful_eq.trans hl) hulive
        (hunits.quiet_eq.trans hq) (hidle.trans (by rw [hupeers])) ht
      exact ⟨k + 1, ps, Nat.succ_le_succ hk, (core_run_succ hstep).trans hrun, by rw [hps, hupeers],
        fun hlive' => congrArg (· + 1) (hall hlive')⟩
    · next hmarked =>
      cases ht
      exact ⟨1, _, by simp, core_run_one hstep, hidle, fun hlive' => absurd hlive' hmarked⟩

/-- Settles O36. -/
theorem runPerformsRequestsInOrder : Obligations.RunPerformsRequestsInOrder := by
  intro rs s t hl hlive hq h
  obtain ⟨k, ps, hk, hrun, hps, hall⟩ := run_of_serveAll hl hlive hq rfl h
  exact ⟨k, _, hk, hrun, rfl, hps, hall⟩

/-! ### Idle cycles -/

/-- The invariant includes that every block is lawful (R6, R64). -/
theorem State.Inv.lawful {s : State} (hs : s.Inv) : s.lawful = true := by
  refine List.all_eq_true.mpr fun b hb => ?_
  have hgood := hs.blocks b hb
  simp [hgood.params, hgood.size]

/-- A pipeline of `LATENCY` stages, every valid bit of which is 0 (R17). -/
def Block.Empty (b : Block) : Prop := b.pipe = List.replicate b.params.latency none

/-- A good block without a request in flight has an empty pipeline. -/
theorem Block.Good.empty_of_quiet {n : Nat} {b : Block} (hb : b.Good n) (hq : b.quiet = true) : b.Empty := by
  refine List.eq_replicate_iff.mpr ⟨hb.stages, fun x hx => ?_⟩
  simpa using List.all_eq_true.mp hq x hx

theorem State.Inv.empty_of_quiet {s : State} (hs : s.Inv) (hq : s.quiet = true) {b : Block} (hb : b ∈ s.blocks) :
    b.Empty :=
  (hs.blocks b hb).empty_of_quiet (List.all_eq_true.mp hq b hb)

theorem State.peers_empty {s : State} (h : ∀ b ∈ s.blocks, b.Empty) : ∀ b ∈ s.peers, b.Empty :=
  fun b hb => h b (List.mem_cons_of_mem _ hb)

theorem Block.Empty.inFlight {b : Block} (h : b.Empty) : b.inFlight = [] := by
  rw [Block.inFlight, h]
  simp

/-- A cycle in which no requester clashes and R101 holds is the cycle of each block (R42, R98). -/
theorem clock_of_calm {ps : List Pins} {s : State} (ho : (s.driven ps).any Driven.overflows = false)
    (hh : hazardous (s.driven ps) = false) (hr : racing (s.driven ps) = false) :
    s.clock ps = andThen (s.blockCycle (ps.getD 0 Pins.idle) s.buf) (State.cyclePeers ps s.buf s.peers.length) := by
  simp [State.clock, ho, hh, hr]

theorem Driven.accepted_of_idle {d : Driven} (h : d.pins = Pins.idle) : d.accepted = none := by
  simp [Driven.accepted, h, Pins.idle]

theorem acceptedOf_of_idle {ds : List Driven} (h : ∀ d ∈ ds, d.pins = Pins.idle) : acceptedOf ds = [] :=
  List.filterMap_eq_nil_iff.mpr fun d hd => Driven.accepted_of_idle (h d hd)

theorem State.pinsFit_nil (s : State) : s.PinsFit [] := by
  simp [State.PinsFit, Pins.idle]

/-- With idle pins everywhere nothing is accepted that could clash. -/
theorem clock_nil_eq (s : State) :
    s.clock [] = andThen (s.blockCycle Pins.idle s.buf) (State.cyclePeers [] s.buf s.peers.length) := by
  have haccepted : acceptedOf (s.driven []) = [] := by
    refine acceptedOf_of_idle fun d hd => ?_
    obtain ⟨k, b, -, rfl⟩ := State.mem_driven.mp hd
    rfl
  exact clock_of_calm (State.pinsFit_iff.mp s.pinsFit_nil) (by simp [hazardous, haccepted])
    (by simp [racing, haccepted, race])

/-- Pipelines of which every one is empty have nothing in flight, whatever the pins carry. -/
theorem flightsOf_driven_eq_nil {s : State} (h : ∀ b ∈ s.blocks, b.Empty) (ps : List Pins) :
    flightsOf (s.driven ps) = [] := by
  refine List.flatMap_eq_nil_iff.mpr fun d hd => ?_
  obtain ⟨k, b, hb, rfl⟩ := State.mem_driven.mp hd
  simp [Driven.flights, (h b (List.mem_of_getElem? hb)).inFlight]

/-- Pins for the state's own block alone leave every other block idle (assumption 26). -/
theorem State.driven_singleton (p : Pins) (s : State) :
    ∃ ds, s.driven [p] = { block := 0, pins := p, unit := s.block } :: ds ∧ ∀ d ∈ ds, d.pins = Pins.idle := by
  refine ⟨_, rfl, fun d hd => ?_⟩
  obtain ⟨⟨b, k⟩, hb, rfl⟩ := List.mem_map.mp hd
  have hk : 1 ≤ k := by
    have := List.le_snd_of_mem_zipIdx hb
    simpa using this
  exact List.getD_eq_default [p] Pins.idle hk

theorem State.pinsFit_singleton {p : Pins} {s : State} (h : p.req.fits s.params.idxW = true) : s.PinsFit [p] := by
  intro k q hq hvalid
  cases k with
  | zero =>
    obtain rfl : s.params = q := by simpa [State.blocks] using hq
    exact h
  | succ k => simp [Pins.idle] at hvalid

/-- With nothing in flight, a request on one block has nothing to clash with. -/
theorem clock_singleton_eq {p : Pins} {s : State} (h : ∀ b ∈ s.blocks, b.Empty)
    (hfit : p.req.fits s.params.idxW = true) :
    s.clock [p] = andThen (s.blockCycle p s.buf) (State.cyclePeers [p] s.buf s.peers.length) := by
  have hflights := flightsOf_driven_eq_nil h [p]
  obtain ⟨ds, hdriven, hidle⟩ := s.driven_singleton p
  have haccepted : acceptedOf (s.driven [p]) =
      (Driven.accepted { block := 0, pins := p, unit := s.block }).toList := by
    have hrest := acceptedOf_of_idle hidle
    rw [acceptedOf] at hrest
    rw [hdriven, acceptedOf, List.filterMap_cons, hrest]
    cases Driven.accepted { block := 0, pins := p, unit := s.block } <;> rfl
  refine clock_of_calm (State.pinsFit_iff.mp (State.pinsFit_singleton hfit)) (by simp [hazardous, hflights]) ?_
  rw [racing, haccepted, hflights]
  cases Driven.accepted { block := 0, pins := p, unit := s.block } <;> simp [race]

/-! ### One block's cycle, by what its last stage holds -/

theorem blockCycle_of_pipelined {pins : Pins} {s : State} (hl : s.params.latency ≠ 0) (hr : pins.rst = false)
    (m : Memory) : s.blockCycle pins m = s.shiftCycle pins m := by
  simp [State.blockCycle, hl, hr]

theorem blockCycle_of_comb {pins : Pins} {s : State} (hl : s.params.latency = 0) (hv : pins.reqValid = true)
    (m : Memory) : s.blockCycle pins m =
      State.complete { host := pins.host, req := pins.req, bufIn := m } { s with index := s.index + 1 } := by
  simp [State.blockCycle, State.combCycle, hl, hv]

theorem blockCycle_of_comb_idle {pins : Pins} {s : State} (hl : s.params.latency = 0) (hv : pins.reqValid = false)
    (m : Memory) : s.blockCycle pins m = .next (s.idleOn m) := by
  simp [State.blockCycle, State.combCycle, hl, hv]

/-- A pipeline whose last stage is invalid drives idle values and shifts (R19, R98). -/
theorem shiftCycle_of_last_none {s : State} {pipe : List (Option InFlight)} (h : s.pipe = pipe ++ [none]) (pins : Pins)
    (m : Memory) : s.shiftCycle pins m = .next { s.idleOn m with
      pipe := stageOf pins m :: pipe
      index := if pins.reqValid then s.index + 1 else s.index } := by
  have hretire : s.retire m = .next (s.idleOn m) := by simp [State.retire, h]
  rw [State.shiftCycle, hretire, andThen_next, h, List.dropLast_concat]

/-- A pipeline whose last stage holds a request completes it and shifts (R98). -/
theorem shiftCycle_of_last_some {s t : State} {pipe : List (Option InFlight)} {f : InFlight}
    (h : s.pipe = pipe ++ [some f]) (hf : s.complete f = .next t) (pins : Pins) (m : Memory) :
    s.shiftCycle pins m = .next { t with
      pipe := stageOf pins m :: pipe
      index := if pins.reqValid then s.index + 1 else s.index } := by
  have hretire : s.retire m = .next t := by simp [State.retire, h, hf]
  rw [State.shiftCycle, hretire, andThen_next, h, List.dropLast_concat]

@[simp] theorem stageOf_idle (m : Memory) : stageOf Pins.idle m = none := rfl

/-- An empty pipeline that is driven idle stays empty and drives idle values (R19). -/
theorem blockCycle_idle {s : State} (h : s.block.Empty) (m : Memory) :
    s.blockCycle Pins.idle m = .next (s.idleOn m) := by
  have hpipe : s.pipe = List.replicate s.params.latency none := h
  by_cases hl : s.params.latency = 0
  · exact blockCycle_of_comb_idle hl rfl m
  · obtain ⟨n, hn⟩ := Nat.exists_eq_succ_of_ne_zero hl
    rw [hn, List.replicate_succ'] at hpipe
    rw [blockCycle_of_pipelined hl rfl, shiftCycle_of_last_none hpipe, stageOf_idle, ← List.replicate_succ,
      List.replicate_succ', ← hpipe]
    rfl

/-! ### Idle cycles of the other blocks -/

theorem Block.Empty.idleOn {b : Block} (h : b.Empty) (m : Memory) : (b.idleOn m).Empty := h

/-- An idle cycle of another block with an empty pipeline changes its outputs alone (R19). -/
theorem onPeer_idle {k : Nat} {b : Block} {s : State} (hb : s.peers[k]? = some b) (h : b.Empty) (m : Memory) :
    s.onPeer k (State.blockCycle Pins.idle m) = .next { s with peers := s.peers.set k (b.idleOn m) } :=
  onPeer_of_next hb (blockCycle_idle (s := s.focus b) h m)

theorem set_map_take_append_drop {α : Type} {l : List α} {k : Nat} {x : α} (hx : l[k]? = some x) (g : α → α) :
    ((l.take k).map g ++ l.drop k).set k (g x) = (l.take (k + 1)).map g ++ l.drop (k + 1) := by
  obtain ⟨hk, rfl⟩ := List.getElem?_eq_some_iff.mp hx
  have hlength : ((l.take k).map g).length = k := by simp [hk.le]
  rw [List.take_succ_eq_append_getElem hk, List.drop_eq_getElem_cons hk, List.set_append_right _ _ hlength.le, hlength,
    Nat.sub_self, List.set_cons_zero, List.map_append, List.append_assoc]
  rfl

/-- After the idle cycles of the first `k` other blocks with empty pipelines, those drive idle values (R19). -/
theorem cyclePeers_idle_take {ps : List Pins} {s : State} (hps : ∀ k, ps.getD (k + 1) Pins.idle = Pins.idle)
    (hempty : ∀ b ∈ s.peers, b.Empty) (m : Memory) {k : Nat} (hk : k ≤ s.peers.length) :
    State.cyclePeers ps m k s =
      .next { s with peers := (s.peers.take k).map (Block.idleOn m) ++ s.peers.drop k } := by
  induction k with
  | zero => rfl
  | succ k ih =>
    have hb : s.peers[k]? = some s.peers[k] := List.getElem?_eq_getElem hk
    have hbk : ((s.peers.take k).map (Block.idleOn m) ++ s.peers.drop k)[k]? = some s.peers[k] := by
      rw [List.getElem?_append_right (by simp)]
      simp [Nat.min_eq_left (Nat.le_of_succ_le hk)]
    rw [State.cyclePeers, ih (Nat.le_of_succ_le hk), andThen_next, hps]
    refine (onPeer_idle hbk (hempty _ (List.getElem_mem hk)) m).trans ?_
    rw [set_map_take_append_drop hb]

theorem cyclePeers_idle {ps : List Pins} {s : State} (hps : ∀ k, ps.getD (k + 1) Pins.idle = Pins.idle)
    (hempty : ∀ b ∈ s.peers, b.Empty) (m : Memory) :
    State.cyclePeers ps m s.peers.length s = .next { s with peers := s.peers.map (Block.idleOn m) } := by
  rw [cyclePeers_idle_take hps hempty m (Nat.le_refl _)]
  simp

/-- Blocks that already drive idle values on the same buffer go on doing so. -/
theorem cyclePeers_idle_again {ps : List Pins} (hps : ∀ k, ps.getD (k + 1) Pins.idle = Pins.idle) {peers : List Block}
    (hempty : ∀ b ∈ peers, b.Empty) (m : Memory) (s : State) :
    State.cyclePeers ps m (peers.map (Block.idleOn m)).length { s with peers := peers.map (Block.idleOn m) } =
      .next { s with peers := peers.map (Block.idleOn m) } := by
  refine (cyclePeers_idle (s := { s with peers := peers.map (Block.idleOn m) }) hps
    (List.forall_mem_map.mpr fun b hb => (hempty b hb).idleOn m) m).trans ?_
  simp only [List.map_map, Function.comp_def, Block.idleOn_idleOn]

/-- An idle cycle with nothing in flight changes the outputs alone (R19, assumption 7). -/
theorem clock_nil_of_empty {s : State} (h : ∀ b ∈ s.blocks, b.Empty) : s.clock [] = .next s.idle := by
  rw [clock_nil_eq, blockCycle_idle (h s.block (by simp)), andThen_next]
  exact cyclePeers_idle (s := s.idleOn s.buf) (fun _ => rfl) (State.peers_empty (s := s) h) s.buf

/-- Settles O45: the idle values are those of `Response.idle`; without a pipeline a cycle answers exactly when a request is
presented. -/
theorem idleCyclesDriveIdleValues : Obligations.IdleCyclesDriveIdleValues := by
  refine ⟨fun s hs hlive hq hp => ?_, fun s pins m hl hfit => ?_⟩
  · rw [step_of_nothing_pending hs.lawful hlive hp]
    exact clock_nil_of_empty fun b hb => hs.empty_of_quiet hq hb
  · cases hv : pins.reqValid with
    | false => exact ⟨_, blockCycle_of_comb_idle hl hv m, rfl⟩
    | true =>
      rw [blockCycle_of_comb hl hv]
      obtain ⟨t, ht⟩ := complete_next (f := { host := pins.host, req := pins.req, bufIn := m })
        (s := { s with index := s.index + 1 }) hfit
      exact ⟨t, ht, complete_valid ht⟩

/-! ### A request on its way through the pipeline -/

/-- The state while the request of `f`, issued at the quiet state `s`, is in flight: `j` empty stages before it and `n` after
it, and every output idle (R98). -/
def State.carrying (f : InFlight) (j n : Nat) (s : State) : State :=
  { s.idle with pipe := List.replicate j none ++ some f :: List.replicate n none, index := s.index + 1 }

/-- A request presented without a pipeline is answered in the same cycle (R19, R93). -/
theorem clock_present_of_comb {r : Request} {s u : State} (h : ∀ b ∈ s.blocks, b.Empty)
    (hfit : r.fits s.params.idxW = true) (hl : s.params.latency = 0) (hu : s.serve r = .next u) :
    s.clock [Pins.present r] = .next { u with peers := s.peers.map (Block.idleOn s.buf) } := by
  obtain ⟨-, -, -, -, hpeers⟩ := serve_frame hu
  have hcycle : s.blockCycle (Pins.present r) s.buf = .next u :=
    (blockCycle_of_comb hl rfl s.buf).trans (complete_of_serve hu)
  rw [clock_singleton_eq h hfit, hcycle, andThen_next, ← hpeers,
    cyclePeers_idle (fun _ => rfl) (hpeers ▸ State.peers_empty h)]

/-- A request presented to a pipelined block enters its first stage with the bytes of that cycle (R99). -/
theorem clock_present_of_pipelined {r : Request} {s : State} (h : ∀ b ∈ s.blocks, b.Empty)
    (hfit : r.fits s.params.idxW = true) {n : Nat} (hl : s.params.latency = n + 1) :
    s.clock [Pins.present r] = .next (s.carrying { host := 0, req := r, bufIn := s.buf } 0 n) := by
  have hpipe : s.pipe = List.replicate n none ++ [none] := by
    rw [← List.replicate_succ', ← hl]
    exact h s.block (by simp)
  rw [clock_singleton_eq h hfit, blockCycle_of_pipelined (by omega) rfl, shiftCycle_of_last_none hpipe, andThen_next]
  exact cyclePeers_idle (s := { s.idleOn s.buf with
    pipe := some { host := 0, req := r, bufIn := s.buf } :: List.replicate n none, index := s.index + 1 })
    (fun _ => rfl) (State.peers_empty (s := s) h) s.buf

section Carrying

variable {f : InFlight} {s : State}

/-- While a request is in flight and nothing is pending, a step is an idle cycle. -/
theorem step_carrying (hlawful : s.lawful = true) (hlive : s.live = true) (hp : s.pending = []) (j n : Nat) :
    step (s.carrying f j n) = (s.carrying f j n).clock [] := by
  have hparams : s.SameParams (s.carrying f j n) := s.sameParams_idle
  exact step_of_nothing_pending (hparams.lawful_eq.trans hlawful) hlive hp

/-- While stages lie ahead of it, an idle cycle moves the request one stage on and changes nothing else (R98). -/
theorem clock_carrying (h : ∀ b ∈ s.blocks, b.Empty) (hl : s.params.latency ≠ 0) (j n : Nat) :
    (s.carrying f j (n + 1)).clock [] = .next (s.carrying f (j + 1) n) := by
  have hpipe : (s.carrying f j (n + 1)).pipe = (List.replicate j none ++ some f :: List.replicate n none) ++ [none] := by
    simp [State.carrying, List.replicate_succ']
  rw [clock_nil_eq, blockCycle_of_pipelined (s := s.carrying f j (n + 1)) hl rfl, shiftCycle_of_last_none hpipe,
    andThen_next]
  exact cyclePeers_idle_again (peers := s.peers) (fun _ => rfl) (State.peers_empty (s := s) h) s.buf
    (s.carrying f (j + 1) n)

/-- From the last stage the request is answered as it would have been when it was issued, and the pipeline is empty again
(R24, R99). -/
theorem clock_carrying_last {host : Nat} {r : Request} {u : State} (h : ∀ b ∈ s.blocks, b.Empty)
    (hu : s.serve r = .next u) {j : Nat} (hl : s.params.latency = j + 1) :
    (s.carrying { host := host, req := r, bufIn := s.buf } j 0).clock [] =
      .next { u with peers := s.peers.map (Block.idleOn s.buf) } := by
  obtain ⟨-, hupipe, hindex, hpending, -⟩ := serve_frame hu
  have hpipe : (s.carrying { host := host, req := r, bufIn := s.buf } j 0).pipe =
      List.replicate j none ++ [some { host := host, req := r, bufIn := s.buf }] := rfl
  have hempty : u.pipe = none :: List.replicate j none := by
    rw [hupipe, ← List.replicate_succ, ← hl]
    exact h s.block (by simp)
  have hstate : { u with
      pipe := stageOf Pins.idle s.buf :: List.replicate j none, index := s.index + 1,
      peers := s.peers.map (Block.idleOn s.buf), pending := s.pending } =
      { u with peers := s.peers.map (Block.idleOn s.buf) } := by
    rw [stageOf_idle, ← hempty, ← hindex, ← hpending]
  have hanswer := complete_of_perform (host := host) (s := s.carrying { host := host, req := r, bufIn := s.buf } j 0)
    (perform_of_other_fields hu _ _ _ _ _)
  rw [clock_nil_eq, blockCycle_of_pipelined (by simp [hl, State.carrying]) rfl,
    shiftCycle_of_last_some hpipe hanswer, andThen_next]
  refine Eq.trans (congrArg (State.cyclePeers [] s.buf (s.peers.map (Block.idleOn s.buf)).length) hstate) ?_
  exact cyclePeers_idle_again (fun _ => rfl) (State.peers_empty (s := s) h) s.buf u

/-- The cycles of a request in flight with `n` stages ahead of it end as the request would have ended when it was issued. -/
theorem run_carrying {host : Nat} {r : Request} {u : State} (hlawful : s.lawful = true) (hlive : s.live = true)
    (hp : s.pending = []) (h : ∀ b ∈ s.blocks, b.Empty) (hu : s.serve r = .next u) {j n : Nat}
    (hl : s.params.latency = j + n + 1) :
    Sys2Proof.core.run (n + 1) (s.carrying { host := host, req := r, bufIn := s.buf } j n) =
      .next { u with peers := s.peers.map (Block.idleOn s.buf) } := by
  induction n generalizing j with
  | zero => exact core_run_one ((step_carrying hlawful hlive hp j 0).trans (clock_carrying_last h hu hl))
  | succ n ih =>
    refine (core_run_succ ((step_carrying hlawful hlive hp j (n + 1)).trans (clock_carrying h ?_ j n))).trans (ih ?_)
    · omega
    · omega

end Carrying

/-- `LATENCY + 1` cycles from a quiet state, a request presented in the first of them, end as serving the request does, with
the other blocks idle (R24, R98, R99). -/
theorem run_present {r : Request} {s u : State} (hs : s.Inv) (hlive : s.live = true) (hq : s.quiet = true)
    (hp : s.pending = []) (hfit : r.fits s.params.idxW = true) (hu : s.serve r = .next u) :
    Sys2Proof.core.run (s.params.latency + 1) { s with pending := [.clock [Pins.present r]] } =
      .next { u with peers := s.peers.map (Block.idleOn s.buf) } := by
  have hempty : ∀ b ∈ s.blocks, b.Empty := fun _ hb => hs.empty_of_quiet hq hb
  have hfirst : step { s with pending := [.clock [Pins.present r]] } = s.clock [Pins.present r] := by
    rw [step_of_clock (s := { s with pending := [.clock [Pins.present r]] }) hs.lawful hlive rfl, ← hp]
  cases hl : s.params.latency with
  | zero => exact core_run_one (hfirst.trans (clock_present_of_comb hempty hfit hl hu))
  | succ n =>
    refine (core_run_succ (hfirst.trans (clock_present_of_pipelined hempty hfit hl))).trans ?_
    exact run_carrying hs.lawful hlive hp hempty hu (by omega)

/-- Settles O48: both runs end in what serving the request gives, with the other blocks idle and nothing pending. -/
theorem pipelinedRequestEqualsUntimedStep : Obligations.PipelinedRequestEqualsUntimedStep := by
  intro s r hs hlive hq hfit
  have hidle : State.Inv { s with pending := [] } := hs.hostSide s.index []
  obtain ⟨u, hu⟩ : ∃ u, State.serve r { s with pending := [] } = .next u :=
    perform_next (s := { s with pending := [], index := s.index + 1 }) hfit
  obtain ⟨-, -, -, hpending, -⟩ := serve_frame hu
  have hissue := step_of_serve (rest := []) (peers := s.peers) hidle.lawful hlive hq rfl hu
  refine (run_present hidle hlive hq rfl hfit hu).trans (Eq.trans ?_ (core_run_one hissue).symm)
  rw [show ([] : List HostAction) = u.pending from hpending.symm]

end Sys2Proof.Machine

/-! The statements of 20_memory.md about who shares the buffer: which requests clash, what a cycle leaves in flight, and when
a cycle or a group races (R33, R42, R102). -/

namespace Sys2Proof.Machine

/-! ### Requests that clash -/

/-- Two requests share a byte exactly when some byte is in both footprints (R33, R42). -/
theorem sharesByte_iff {a b : Posed} :
    sharesByte a b = true ↔ ∃ i, a.footprint.testBit i = true ∧ b.footprint.testBit i = true := by
  simp only [sharesByte, decide_eq_true_eq]
  constructor
  · intro h
    obtain ⟨i, hi⟩ := Nat.exists_testBit_of_ne_zero h
    exact ⟨i, by simpa using hi⟩
  · rintro ⟨i, ha, hb⟩ hzero
    have hi : (a.footprint &&& b.footprint).testBit i = true := by simp [ha, hb]
    simp [hzero] at hi

theorem sharesByte_comm (a b : Posed) : sharesByte a b = sharesByte b a := by
  simp only [sharesByte, Nat.and_comm]

theorem clash_comm (a b : Posed) : clash a b = clash b a := by
  rw [clash, clash, sharesByte_comm, Bool.or_comm]

theorem clash_iff {a b : Posed} :
    clash a b = true ↔ (a.writes = true ∨ b.writes = true) ∧
      ∃ i, a.footprint.testBit i = true ∧ b.footprint.testBit i = true := by
  rw [clash, Bool.and_eq_true, Bool.or_eq_true, sharesByte_iff]

/-- A list of requests does not race exactly when no two of them clash (R42). -/
theorem race_eq_false_iff {ps : List Posed} : race ps = false ↔ ps.Pairwise fun a b => clash a b = false := by
  induction ps with
  | nil => simp [race]
  | cons a ps ih => simp [race, List.pairwise_cons, ih]

/-- The same by the places of two requests in the list. -/
theorem race_eq_true_iff {ps : List Posed} :
    race ps = true ↔ ∃ xs ys zs a b, ps = xs ++ a :: ys ++ b :: zs ∧ clash a b = true := by
  induction ps with
  | nil => simp [race]
  | cons c ps ih =>
    rw [race, Bool.or_eq_true, List.any_eq_true, ih]
    constructor
    · rintro (⟨b, hb, hclash⟩ | ⟨xs, ys, zs, a, b, rfl, hclash⟩)
      · obtain ⟨ys, zs, rfl⟩ := List.append_of_mem hb
        exact ⟨[], ys, zs, c, b, rfl, hclash⟩
      · exact ⟨c :: xs, ys, zs, a, b, rfl, hclash⟩
    · rintro ⟨_ | ⟨x, xs⟩, ys, zs, a, b, heq, hclash⟩
      · obtain ⟨rfl, rfl⟩ := List.cons_eq_cons.mp heq
        exact .inl ⟨b, by simp, hclash⟩
      · obtain ⟨rfl, rfl⟩ := List.cons_eq_cons.mp heq
        exact .inr ⟨xs, ys, zs, a, b, rfl, hclash⟩

/-- Of a list that does not race, no two different requests clash, in whichever order they stand. -/
theorem clash_of_race_eq_false {xs : List Issued} (h : race (xs.map (·.posed)) = false) {x y : Issued} (hx : x ∈ xs)
    (hy : y ∈ xs) (hne : x ≠ y) : clash x.posed y.posed = false := by
  have hsymm : Std.Symm fun x y : Issued => clash x.posed y.posed = false :=
    ⟨fun x y hxy => (clash_comm y.posed x.posed).trans hxy⟩
  exact (List.pairwise_map.mp (race_eq_false_iff.mp h)).forall hx hy hne

theorem Issued.sameStream_comm (x y : Issued) : x.sameStream y = y.sameStream x := by
  simp only [Issued.sameStream, eq_comm]

@[simp] theorem Issued.sameStream_self (x : Issued) : x.sameStream x = true := by simp [Issued.sameStream]

/-! ### What a cycle finds in flight and accepts -/

theorem Driven.mem_flights {d : Driven} {x : Issued} :
    x ∈ d.flights ↔ d.resets = false ∧ ∃ f, some f ∈ d.unit.pipe ∧
      x = { block := d.block, host := f.host, posed := { params := d.unit.params, req := f.req } } := by
  cases h : d.resets <;> simp [Driven.flights, h, Block.mem_inFlight, eq_comm]

theorem Driven.accepted_eq_some {d : Driven} {x : Issued} :
    d.accepted = some x ↔ d.pins.reqValid = true ∧ d.resets = false ∧
      x = { block := d.block, host := d.pins.host, posed := { params := d.unit.params, req := d.pins.req } } := by
  rw [Driven.accepted, Option.ite_none_right_eq_some, Option.some_inj, Bool.and_eq_true, Bool.not_eq_true', and_assoc,
    eq_comm (b := x)]

theorem mem_flightsOf {ds : List Driven} {x : Issued} : x ∈ flightsOf ds ↔ ∃ d ∈ ds, x ∈ d.flights := List.mem_flatMap

theorem mem_acceptedOf {ds : List Driven} {x : Issued} : x ∈ acceptedOf ds ↔ ∃ d ∈ ds, d.accepted = some x :=
  List.mem_filterMap

/-- What is in flight on any block, by the stage that holds it. -/
theorem State.mem_flights {s : State} {x : Issued} :
    x ∈ s.flights ↔ ∃ k b f, s.blocks[k]? = some b ∧ some f ∈ b.pipe ∧
      x = { block := k, host := f.host, posed := { params := b.params, req := f.req } } := by
  rw [State.flights, mem_flightsOf]
  constructor
  · rintro ⟨d, hd, hx⟩
    obtain ⟨k, b, hb, rfl⟩ := State.mem_driven.mp hd
    obtain ⟨-, f, hf, rfl⟩ := Driven.mem_flights.mp hx
    exact ⟨k, b, f, hb, hf, rfl⟩
  · rintro ⟨k, b, f, hb, hf, rfl⟩
    exact ⟨_, State.mem_driven.mpr ⟨k, b, hb, rfl⟩, Driven.mem_flights.mpr ⟨rfl, f, hf, rfl⟩⟩

/-- Pins can only take requests out of flight, by a reset (R94). -/
theorem State.flights_of_driven {ps : List Pins} {s : State} {x : Issued} (h : x ∈ flightsOf (s.driven ps)) :
    x ∈ s.flights := by
  obtain ⟨d, hd, hx⟩ := mem_flightsOf.mp h
  obtain ⟨k, b, hb, rfl⟩ := State.mem_driven.mp hd
  obtain ⟨-, f, hf, rfl⟩ := Driven.mem_flights.mp hx
  exact State.mem_flights.mpr ⟨k, b, f, hb, hf, rfl⟩

/-- A cycle that does not race accepts nothing that clashes with another requester's request in flight (R42). -/
theorem clash_of_racing_eq_false {ds : List Driven} (h : racing ds = false) {x y : Issued} (hx : x ∈ acceptedOf ds)
    (hy : y ∈ flightsOf ds) (hstream : x.sameStream y = false) : clash y.posed x.posed = false := by
  rw [racing, Bool.or_eq_false_iff] at h
  have hnone := List.any_eq_false.mp h.1 x hx
  rw [List.any_eq_true] at hnone
  by_contra hclash
  exact hnone ⟨y, hy, by simpa [hstream] using hclash⟩

theorem race_of_racing_eq_false {ds : List Driven} (h : racing ds = false) :
    race ((acceptedOf ds).map (·.posed)) = false := by
  rw [racing, Bool.or_eq_false_iff] at h
  exact h.2

/-- What is in flight or accepted in a cycle that does not race, on a state of exclusive access, is exclusive (R42). -/
theorem State.Exclusive.of_cycle {ps : List Pins} {s : State} (hs : s.Exclusive)
    (hrace : racing (s.driven ps) = false) {x y : Issued}
    (hx : x ∈ flightsOf (s.driven ps) ∨ x ∈ acceptedOf (s.driven ps))
    (hy : y ∈ flightsOf (s.driven ps) ∨ y ∈ acceptedOf (s.driven ps)) (hstream : x.sameStream y = false) :
    clash x.posed y.posed = false := by
  rcases hx with hx | hx <;> rcases hy with hy | hy
  · exact hs x (State.flights_of_driven hx) y (State.flights_of_driven hy) hstream
  · exact clash_of_racing_eq_false hrace hy hx ((y.sameStream_comm x).trans hstream)
  · rw [clash_comm]
    exact clash_of_racing_eq_false hrace hx hy hstream
  · refine clash_of_race_eq_false (race_of_racing_eq_false hrace) hx hy ?_
    rintro rfl
    simp at hstream

/-! ### What a cycle leaves in flight -/

/-- What a cycle leaves of a block that it drives: its parameters, and in flight only what was there, or what is accepted (R94,
R98). -/
structure Driven.Leaves (d : Driven) (c : Block) : Prop where
  params : c.params = d.unit.params
  stages : ∀ f, some f ∈ c.pipe → d.resets = false ∧
    (some f ∈ d.unit.pipe ∨ (d.pins.reqValid = true ∧ f.host = d.pins.host ∧ f.req = d.pins.req))

theorem blockCycle_leaves {pins : Pins} {m : Memory} {s t : State} (h : s.blockCycle pins m = .next t) (k : Nat) :
    Driven.Leaves { block := k, pins := pins, unit := s.block } t.block := by
  obtain ⟨hparams, -, -⟩ := blockCycle_frame h
  refine ⟨hparams, fun f hf => ?_⟩
  simp only [Driven.resets, State.block_params, State.block_pipe, Bool.and_eq_false_iff] at hf ⊢
  rcases blockCycle_cases h with ⟨hl, -, hcomb⟩ | ⟨hl, -, rfl⟩ | ⟨-, -, rfl⟩ | ⟨-, hr, hshift⟩
  · obtain ⟨-, hpipe, -⟩ := complete_frame hcomb
    exact ⟨.inr (by simp [hl]), .inl (hpipe ▸ hf)⟩
  · exact ⟨.inr (by simp [hl]), .inl hf⟩
  · simp at hf
  · obtain ⟨u, -, rfl⟩ := shiftCycle_cases hshift
    refine ⟨.inl hr, ?_⟩
    rcases List.mem_cons.mp hf with heq | hmem
    · obtain ⟨hvalid, rfl⟩ := stageOf_eq_some heq.symm
      exact .inr ⟨hvalid, rfl, rfl⟩
    · exact .inl (List.mem_of_mem_dropLast hmem)

theorem onPeer_blocks {k : Nat} {f : State → Outcome} {s t : State} (h : s.onPeer k f = .next t) :
    ∃ b u, s.blocks[k + 1]? = some b ∧ f (s.focus b) = .next u ∧ t.blocks = s.blocks.set (k + 1) u.block := by
  obtain ⟨b, u, hb, hu, rfl⟩ := onPeer_cases h
  exact ⟨b, u, hb, hu, rfl⟩

/-- After the cycles of the first `k` other blocks, those are as a cycle leaves them, and the rest are as they were. -/
theorem cyclePeers_leaves {ps : List Pins} {m : Memory} {k : Nat} {s t : State}
    (h : State.cyclePeers ps m k s = .next t) {j : Nat} {c : Block} (hc : t.blocks[j]? = some c) :
    ∃ b, s.blocks[j]? = some b ∧
      ((j = 0 ∨ k < j) ∧ c = b ∨
        (j ≠ 0 ∧ j ≤ k) ∧ Driven.Leaves { block := j, pins := ps.getD j Pins.idle, unit := b } c) := by
  induction k generalizing t j c with
  | zero => cases h; exact ⟨c, hc, .inl ⟨by omega, rfl⟩⟩
  | succ k ih =>
    obtain ⟨u, hu, ht⟩ := cyclePeers_succ h
    obtain ⟨b, v, hb, hv, hblocks⟩ := onPeer_blocks ht
    rw [hblocks] at hc
    by_cases hj : j = k + 1
    · subst hj
      obtain ⟨a, ha, ⟨-, rfl⟩ | ⟨hlt, -⟩⟩ := ih hu hb
      · rw [List.getElem?_set_self (List.getElem?_eq_some_iff.mp hb).1, Option.some.injEq] at hc
        subst hc
        exact ⟨b, ha, .inr ⟨by omega, blockCycle_leaves hv _⟩⟩
      · omega
    · rw [List.getElem?_set_ne (fun e => hj e.symm)] at hc
      obtain ⟨a, ha, ⟨hj', rfl⟩ | ⟨hj', hleaves⟩⟩ := ih hu hc
      · exact ⟨c, ha, .inl ⟨by omega, rfl⟩⟩
      · exact ⟨a, ha, .inr ⟨by omega, hleaves⟩⟩

/-- Every block is as its cycle leaves it, when the state's own and then the others make their cycles. -/
theorem cycle_leaves {ps : List Pins} {m : Memory} {s u t : State}
    (hu : s.blockCycle (ps.getD 0 Pins.idle) m = .next u) (ht : State.cyclePeers ps m s.peers.length u = .next t)
    {j : Nat} {c : Block} (hc : t.blocks[j]? = some c) : ∃ d ∈ s.driven ps, d.block = j ∧ d.Leaves c := by
  obtain ⟨-, -, hpeers⟩ := blockCycle_frame hu
  obtain ⟨b, hb, hcase⟩ := cyclePeers_leaves ht hc
  cases j with
  | zero =>
    obtain rfl : u.block = b := Option.some.inj hb
    obtain ⟨-, rfl⟩ | ⟨hj, -⟩ := hcase
    · exact ⟨_, State.mem_driven.mpr ⟨0, s.block, rfl, rfl⟩, rfl, blockCycle_leaves hu 0⟩
    · omega
  | succ j =>
    have hsb : s.blocks[j + 1]? = some b := by simpa [State.blocks, hpeers] using hb
    have hj : j < s.peers.length := by simpa [State.blocks] using (List.getElem?_eq_some_iff.mp hsb).1
    obtain ⟨hj', -⟩ | ⟨-, hleaves⟩ := hcase
    · omega
    · exact ⟨_, State.mem_driven.mpr ⟨j + 1, b, hsb, rfl⟩, rfl, hleaves⟩

/-- What is in flight after a cycle was in flight in it or is accepted by it (R98). -/
theorem mem_flights_of_cycle {ps : List Pins} {m : Memory} {s u t : State}
    (hu : s.blockCycle (ps.getD 0 Pins.idle) m = .next u) (ht : State.cyclePeers ps m s.peers.length u = .next t)
    {x : Issued} (hx : x ∈ t.flights) : x ∈ flightsOf (s.driven ps) ∨ x ∈ acceptedOf (s.driven ps) := by
  obtain ⟨k, c, f, hc, hf, rfl⟩ := State.mem_flights.mp hx
  obtain ⟨d, hd, rfl, hparams, hstages⟩ := cycle_leaves hu ht hc
  obtain ⟨hreset, hold | ⟨hvalid, hhost, hreq⟩⟩ := hstages f hf
  · exact .inl (mem_flightsOf.mpr ⟨d, hd, Driven.mem_flights.mpr ⟨hreset, f, hold, by rw [hparams]⟩⟩)
  · exact .inr (mem_acceptedOf.mpr ⟨d, hd, Driven.accepted_eq_some.mpr ⟨hvalid, hreset, by rw [hparams, hhost, hreq]⟩⟩)

/-! ### Operations that leave the pipelines alone -/

theorem State.SameUnits.refl (s : State) : s.SameUnits s := rfl

theorem State.SameUnits.trans {s t u : State} (h : s.SameUnits t) (h' : t.SameUnits u) : s.SameUnits u := Eq.trans h' h

/-- Blocks with the same parameters and pipelines have the same requests in flight. -/
theorem State.SameUnits.mem_flights {s t : State} (h : s.SameUnits t) {x : Issued} (hx : x ∈ t.flights) :
    x ∈ s.flights := by
  obtain ⟨k, c, f, hc, hf, rfl⟩ := State.mem_flights.mp hx
  have hkept : (s.blocks.map Block.kept)[k]? = some c.kept := by
    rw [← show t.blocks.map Block.kept = s.blocks.map Block.kept from h, List.getElem?_map, hc, Option.map_some]
  obtain ⟨b, hb, hbc⟩ := Option.map_eq_some_iff.mp (List.getElem?_map ▸ hkept)
  obtain ⟨hparams, hpipe⟩ := Prod.mk.inj hbc
  exact State.mem_flights.mpr ⟨k, b, f, hb, hpipe ▸ hf, by rw [hparams]⟩

theorem State.Exclusive.of_sameUnits {s t : State} (hs : s.Exclusive) (h : s.SameUnits t) : t.Exclusive :=
  fun x hx y hy => hs x (h.mem_flights hx) y (h.mem_flights hy)

theorem State.sameUnits_idle (s : State) : s.SameUnits s.idle :=
  State.sameUnits_iff.mpr ⟨⟨rfl, rfl⟩, map_kept_idleOn s.buf s.peers⟩

theorem State.sameUnits_idlePeers (s : State) : s.SameUnits s.idlePeers :=
  State.sameUnits_iff.mpr ⟨⟨rfl, rfl⟩, map_kept_idleOn s.buf s.peers⟩

theorem serve_sameUnits {r : Request} {s t : State} (h : s.serve r = .next t) : s.SameUnits t := by
  obtain ⟨hparams, hpipe, -, -, hpeers⟩ := serve_frame h
  exact State.sameUnits_iff.mpr ⟨⟨hparams, hpipe⟩, by rw [hpeers]⟩

/-- A request of a group goes through no pipeline, on whichever block it is presented to (R42). -/
theorem onBlock_complete_sameUnits {start : Memory} {x : Member} {s t : State}
    (h : s.onBlock x.block (fun u =>
      State.complete { host := 0, req := x.req, bufIn := start } { u with index := u.index + 1 }) = .next t) :
    s.SameUnits t := by
  cases hk : x.block with
  | zero =>
    rw [hk, State.onBlock_zero] at h
    obtain ⟨hparams, hpipe, -, -, hpeers⟩ := complete_frame h
    exact State.sameUnits_iff.mpr ⟨⟨hparams, hpipe⟩, by rw [hpeers]⟩
  | succ k =>
    rw [hk, State.onBlock_succ] at h
    obtain ⟨b, u, hb, hu, hblocks⟩ := onPeer_blocks h
    obtain ⟨hparams, hpipe, -⟩ := complete_frame hu
    have hkept : u.block.kept = b.kept := Prod.ext hparams hpipe
    obtain ⟨hlt, rfl⟩ := List.getElem?_eq_some_iff.mp hb
    rw [State.SameUnits, hblocks, List.map_set, hkept, ← List.getElem_map Block.kept (h := by simpa using hlt),
      List.set_getElem_self]

theorem together_sameUnits {start : Memory} {ms : List Member} {s t : State} (h : s.together start ms = .next t) :
    s.SameUnits t := by
  induction ms generalizing s with
  | nil => cases h; exact .refl _
  | cons x ms ih =>
    obtain ⟨u, hu, ht⟩ := andThen_eq_next.mp h
    exact (onBlock_complete_sameUnits hu).trans (ih ht)

theorem overlap_sameUnits {ms : List Member} {s t : State} (h : s.overlap ms = .next t) : s.SameUnits t := by
  obtain ⟨-, ⟨-, rfl⟩ | ⟨-, ht⟩⟩ := overlap_cases h
  · exact s.sameUnits_idle
  · exact s.sameUnits_idle.trans (together_sameUnits ht)

theorem access_sameUnits {a : Nat} {new : Option Byte} {s t : State} (h : s.access a new = .next t) :
    s.SameUnits t := by
  obtain ⟨-, ⟨-, rfl⟩ | ⟨-, b, -, rfl⟩ | ⟨-, -, rfl⟩⟩ := access_cases h
  · exact s.sameUnits_idle
  · exact State.sameUnits_idle { s with buf := s.buf.write a b }
  · exact s.sameUnits_idle

/-! ### Steps keep access exclusive -/

/-- A clock cycle keeps access exclusive: a racing one accepts nothing (assumption 13), and any other accepts nothing that
clashes. -/
theorem clock_exclusive {ps : List Pins} {s t : State} (hs : s.Exclusive) (h : s.clock ps = .next t) : t.Exclusive := by
  obtain ⟨-, ⟨-, rfl⟩ | ⟨-, hrace, u, hu, ht⟩⟩ := clock_cases h
  · exact hs.of_sameUnits s.sameUnits_idle
  · exact fun x hx y hy => hs.of_cycle hrace (mem_flights_of_cycle hu ht hx) (mem_flights_of_cycle hu ht hy)

theorem act_exclusive {a : HostAction} {rest : List HostAction} {s t : State} (hs : s.Exclusive)
    (h : s.act a rest = .next t) : t.Exclusive := by
  rcases act_cases h with ⟨-, hwait⟩ | ⟨r, -, -, hissue⟩ | ⟨ms, -, -, hgroup⟩ | ⟨ps, -, hcycle⟩ | ⟨n, new, -, haccess⟩
  · exact clock_exclusive hs hwait
  · exact hs.of_sameUnits
      (s.sameUnits_idlePeers.trans (serve_sameUnits (s := { s.idlePeers with pending := rest }) hissue))
  · exact hs.of_sameUnits (overlap_sameUnits (s := { s with pending := rest }) hgroup)
  · exact clock_exclusive (s := { s with pending := rest }) hs hcycle
  · exact hs.of_sameUnits (access_sameUnits (s := { s with pending := rest }) haccess)

/-- Settles O60: only a clock cycle puts requests in flight, and one that does not race keeps access exclusive. -/
theorem stepsKeepAccessExclusive : Obligations.StepsKeepAccessExclusive := by
  intro s t _ hs h
  obtain ⟨-, -, ⟨-, hclock⟩ | ⟨a, rest, -, hact⟩⟩ := step_cases h
  · exact clock_exclusive hs hclock
  · exact act_exclusive hs hact

/-! ### Groups and cycles that race -/

/-- A group whose blocks exist is its requests, each with the parameters of its own block (R42). -/
theorem State.posed_of_exists {ms : List Member} {s : State} (h : ∀ m ∈ ms, m.block < s.blocks.length) :
    (s.posed ms).length = ms.length ∧ ∀ (i : Nat) (m : Member), ms[i]? = some m →
      ∃ b, s.blocks[m.block]? = some b ∧ (s.posed ms)[i]? = some ⟨b.params, m.req⟩ := by
  induction ms with
  | nil => exact ⟨rfl, fun i m hm => by simp at hm⟩
  | cons m ms ih =>
    obtain ⟨hm, hms⟩ := List.forall_mem_cons.mp h
    obtain ⟨hlength, hget⟩ := ih hms
    have hb : s.blocks[m.block]? = some s.blocks[m.block] := List.getElem?_eq_getElem hm
    have hposed : s.posed (m :: ms) = ⟨s.blocks[m.block].params, m.req⟩ :: s.posed ms :=
      List.filterMap_cons_some (by rw [hb]; rfl)
    rw [hposed]
    refine ⟨congrArg (· + 1) hlength, fun i m' hm' => ?_⟩
    cases i with
    | zero => obtain rfl : m = m' := Option.some.inj hm'; exact ⟨_, hb, rfl⟩
    | succ i => exact hget i m' hm'

/-- A group on blocks that exist sets `faulted` when it races and takes effect when it does not (R42, assumptions 12, 13). -/
theorem overlap_of_exists {ms : List Member} {s : State} (h : ∀ m ∈ ms, m.block < s.blocks.length) :
    s.overlap ms = if race (s.posed ms) then .next { s.idle with faulted := some .race } else s.idle.together s.buf ms := by
  have hexists : (ms.any fun m => decide (s.blocks.length ≤ m.block)) = false := by simpa using h
  simp [State.overlap, hexists]

/-- A cycle that races sets `faulted` and performs nothing (R42, assumption 13). -/
theorem clock_of_racing {ps : List Pins} {s : State} (ho : (s.driven ps).any Driven.overflows = false)
    (hr : racing (s.driven ps) = true) :
    s.clock ps = .next { s.idle with
      faulted := some .race
      refused := if hazardous (s.driven ps) then some .hazard else s.refused } := by
  simp [State.clock, ho, hr]

/-- An accepted request that clashes with another requester's, in flight or accepted on another block, makes the cycle race
(R42). -/
theorem racing_of_clash {ds : List Driven} {x y : Issued} (hx : x ∈ acceptedOf ds)
    (hy : (y ∈ flightsOf ds ∧ (x.block ≠ y.block ∨ x.host ≠ y.host)) ∨ (y ∈ acceptedOf ds ∧ x.block ≠ y.block))
    (hclash : clash x.posed y.posed = true) : racing ds = true := by
  by_contra hr
  rw [Bool.not_eq_true] at hr
  have hno : clash x.posed y.posed = false := by
    rcases hy with ⟨hy, hother⟩ | ⟨hy, hother⟩
    · have hstream : x.sameStream y = false := by simpa [Issued.sameStream, imp_iff_not_or] using hother
      rw [clash_comm]
      exact clash_of_racing_eq_false hr hx hy hstream
    · exact clash_of_race_eq_false (race_of_racing_eq_false hr) hx hy fun heq => hother (congrArg _ heq)
  simp [hclash] at hno

/-- Settles O51. -/
theorem overlappingWritesRace : Obligations.OverlappingWritesRace := by
  refine ⟨fun ms s hexists => ?_, fun s ps x y ho hx hy hwrites hshared => ?_⟩
  · obtain ⟨hlength, hget⟩ := State.posed_of_exists hexists
    refine ⟨hlength, hget, fun ⟨xs, ys, zs, a, b, heq, hwrites, hshared⟩ => ?_, fun hfree => ?_⟩
    · have hrace := race_eq_true_iff.mpr ⟨xs, ys, zs, a, b, heq, clash_iff.mpr ⟨hwrites, hshared⟩⟩
      rw [overlap_of_exists hexists, if_pos hrace]
      exact ⟨_, rfl, rfl, rfl, rfl⟩
    · have hrace : ¬ race (s.posed ms) = true := fun hr => by
        obtain ⟨xs, ys, zs, a, b, heq, hclash⟩ := race_eq_true_iff.mp hr
        obtain ⟨hwrites, i, hi⟩ := clash_iff.mp hclash
        exact hfree xs ys zs a b heq hwrites i hi
      rw [overlap_of_exists hexists, if_neg hrace]
  · exact ⟨_, clock_of_racing ho (racing_of_clash hx hy (clash_iff.mpr ⟨hwrites, hshared⟩)), rfl, rfl, rfl⟩

end Sys2Proof.Machine

/-! The statements of 20_memory.md about bits, fields and footprints (R28, R30, R33, R43). -/

namespace Sys2Proof.Machine

/-! ### Bit positions -/

/-- A bit position reads the bit of weight `2^(7 - p mod 8)` (R28). -/
theorem bitAt_eq_decide (m : Memory) (p : Nat) :
    bitAt m p = decide ((m.read (p / 8)).toNat / 2 ^ (7 - p % 8) % 2 = 1) :=
  Nat.testBit_eq_decide_div_mod_eq

theorem setByteBit_eq (b : Byte) (k : Nat) (x : Bool) :
    setByteBit b k x = ((b &&& ~~~(1#8 <<< k)) ||| ((if x then 1#8 else 0#8) <<< k)) := by
  cases x <;> rfl

/-- Settles O16. -/
theorem bitPositionsCountFromTheMostSignificantBit : Obligations.BitPositionsCountFromTheMostSignificantBit := by
  refine fun m p hwf => ⟨bitAt_eq_decide m p, fun x => ⟨?_, fun q => bitAt_setBit hwf p q x, fun a ha => ?_⟩⟩
  · rw [setBit, Memory.read_write_same hwf, setByteBit_eq]
  · exact read_setBit_other m x ha

/-! ### Aligned fields -/

/-- A field is its high bits, moved up, and its low bits (R65). -/
theorem readField_add (m : Memory) (s k l : Nat) :
    readField m s (k + l) = readField m s k * 2 ^ l + readField m (s + k) l := by
  induction l with
  | zero => simp
  | succ l ih =>
    rw [← Nat.add_assoc, readField_succ, readField_succ, ih, ← Nat.add_assoc s k l, Nat.pow_succ]
    ring

/-- The 8-bit field at a byte is the byte (R30). -/
theorem readField_byte (m : Memory) (b : Nat) : readField m (8 * b) 8 = (m.read b).toNat := by
  refine Nat.eq_of_testBit_eq fun j => ?_
  rw [testBit_readField]
  by_cases hj : j < 8
  · rw [bitAt, show (8 * b + 8 - 1 - j) / 8 = b by omega, show 7 - (8 * b + 8 - 1 - j) % 8 = j by omega]
    simp [hj, BitVec.getLsbD]
  · rw [BitVec.testBit_toNat, BitVec.getLsbD_of_ge _ _ (by omega)]
    simp [hj]

/-- A byte-aligned field is the big-endian number of its bytes (R30). -/
theorem readField_aligned (m : Memory) (b k : Nat) :
    readField m (8 * b) (8 * k) = (List.range k).foldl (fun v j => v * 2 ^ 8 + (m.read (b + j)).toNat) 0 := by
  induction k with
  | zero => rfl
  | succ k ih =>
    rw [Nat.mul_succ, readField_add, ← Nat.mul_add, readField_byte, ih, List.range_succ, List.foldl_concat]

/-- The first byte of a wider aligned field is its most significant byte (R30). -/
theorem readField_aligned_div (m : Memory) (b : Nat) {k : Nat} (hk : 0 < k) :
    readField m (8 * b) (8 * k) / 2 ^ (8 * (k - 1)) = (m.read b).toNat := by
  rw [show 8 * k = 8 + 8 * (k - 1) by omega, readField_add, readField_byte, Nat.add_comm,
    Nat.add_mul_div_right _ _ (Nat.two_pow_pos _), Nat.div_eq_of_lt (readField_lt m _ _), Nat.zero_add]

/-- Settles O25: the example's field is the two bytes 0x00 and 0x54. -/
theorem alignedFieldsAreBigEndian : Obligations.AlignedFieldsAreBigEndian := by
  refine ⟨readField_aligned, fun m b k hk => ⟨readField_byte m b, readField_aligned_div m b hk⟩, ?_⟩
  rw [readField_aligned _ 2 2]
  simp [List.range_succ, Memory.read_ofBytes]

/-! ### Footprints -/

/-- The number of bytes of a footprint (R33). -/
theorem footprint_count (s : Nat) {l : Nat} (hl : 0 < l) :
    lastByte s l - firstByte s + 1 = (s % 8 + l + 7) / 8 := by
  unfold lastByte firstByte
  omega

/-- Settles O26. -/
theorem footprintIsTheOverlappedBytes : Obligations.FootprintIsTheOverlappedBytes := by
  refine ⟨footprint_zero, fun s l hl => ⟨fun i => ?_, footprint_count s hl, ?_, fun hwidth => ?_⟩⟩
  · simp [testBit_footprint_iff, hl]
  · rw [footprint_count s hl]
    omega
  · rw [footprint_count s hl]
    omega

/-- Settles O53: both footprints are byte 0, and each of the two responses carries its own half of the byte alone. -/
theorem disjointBitsOfOneByteStillClash : Obligations.DisjointBitsOfOneByteStillClash := by
  unfold Obligations.DisjointBitsOfOneByteStillClash
  decide

end Sys2Proof.Machine

/-! The statements of 20_memory.md about requests that do not clash: they commute, and a group of them is a serial run (R34,
R35, R41, R42). The key fact is that a request reads and writes the bytes of its footprint alone. -/

namespace Sys2Proof.Machine

/-! ### A request and its footprint -/

/-- Two buffers have the same bytes in a footprint (R33). -/
def Memory.AgreeOn (enables : Nat) (m m' : Memory) : Prop :=
  ∀ a, enables.testBit a = true → m.read a = m'.read a

theorem Memory.AgreeOn.refl (enables : Nat) (m : Memory) : m.AgreeOn enables m := fun _ _ => rfl

theorem Memory.AgreeOn.symm {enables : Nat} {m m' : Memory} (h : m.AgreeOn enables m') : m'.AgreeOn enables m :=
  fun a ha => (h a ha).symm

theorem Memory.AgreeOn.trans {enables : Nat} {m m' m'' : Memory} (h : m.AgreeOn enables m')
    (h' : m'.AgreeOn enables m'') : m.AgreeOn enables m'' :=
  fun a ha => (h a ha).trans (h' a ha)

/-- A request whose instruction resolves covers the bytes of its range, and a request that ends in an error covers none (R33,
R82): what a request answers, with its footprint. -/
theorem perform_footprint_cases {r : Request} {s t : State} (h : State.perform r s = .next t) :
    (∃ i st l, decodeRequest s.params.idxW r = .ok i ∧ resolveFor s.params i.form i.width i.lo i.hi = .ok (st, l) ∧
        Posed.footprint ⟨s.params, r⟩ = footprint st l ∧ t = s.takeOk (okResponse i s.buf st l)) ∨
      (∃ i e, decodeRequest s.params.idxW r = .ok i ∧ resolveFor s.params i.form i.width i.lo i.hi = .error e ∧
        t = s.takeError e i.chk) ∨
      (decodeRequest s.params.idxW r = .error (.illegalControl r.ctl) ∧ t = s.takeIllegal) := by
  rcases perform_cases h with ⟨i, hdecode, hexec⟩ | hillegal
  · rcases exec_cases hexec with ⟨st, l, hresolve, rfl⟩ | ⟨e, hresolve, rfl⟩
    · exact .inl ⟨i, st, l, hdecode, hresolve, by simp [Posed.footprint, instrFootprint, hdecode, hresolve], rfl⟩
    · exact .inr (.inl ⟨i, e, hdecode, hresolve, rfl⟩)
  · exact .inr (.inr hillegal)

theorem Posed.writes_of_decode {p : Params} {r : Request} {i : Instr} (h : decodeRequest p.idxW r = .ok i) :
    Posed.writes ⟨p, r⟩ = decide (i.op = .write) := by
  simp [Posed.writes, h]

/-- A request enables for writing only bytes of its footprint, and only when it is a write (R34, R35, R37). -/
theorem perform_byteWe {r : Request} {s t : State} (h : State.perform r s = .next t) {a : Nat}
    (ha : t.rsp.byteWe.testBit a = true) :
    Posed.writes ⟨s.params, r⟩ = true ∧ (Posed.footprint ⟨s.params, r⟩).testBit a = true := by
  rcases perform_footprint_cases h with ⟨i, st, l, hdecode, -, hfoot, rfl⟩ | ⟨i, e, -, -, rfl⟩ | ⟨-, rfl⟩
  · rw [Posed.writes_of_decode hdecode, hfoot]
    cases hop : i.op with
    | read => simp [okResponse_read hop] at ha
    | write => exact ⟨rfl, by simpa [okResponse_write hop] using ha⟩
  · simp at ha
  · simp at ha

/-- A request changes no byte that it does not write (R34). -/
theorem perform_read_other {r : Request} {s t : State} (hwf : s.buf.wf = true) (h : State.perform r s = .next t) {a : Nat}
    (ha : ¬(Posed.writes ⟨s.params, r⟩ = true ∧ (Posed.footprint ⟨s.params, r⟩).testBit a = true)) :
    t.buf.read a = s.buf.read a := by
  rw [← commit_of_perform h, read_commit hwf]
  exact if_neg fun ⟨_, hwe⟩ => ha (perform_byteWe h hwe)

/-- A request that does not write over the footprint of another leaves it as it was (R42). -/
theorem perform_agreeOn {r : Request} {x : Posed} {s t : State} (hwf : s.buf.wf = true)
    (h : State.perform r s = .next t)
    (hfree : Posed.writes ⟨s.params, r⟩ = true → sharesByte ⟨s.params, r⟩ x = false) :
    s.buf.AgreeOn x.footprint t.buf := by
  refine fun a ha => (perform_read_other hwf h fun ⟨hwrites, hcovers⟩ => ?_).symm
  have hshares : sharesByte ⟨s.params, r⟩ x = true := sharesByte_iff.mpr ⟨a, hcovers, ha⟩
  simp [hfree hwrites] at hshares

theorem not_sharesByte_of_clash {x y : Posed} (h : clash x y = false) (hx : x.writes = true) :
    sharesByte x y = false := by
  simpa [clash, hx] using h

/-- A field inside a footprint on which two buffers agree reads alike in both (R66). -/
theorem readField_of_agreeOn {m m' : Memory} {s l : Nat} (h : m.AgreeOn (footprint s l) m') :
    readField m s l = readField m' s l :=
  readField_congr fun k hk => bitAt_congr (h _ (testBit_footprint_iff.mpr (by omega)))

/-- A field written in buffers that agree on its footprint leaves them so (R72). -/
theorem writeField_agreeOn {m m' : Memory} (hm : m.wf = true) (hm' : m'.wf = true) {s l : Nat}
    (h : m.AgreeOn (footprint s l) m') (v : Nat) :
    (writeField m s l v).AgreeOn (footprint s l) (writeField m' s l v) := by
  refine fun a ha => read_eq_of_bits fun q hlo hhi => ?_
  rw [bitAt_writeField hm, bitAt_writeField hm', bitAt_congr (show m.read (q / 8) = m'.read (q / 8) from ?_)]
  rw [show q / 8 = a by omega]
  exact h a ha

/-- Two responses with the same ports but for the bytes of `rsp_buf_out` that are not enabled (R18, R20). -/
structure Response.Agrees (r r' : Response) : Prop where
  rdValue : r'.rdValue = r.rdValue
  err : r'.err = r.err
  fault : r'.fault = r.fault
  byteWe : r'.byteWe = r.byteWe
  written : r.bufOut.AgreeOn r.byteWe r'.bufOut

/-- Responses that agree on what they write are committed alike (R20). -/
theorem Response.Agrees.commit_eq {r r' : Response} (h : r.Agrees r') (n : Nat) (m : Memory) :
    commit n m r' = commit n m r := by
  induction n with
  | zero => rfl
  | succ n ih =>
    rw [commit, commit, ih, h.byteWe]
    split
    · next hwe => rw [h.written n hwe]
    · rfl

theorem okResponse_agrees {i : Instr} {m m' : Memory} (hm : m.wf = true) (hm' : m'.wf = true) {st l : Nat}
    (h : m.AgreeOn (footprint st l) m') : (okResponse i m st l).Agrees (okResponse i m' st l) := by
  cases hop : i.op with
  | read =>
    rw [okResponse_read hop, okResponse_read hop]
    exact ⟨by simp [readField_of_agreeOn h], rfl, rfl, rfl, fun a ha => by simp at ha⟩
  | write =>
    rw [okResponse_write hop, okResponse_write hop]
    exact ⟨rfl, rfl, rfl, rfl, writeField_agreeOn hm hm' h _⟩

theorem Response.ofError_agrees (m m' : Memory) (code : BitVec 2) (fault : Bool) :
    (Response.ofError m code fault).Agrees (Response.ofError m' code fault) :=
  ⟨rfl, rfl, rfl, rfl, fun a ha => by simp at ha⟩

/-- What a request answers and writes is decided by the bytes of its footprint (R34, R35, R70). -/
theorem perform_agrees {r : Request} {s s' t : State} (hparams : s'.params = s.params) (hwf : s.buf.wf = true)
    (hwf' : s'.buf.wf = true) (hbuf : s.buf.AgreeOn (Posed.footprint ⟨s.params, r⟩) s'.buf)
    (h : State.perform r s = .next t) :
    ∃ t', State.perform r s' = .next t' ∧ t.rsp.Agrees t'.rsp ∧
      ∃ os, t.observed = s.observed ++ os ∧ t'.observed = s'.observed ++ os := by
  rcases perform_footprint_cases h with
    ⟨i, st, l, hdecode, hresolve, hfoot, rfl⟩ | ⟨i, e, hdecode, hresolve, rfl⟩ | ⟨hdecode, rfl⟩ <;>
    rw [← hparams] at hdecode
  · rw [← hparams] at hresolve
    rw [hfoot] at hbuf
    have hrsp := okResponse_agrees (i := i) hwf hwf' hbuf
    exact ⟨_, (perform_of_ok hdecode).trans (exec_of_ok hresolve), hrsp, _, rfl, by simp [hrsp.rdValue]⟩
  · rw [← hparams] at hresolve
    exact ⟨_, (perform_of_ok hdecode).trans (exec_of_error hresolve), Response.ofError_agrees .., _, rfl, rfl⟩
  · exact ⟨_, perform_of_illegal hdecode, Response.ofError_agrees .., [], by simp, by simp⟩

/-- A request sets a mark exactly when it drives `rsp_fault` (R79, R81). -/
theorem perform_live {r : Request} {s t : State} (h : State.perform r s = .next t) :
    t.live = (s.live && !t.rsp.fault) := by
  rcases perform_cases h with ⟨i, -, hexec⟩ | ⟨-, rfl⟩
  · rcases exec_cases hexec with ⟨st, l, -, rfl⟩ | ⟨e, -, rfl⟩
    · simp
    · simp [rangeFault, Bool.and_comm]
  · simp

theorem live_of_agrees {r : Request} {s s' t t' : State} (h : State.perform r s = .next t)
    (h' : State.perform r s' = .next t') (hrsp : t.rsp.Agrees t'.rsp) (hlive : s'.live = s.live) : t'.live = t.live := by
  rw [perform_live h, perform_live h', hrsp.fault, hlive]

/-! ### Requests that commute -/

/-- Commits of different bytes can be made in either order (R42). -/
theorem commit_comm {n : Nat} {m : Memory} (hm : m.wf = true) {r r' : Response}
    (h : ∀ a, ¬(r.byteWe.testBit a = true ∧ r'.byteWe.testBit a = true)) :
    commit n (commit n m r) r' = commit n (commit n m r') r := by
  refine Memory.ext (wf_commit (wf_commit hm n r) n r') (wf_commit (wf_commit hm n r') n r) fun a => ?_
  rw [read_commit (wf_commit hm n r), read_commit hm, read_commit (wf_commit hm n r'), read_commit hm]
  by_cases hr : a < n ∧ r.byteWe.testBit a = true
  · have hr' : ¬(a < n ∧ r'.byteWe.testBit a = true) := fun hr' => h a ⟨hr.2, hr'.2⟩
    rw [if_neg hr', if_pos hr, if_pos hr]
  · rw [if_neg hr, if_neg hr]

/-- Requests that do not clash write different bytes (R42). -/
theorem byteWe_disjoint_of_clash {a b : Request} {s s' t u : State} (hparams : s'.params = s.params)
    (hclash : clash ⟨s.params, a⟩ ⟨s.params, b⟩ = false) (ht : State.perform a s = .next t)
    (hu : State.perform b s' = .next u) (i : Nat) : ¬(t.rsp.byteWe.testBit i = true ∧ u.rsp.byteWe.testBit i = true) := by
  rintro ⟨hi, hi'⟩
  obtain ⟨hwrites, hcovers⟩ := perform_byteWe ht hi
  obtain ⟨-, hcovers'⟩ := perform_byteWe hu hi'
  rw [hparams] at hcovers'
  simp [clash_iff.mpr ⟨.inl hwrites, i, hcovers, hcovers'⟩] at hclash

/-- Settles O52: each request finds the bytes of its own footprint as it would have found them in the other order, and the two
write different bytes. -/
theorem nonClashingRequestsCommute : Obligations.NonClashingRequestsCommute := by
  intro a b s t u hs hlive hclash ht htlive hu hulive
  have hclash' : clash ⟨s.params, b⟩ ⟨s.params, a⟩ = false := (clash_comm _ _).trans hclash
  have hwf : s.buf.wf = true := (Memory.good_iff.mp hs.buf).1
  have htinv := perform_goodStep hs ht
  have hwft : t.buf.wf = true := (Memory.good_iff.mp htinv.inv.buf).1
  have htbuf : s.buf.AgreeOn (Posed.footprint ⟨s.params, b⟩) t.buf :=
    perform_agreeOn hwf ht (not_sharesByte_of_clash hclash)
  obtain ⟨t', ht', hrspb, -⟩ := perform_agrees htinv.params.symm hwft hwf (htinv.params.symm ▸ htbuf.symm) hu
  have htinv' := perform_goodStep hs ht'
  have hwft' : t'.buf.wf = true := (Memory.good_iff.mp htinv'.inv.buf).1
  have htbuf' : s.buf.AgreeOn (Posed.footprint ⟨s.params, a⟩) t'.buf :=
    perform_agreeOn hwf ht' (not_sharesByte_of_clash hclash')
  obtain ⟨u', hu', hrspa, -⟩ := perform_agrees htinv'.params hwf hwft' htbuf' ht
  have htlive' : t'.live = true := (live_of_agrees hu ht' hrspb (hlive.trans htlive.symm)).trans hulive
  have hulive' : u'.live = true := (live_of_agrees ht hu' hrspa (htlive'.trans hlive.symm)).trans htlive
  refine ⟨t', u', ht', htlive', hu', hulive', ?_, hrspb.rdValue, hrspb.err, hrspa.rdValue, hrspa.err⟩
  calc u'.buf
      = commit s.params.nBytes (commit s.params.nBytes s.buf u.rsp) t.rsp := by
        rw [← commit_of_perform hu', ← commit_of_perform ht', htinv'.params, hrspa.commit_eq, hrspb.commit_eq]
    _ = commit s.params.nBytes (commit s.params.nBytes s.buf t.rsp) u.rsp :=
        (commit_comm hwf (byteWe_disjoint_of_clash htinv.params hclash ht hu)).symm
    _ = u.buf := by rw [commit_of_perform ht, ← htinv.params, commit_of_perform hu]

/-! ### A request that sampled the buffer before -/

/-- Two states of runs in which the same has happened: the same buffer, observations and marks, on the same parameters. -/
structure State.SameRun (s t : State) : Prop where
  params : s.params = t.params
  buf : s.buf = t.buf
  observed : s.observed = t.observed
  live : s.live = t.live

/-- Completing a request on an earlier sample is performing it now, when the sample still has the bytes of its footprint (R41,
R99). -/
theorem complete_sameRun {f : InFlight} {s s' t : State} (hrun : s.SameRun s') (hwf : s'.buf.wf = true)
    (hwf' : f.bufIn.wf = true) (hsample : s'.buf.AgreeOn (Posed.footprint ⟨s'.params, f.req⟩) f.bufIn)
    (h : State.perform f.req s' = .next t) : ∃ u, s.complete f = .next u ∧ u.SameRun t := by
  obtain ⟨u, hu, hrsp, os, hobs, hobs'⟩ := perform_agrees (s' := { s with buf := f.bufIn }) hrun.params hwf hwf' hsample h
  have hbuf : commit s.params.nBytes s.buf u.rsp = t.buf := by
    rw [hrsp.commit_eq, hrun.params, hrun.buf, commit_of_perform h]
  have hlive : u.live = t.live := live_of_agrees h hu hrsp hrun.live
  obtain ⟨huparams, -⟩ := perform_frame hu
  obtain ⟨htparams, -⟩ := perform_frame h
  refine ⟨{ u with buf := commit s.params.nBytes s.buf u.rsp }, ?_, ?_, hbuf, ?_, hlive⟩
  · rw [State.complete, hu, andThen_next]
  · exact huparams.trans (hrun.params.trans htparams.symm)
  · exact hobs'.trans ((congrArg (· ++ os) hrun.observed).trans hobs.symm)

/-- A list of requests that ends with no mark set is its first request, which sets none, and then the others (R25). -/
theorem serveAll_cons_of_live {r : Request} {rs : List Request} {s t : State} (h : s.serveAll (r :: rs) = .next t)
    (hlive : t.live = true) : ∃ u, s.serve r = .next u ∧ u.live = true ∧ u.serveAll rs = .next t := by
  obtain ⟨u, hu, ht⟩ := andThen_eq_next.mp h
  split at ht
  · next hulive => exact ⟨u, hu, hulive, ht⟩
  · next hmarked => cases ht; exact absurd hlive hmarked

theorem serveAll_index {rs : List Request} {s t : State} (h : s.serveAll rs = .next t) (hlive : t.live = true) :
    t.index = s.index + rs.length := by
  induction rs generalizing s with
  | nil => cases h; rfl
  | cons r rs ih =>
    obtain ⟨u, hu, -, ht⟩ := serveAll_cons_of_live h hlive
    obtain ⟨-, -, hindex, -, -⟩ := serve_frame hu
    rw [ih ht, hindex, List.length_cons]
    omega

/-! ### A group that does not race -/

/-- Requests of a group, each of which finds the bytes of its footprint in the group's sample as they still are, end as the
same requests served one after the other (R41, R42). -/
theorem together_of_serveAll {rs : List Request} {start : Memory} {v w t : State} (hrun : v.SameRun w) (hw : w.Inv)
    (hstart : start.wf = true)
    (hsample : ∀ r ∈ rs, w.buf.AgreeOn (Posed.footprint ⟨w.params, r⟩) start)
    (hrace : race (rs.map fun r => { params := w.params, req := r }) = false) (h : w.serveAll rs = .next t)
    (hlive : t.live = true) :
    ∃ u, v.together start (rs.map fun r => { block := 0, req := r }) = .next u ∧ u.SameRun t ∧
      u.index = v.index + rs.length := by
  induction rs generalizing v w with
  | nil => cases h; exact ⟨v, rfl, hrun, rfl⟩
  | cons r rs ih =>
    obtain ⟨w', hserve, -, hrest⟩ := serveAll_cons_of_live h hlive
    have hwf : w.buf.wf = true := (Memory.good_iff.mp hw.buf).1
    have hgood := perform_goodStep (hw.hostSide (w.index + 1) w.pending) hserve
    have hparams : w'.params = w.params := hgood.params
    rw [List.map_cons, race_eq_false_iff, List.pairwise_cons, List.forall_mem_map] at hrace
    obtain ⟨hfirst, hothers⟩ := hrace
    obtain ⟨v', hv', hrun'⟩ := complete_sameRun (f := { host := 0, req := r, bufIn := start })
      (s := { v with index := v.index + 1 }) (s' := { w with index := w.index + 1 })
      ⟨hrun.params, hrun.buf, hrun.observed, hrun.live⟩ hwf hstart (hsample r List.mem_cons_self) hserve
    have hkept : ∀ q ∈ rs, w.buf.AgreeOn (Posed.footprint ⟨w.params, q⟩) w'.buf := fun q hq =>
      perform_agreeOn (s := { w with index := w.index + 1 }) hwf hserve (not_sharesByte_of_clash (hfirst q hq))
    obtain ⟨u, hu, husame, hindex⟩ := ih hrun' hgood.inv
      (fun q hq => hparams.symm ▸ (hkept q hq).symm.trans (hsample q (List.mem_cons_of_mem r hq)))
      (hparams.symm ▸ race_eq_false_iff.mpr hothers) hrest
    obtain ⟨-, -, hvindex, -, -⟩ := complete_frame hv'
    refine ⟨u, andThen_eq_next.mpr ⟨v', hv', hu⟩, husame, ?_⟩
    rw [hindex, hvindex, List.length_cons]
    dsimp only
    omega

/-- The requests of a group on the state's own block (R42). -/
theorem State.posed_own (rs : List Request) (s : State) :
    s.posed (rs.map fun r => { block := 0, req := r }) = rs.map fun r => { params := s.params, req := r } := by
  simp [State.posed, State.blocks, List.filterMap_map, Function.comp_def]

/-- Settles O59: all requests of the group sample the buffer as the group finds it, of which none changes the footprint of
another. -/
theorem raceFreeGroupEqualsSerialRun : Obligations.RaceFreeGroupEqualsSerialRun := by
  intro rs s t hs hlive hrace h htlive
  have hwf : s.buf.wf = true := (Memory.good_iff.mp hs.buf).1
  have hidle : s.idle.SameRun s := ⟨rfl, rfl, rfl, rfl⟩
  obtain ⟨u, hu, ⟨-, hbuf, hobserved, hulive⟩, hindex⟩ :=
    together_of_serveAll hidle hs hwf (fun r _ => .refl _ _) hrace h htlive
  refine ⟨u, ?_, hbuf, hobserved, hindex.trans (serveAll_index h htlive).symm, hulive.trans htlive⟩
  have hexists : ∀ m ∈ rs.map fun r => ({ block := 0, req := r } : Member), m.block < s.blocks.length := by
    simp [State.blocks]
  rw [overlap_of_exists hexists, State.posed_own, hrace]
  exact hu

end Sys2Proof.Machine

/-! The statement of 20_memory.md about a pipelined stream of requests: without a hazard it is the serial run (R41, R101,
R103). The stream is a list with an entry for each cycle, of which the oldest `LATENCY` entries are the pipeline's stages and the
rest is still to be presented; a cycle takes the oldest entry away. -/

namespace Sys2Proof.Machine

/-! ### Streams without a hazard -/

/-- `b` may be accepted while `a` is in flight (R101). -/
def NoHazard (p : Params) (a b : Request) : Prop :=
  Posed.writes ⟨p, a⟩ = true → sharesByte ⟨p, a⟩ ⟨p, b⟩ = false

/-- A stream, oldest entry first, an entry being what a cycle presents: no request is within `LATENCY` cycles after one over
whose footprint it must not be issued (R101). -/
def HazardFree (p : Params) : List (Option Request) → Prop
  | [] => True
  | x :: xs => (∀ a, x = some a → ∀ b, some b ∈ xs.take p.latency → NoHazard p a b) ∧ HazardFree p xs

theorem HazardFree.tail {p : Params} {xs : List (Option Request)} (h : HazardFree p xs) : HazardFree p xs.tail := by
  cases xs with
  | nil => exact h
  | cons x xs => exact h.2

/-- In a stream without a hazard, an entry may be accepted while the `LATENCY` entries before it are in flight. -/
theorem HazardFree.noHazard {p : Params} {xs ys : List (Option Request)} {a b : Request}
    (h : HazardFree p (xs ++ some b :: ys)) (hlength : xs.length ≤ p.latency) (ha : some a ∈ xs) : NoHazard p a b := by
  induction xs with
  | nil => simp at ha
  | cons x xs ih =>
    rw [List.cons_append] at h
    obtain ⟨hfirst, hrest⟩ := h
    rw [List.length_cons] at hlength
    rcases List.mem_cons.mp ha with heq | hmem
    · refine hfirst a heq.symm b ?_
      rw [List.take_append, List.mem_append]
      refine .inr ?_
      rw [List.take_cons (by omega)]
      exact List.mem_cons_self
    · exact ih hrest (by omega) hmem

/-- Cycles that present nothing add no hazard before a stream. -/
theorem hazardFree_replicate_append {p : Params} {xs : List (Option Request)} (h : HazardFree p xs) (n : Nat) :
    HazardFree p (List.replicate n none ++ xs) := by
  induction n with
  | zero => exact h
  | succ n ih =>
    rw [List.replicate_succ, List.cons_append]
    exact ⟨nofun, ih⟩

/-- R101's condition by the places of two requests in a list, as a stream that presents nothing after the list. -/
theorem hazardFree_of_getElem? {p : Params} {rs : List Request}
    (h : ∀ (i j : Nat) (a b : Request), i < j → j ≤ i + p.latency → rs[i]? = some a → rs[j]? = some b → NoHazard p a b)
    (n : Nat) : HazardFree p (rs.map some ++ List.replicate n none) := by
  induction rs with
  | nil =>
    have hnil : HazardFree p [] := trivial
    simpa using hazardFree_replicate_append hnil n
  | cons r rs ih =>
    rw [List.map_cons, List.cons_append]
    refine ⟨fun a ha b hb => ?_, ih fun i j a b hij hj hi hb => h (i + 1) (j + 1) a b (by omega) (by omega) hi hb⟩
    obtain rfl : r = a := Option.some.inj ha
    obtain ⟨k, hk⟩ := List.mem_iff_getElem?.mp hb
    rw [List.getElem?_take] at hk
    split at hk
    · next hlt =>
      have hrs : rs[k]? = some b := by
        rw [List.getElem?_append] at hk
        split at hk
        · simpa using hk
        · simp [List.getElem?_replicate] at hk
      exact h 0 (k + 1) r b (by omega) (by omega) rfl hrs
    · cases hk

/-- A request that is performed was one that the ports can carry (R18). -/
theorem fits_of_perform {r : Request} {s t : State} (h : State.perform r s = .next t) :
    r.fits s.params.idxW = true := by
  by_contra hfits
  simp [State.perform, decodeRequest, hfits] at h

theorem fits_of_serveAll {rs : List Request} {s t : State} (h : s.serveAll rs = .next t) (hlive : t.live = true)
    {r : Request} (hr : r ∈ rs) : r.fits s.params.idxW = true := by
  induction rs generalizing s with
  | nil => simp at hr
  | cons q rs ih =>
    obtain ⟨u, hu, -, hrest⟩ := serveAll_cons_of_live h hlive
    rcases List.mem_cons.mp hr with rfl | hmem
    · exact fits_of_perform (s := { s with index := s.index + 1 }) hu
    · obtain ⟨hparams, -⟩ := serve_frame hu
      exact hparams ▸ ih hrest hmem

/-! ### What a cycle presents -/

/-- The pins of a cycle that presents a request to the state's own block, or nothing to any. -/
def pinsOf : Option Request → List Pins
  | some r => [Pins.present r]
  | none => []

theorem pinsOf_succ (x : Option Request) (k : Nat) : (pinsOf x).getD (k + 1) Pins.idle = Pins.idle := by
  cases x <;> rfl

theorem pinsOf_rst (x : Option Request) : ((pinsOf x).getD 0 Pins.idle).rst = false := by cases x <;> rfl

theorem pinsOf_reqValid (x : Option Request) : ((pinsOf x).getD 0 Pins.idle).reqValid = x.isSome := by cases x <;> rfl

theorem stageOf_pinsOf (x : Option Request) (m : Memory) :
    stageOf ((pinsOf x).getD 0 Pins.idle) m = x.map fun r => { host := 0, req := r, bufIn := m } := by
  cases x <;> rfl

/-- A cycle that presents a request to the state's own block accepts that one and no other. -/
theorem acceptedOf_present (r : Request) (s : State) :
    acceptedOf (s.driven [Pins.present r]) =
      [{ block := 0, host := 0, posed := { params := s.params, req := r } }] := by
  obtain ⟨ds, hdriven, hidle⟩ := s.driven_singleton (Pins.present r)
  have hfirst : Driven.accepted { block := 0, pins := Pins.present r, unit := s.block } =
      some { block := 0, host := 0, posed := { params := s.params, req := r } } :=
    Driven.accepted_eq_some.mpr ⟨rfl, rfl, rfl⟩
  rw [hdriven, acceptedOf, List.filterMap_cons_some hfirst, ← acceptedOf, acceptedOf_of_idle hidle]

/-! ### The stream in the pipeline -/

/-- The state `v` in a run of the pipelined stream `line`, whose serial run ends in `t`: the stages hold the oldest entries, each
sample still has the bytes of its request's footprint, and the buffer and the observations are those of a serial run that has `line`
left. -/
structure State.Streaming (v : State) (line : List (Option Request)) (t : State) : Prop where
  inv : v.Inv
  live : v.live = true
  pipelined : v.params.latency ≠ 0
  peers : ∀ b ∈ v.peers, b.Empty
  stages : v.pipe.reverse.map (Option.map (·.req)) = line.take v.params.latency
  hosts : ∀ f, some f ∈ v.pipe → f.host = 0
  samples : ∀ f, some f ∈ v.pipe → v.buf.AgreeOn (Posed.footprint ⟨v.params, f.req⟩) f.bufIn
  hazardFree : HazardFree v.params line
  serial : ∃ w, v.SameRun w ∧ w.serveAll line.reduceOption = .next t

section Streaming

variable {line rest : List (Option Request)} {x : Option Request} {t v : State}

theorem State.Streaming.mem_take (h : v.Streaming line t) {f : InFlight} (hf : some f ∈ v.pipe) :
    some f.req ∈ line.take v.params.latency := by
  rw [← h.stages]
  exact List.mem_map.mpr ⟨some f, List.mem_reverse.mpr hf, rfl⟩

/-- In a cycle, what is in flight is on the state's own block and of its one host. -/
theorem State.Streaming.mem_flights (h : v.Streaming line t) {ps : List Pins} {y : Issued}
    (hy : y ∈ flightsOf (v.driven ps)) :
    ∃ f, some f ∈ v.pipe ∧ y = { block := 0, host := 0, posed := { params := v.params, req := f.req } } := by
  obtain ⟨k, b, f, hb, hf, rfl⟩ := State.mem_flights.mp (State.flights_of_driven hy)
  cases k with
  | zero =>
    obtain rfl : v.block = b := Option.some.inj hb
    exact ⟨f, hf, by rw [h.hosts f hf]; rfl⟩
  | succ k =>
    rw [h.peers b (List.mem_of_getElem? hb)] at hf
    simp at hf

/-- A request of the stream that is presented in its cycle meets no hazard and no race (R42, R101). -/
theorem State.Streaming.clock_eq (h : v.Streaming line t) (hlive : t.live = true)
    (hx : line.drop v.params.latency = x :: rest) :
    v.clock (pinsOf x) = andThen (v.blockCycle ((pinsOf x).getD 0 Pins.idle) v.buf)
      (State.cyclePeers (pinsOf x) v.buf v.peers.length) := by
  cases x with
  | none => exact clock_nil_eq v
  | some r =>
    have hline : line = line.take v.params.latency ++ some r :: rest := by rw [← hx, List.take_append_drop]
    obtain ⟨w, hrun, hserial⟩ := h.serial
    have hfits : r.fits v.params.idxW = true := by
      rw [hrun.params]
      refine fits_of_serveAll hserial hlive (List.reduceOption_mem_iff.mpr ?_)
      rw [hline]
      simp
    have haccepted := acceptedOf_present r v
    refine clock_of_calm (State.pinsFit_iff.mp (State.pinsFit_singleton hfits)) ?_ ?_
    · rw [hazardous, pinsOf, haccepted, List.any_cons, List.any_nil, Bool.or_false, List.any_eq_false]
      intro y hy hhazard
      obtain ⟨f, hf, rfl⟩ := h.mem_flights hy
      have hnone : NoHazard v.params f.req r :=
        (hline ▸ h.hazardFree).noHazard (by simp) (h.mem_take hf)
      simp only [Issued.sameStream, Bool.and_eq_true] at hhazard
      obtain ⟨-, hwrites, hshares⟩ := hhazard
      simp [hnone hwrites] at hshares
    · rw [racing, pinsOf, haccepted, List.any_cons, List.any_nil, Bool.or_false]
      have hsame : (flightsOf (v.driven [Pins.present r])).any (fun y =>
          !Issued.sameStream { block := 0, host := 0, posed := { params := v.params, req := r } } y &&
            clash y.posed { params := v.params, req := r }) = false := by
        refine List.any_eq_false.mpr fun y hy => ?_
        obtain ⟨f, -, rfl⟩ := h.mem_flights hy
        simp [Issued.sameStream]
      rw [hsame]
      simp [race]

/-- What is left of the stream `line` at `v` once its oldest entry has responded, with the state `u`: the serial run has performed
it, and it changed no byte that a later request in the pipeline, or one presented in this cycle, covers (R41). -/
structure State.Passes (v : State) (line : List (Option Request)) (t u : State) : Prop where
  params : u.params = v.params
  pending : u.pending = v.pending
  live : u.live = true
  serial : ∃ w, u.SameRun w ∧ w.serveAll line.tail.reduceOption = .next t
  kept : ∀ r, some r ∈ line.tail.take v.params.latency → v.buf.AgreeOn (Posed.footprint ⟨v.params, r⟩) u.buf

/-- The oldest entry leaves the pipeline as the serial run performs it. -/
theorem State.Streaming.retire (h : v.Streaming line t) (hlive : t.live = true) (hline : line ≠ []) :
    ∃ u, v.retire v.buf = .next u ∧ u.peers = v.peers ∧ v.Passes line t u := by
  obtain ⟨y, later, rfl⟩ := List.exists_cons_of_ne_nil hline
  obtain ⟨n, hn⟩ := Nat.exists_eq_succ_of_ne_zero h.pipelined
  obtain ⟨w, hrun, hserial⟩ := h.serial
  obtain ⟨last, newer, hpipe, rfl, -⟩ : ∃ last newer, v.pipe.reverse = last :: newer ∧ last.map (·.req) = y ∧
      newer.map (Option.map (·.req)) = later.take n := by
    have hstages := h.stages
    rw [hn, List.take_succ_cons] at hstages
    exact List.map_eq_cons_iff.mp hstages
  have hlast : v.pipe.getLast? = some last := by rw [← List.head?_reverse, hpipe]; rfl
  cases last with
  | none =>
    refine ⟨v.idleOn v.buf, by simp [State.retire, hlast], rfl, rfl, rfl, h.live, ⟨w, ?_, hserial⟩, fun r _ => .refl _ _⟩
    exact ⟨hrun.params, hrun.buf, hrun.observed, hrun.live⟩
  | some f =>
    obtain ⟨w', hserve, hwlive, hrest⟩ := serveAll_cons_of_live hserial hlive
    have hmem : some f ∈ v.pipe := List.mem_of_getLast? hlast
    obtain ⟨-, hgood⟩ := h.inv.pipeGood
    have hwf : w.buf.wf = true := hrun.buf ▸ (Memory.good_iff.mp h.inv.buf).1
    have hsample : w.buf.AgreeOn (Posed.footprint ⟨w.params, f.req⟩) f.bufIn :=
      hrun.params ▸ hrun.buf ▸ h.samples f hmem
    obtain ⟨u, hu, hsame⟩ := complete_sameRun (f := f) (s := v) (s' := { w with index := w.index + 1 })
      ⟨hrun.params, hrun.buf, hrun.observed, hrun.live⟩ hwf (Memory.good_iff.mp (hgood f hmem).2).1 hsample hserve
    obtain ⟨hparams, -, -, hpending, hpeers⟩ := complete_frame hu
    refine ⟨u, by simp [State.retire, hlast, hu], hpeers, hparams, hpending, hsame.live.trans hwlive, ⟨w', hsame, hrest⟩,
      fun r hr => ?_⟩
    rw [hrun.buf, hsame.buf]
    refine perform_agreeOn (s := { w with index := w.index + 1 }) hwf hserve ?_
    exact hrun.params ▸ h.hazardFree.1 f.req rfl r hr

/-- A cycle of the stream: the oldest entry leaves, the stages shift, and what the cycle presents enters (R98). -/
theorem State.Streaming.clock (h : v.Streaming line t) (hlive : t.live = true)
    (hx : line.drop v.params.latency = x :: rest) :
    ∃ u, v.clock (pinsOf x) = .next u ∧ v.Passes line t u ∧ u.peers = v.peers.map (Block.idleOn v.buf) ∧
      u.pipe = (x.map fun r => { host := 0, req := r, bufIn := v.buf }) :: v.pipe.dropLast ∧
      u.index = if x.isSome then v.index + 1 else v.index := by
  obtain ⟨u, hretire, hpeers, hpass⟩ := h.retire hlive fun hnil => by simp [hnil] at hx
  have hcycle : v.blockCycle ((pinsOf x).getD 0 Pins.idle) v.buf = .next { u with
      pipe := (x.map fun r => { host := 0, req := r, bufIn := v.buf }) :: v.pipe.dropLast
      index := if x.isSome then v.index + 1 else v.index } := by
    rw [blockCycle_of_pipelined h.pipelined (pinsOf_rst x), State.shiftCycle, hretire, andThen_next, stageOf_pinsOf,
      pinsOf_reqValid]
  have hothers : ∀ c : State, c.peers = v.peers →
      State.cyclePeers (pinsOf x) v.buf v.peers.length c = .next { c with peers := v.peers.map (Block.idleOn v.buf) } := by
    intro c hc
    rw [← hc]
    exact cyclePeers_idle (pinsOf_succ x) (hc ▸ h.peers) v.buf
  rw [h.clock_eq hlive hx, hcycle, andThen_next]
  refine ⟨_, hothers _ ?_, ?_, rfl, rfl, rfl⟩
  · exact hpeers
  · obtain ⟨w, hrun, hserial⟩ := hpass.serial
    exact ⟨hpass.params, hpass.pending, hpass.live, ⟨w, ⟨hrun.params, hrun.buf, hrun.observed, hrun.live⟩, hserial⟩,
      hpass.kept⟩

/-- After a shift the stages hold the oldest entries of what is left. -/
theorem State.Streaming.stages_shift (h : v.Streaming line t) (hx : line.drop v.params.latency = x :: rest) (m : Memory) :
    ((x.map fun r => ({ host := 0, req := r, bufIn := m } : InFlight)) :: v.pipe.dropLast).reverse.map
      (Option.map (·.req)) = line.tail.take v.params.latency := by
  obtain ⟨n, hn⟩ := Nat.exists_eq_succ_of_ne_zero h.pipelined
  have holder : v.pipe.dropLast.reverse.map (Option.map (·.req)) = line.tail.take n := by
    rw [← List.tail_reverse, List.map_tail, h.stages, hn, ← List.drop_one, List.drop_take, List.drop_one,
      Nat.succ_sub_one]
  have hnext : line.tail[n]? = some x := by
    rw [List.getElem?_tail, ← Nat.succ_eq_add_one, ← hn, ← List.head?_drop, hx, List.head?_cons]
  rw [List.reverse_cons, List.map_append, holder, hn, List.take_add_one, hnext]
  cases x <;> rfl

/-- After a cycle the rest of the stream goes on. -/
theorem State.Streaming.cycle (h : v.Streaming line t) (hlive : t.live = true)
    (hx : line.drop v.params.latency = x :: rest) :
    ∃ u, v.clock (pinsOf x) = .next u ∧ u.Streaming line.tail t ∧ u.params = v.params ∧ u.pending = v.pending ∧
      u.index = if x.isSome then v.index + 1 else v.index := by
  obtain ⟨u, hclock, hpass, hpeers, hpipe, hindex⟩ := h.clock hlive hx
  have hstages : u.pipe.reverse.map (Option.map (·.req)) = line.tail.take v.params.latency :=
    hpipe ▸ h.stages_shift hx v.buf
  have hentered : ∀ f, some f ∈ u.pipe → (f.host = 0 ∧ f.bufIn = v.buf) ∨ some f ∈ v.pipe := by
    intro f hf
    rw [hpipe] at hf
    rcases List.mem_cons.mp hf with heq | hmem
    · obtain ⟨r, -, rfl⟩ := Option.map_eq_some_iff.mp heq.symm
      exact .inl ⟨rfl, rfl⟩
    · exact .inr (List.mem_of_mem_dropLast hmem)
  refine ⟨u, hclock, ?_, hpass.params, hpass.pending, hindex⟩
  refine
    { inv := (clock_goodStep h.inv hclock).inv, live := hpass.live, serial := hpass.serial
      pipelined := hpass.params ▸ h.pipelined
      peers := hpeers ▸ List.forall_mem_map.mpr fun b hb => (h.peers b hb).idleOn v.buf
      stages := hpass.params ▸ hstages
      hosts := fun f hf => (hentered f hf).elim (·.1) (h.hosts f)
      samples := fun f hf => ?_
      hazardFree := ?_ }
  · have hentry : some f.req ∈ line.tail.take v.params.latency :=
      hstages ▸ List.mem_map.mpr ⟨some f, List.mem_reverse.mpr hf, rfl⟩
    have hsample : v.buf.AgreeOn (Posed.footprint ⟨v.params, f.req⟩) f.bufIn := by
      rcases hentered f hf with ⟨-, hnew⟩ | hold
      · exact hnew ▸ .refl _ _
      · exact h.samples f hold
    rw [hpass.params]
    exact (hpass.kept f.req hentry).symm.trans hsample
  · rw [hpass.params]
    exact h.hazardFree.tail

/-- What the host does next is no part of the stream in the pipeline. -/
theorem State.Streaming.hostSide (h : v.Streaming line t) (pending : List HostAction) :
    State.Streaming { v with pending := pending } line t :=
  { h with
    inv := h.inv.hostSide v.index pending
    serial := let ⟨w, hrun, hserial⟩ := h.serial
      ⟨w, ⟨hrun.params, hrun.buf, hrun.observed, hrun.live⟩, hserial⟩ }

/-- A step of the stream: the host presents its next request, or has none left and presents nothing (assumption 7). -/
theorem State.Streaming.step (h : v.Streaming line t) (hlive : t.live = true)
    (hx : line.drop v.params.latency = x :: rest) {pending : List HostAction}
    (hp : v.pending = (x.map fun r => HostAction.clock [Pins.present r]).toList ++ pending)
    (hnone : x = none → pending = []) :
    ∃ u, step v = .next u ∧ u.Streaming line.tail t ∧ u.params = v.params ∧ u.pending = pending ∧
      u.index = if x.isSome then v.index + 1 else v.index := by
  have hstep : Sys2Proof.Machine.step v = State.clock (pinsOf x) { v with pending := pending } := by
    cases x with
    | none =>
      obtain rfl := hnone rfl
      rw [step_of_nothing_pending h.inv.lawful h.live hp, ← show v.pending = [] from hp]
      rfl
    | some r => exact step_of_clock h.inv.lawful h.live hp
  rw [hstep]
  exact (h.hostSide pending).cycle hlive hx

/-- The steps of the cycles that present nothing, after the last request. -/
theorem State.Streaming.drain (h : v.Streaming line t) (hlive : t.live = true) (hp : v.pending = []) {n : Nat}
    (hline : line.drop v.params.latency = List.replicate n none) :
    ∃ u, Sys2Proof.core.run n v = .next u ∧ u.Streaming (line.drop n) t ∧ u.params = v.params ∧ u.index = v.index := by
  induction n generalizing line v with
  | zero => exact ⟨v, rfl, h, rfl, rfl⟩
  | succ n ih =>
    obtain ⟨u, hstep, hu, hparams, hpending, hindex⟩ := h.step (x := none) (rest := List.replicate n none) hlive hline
      hp fun _ => rfl
    obtain ⟨u', hrun, hu', hparams', hindex'⟩ := ih hu hpending
      (by rw [hparams, List.drop_tail, ← List.tail_drop, hline, List.replicate_succ, List.tail_cons])
    exact ⟨u', (core_run_succ hstep).trans hrun, List.drop_tail ▸ hu', hparams'.trans hparams, hindex'.trans hindex⟩

/-- The steps of the cycles that present the requests of a list and then `n` times nothing. -/
theorem State.Streaming.run (h : v.Streaming line t) (hlive : t.live = true) {rs : List Request}
    (hp : v.pending = rs.map fun r => .clock [Pins.present r]) {n : Nat}
    (hline : line.drop v.params.latency = rs.map some ++ List.replicate n none) :
    ∃ u, Sys2Proof.core.run (rs.length + n) v = .next u ∧ u.Streaming (line.drop (rs.length + n)) t ∧
      u.params = v.params ∧ u.index = v.index + rs.length := by
  induction rs generalizing line v with
  | nil =>
    rw [List.length_nil, Nat.zero_add]
    exact h.drain hlive hp hline
  | cons r rs ih =>
    obtain ⟨u, hstep, hu, hparams, hpending, hindex⟩ := h.step (x := some r) hlive hline hp nofun
    obtain ⟨u', hrun, hu', hparams', hindex'⟩ := ih hu hpending
      (by rw [hparams, List.drop_tail, ← List.tail_drop, hline, List.map_cons, List.cons_append, List.tail_cons])
    rw [List.length_cons, Nat.add_right_comm]
    refine ⟨u', (core_run_succ hstep).trans hrun, List.drop_tail ▸ hu', hparams'.trans hparams, ?_⟩
    rw [hindex', hindex, Option.isSome_some, if_pos rfl]
    omega

/-- A stream whose entries have all left is the serial run's end, with nothing in flight. -/
theorem State.Streaming.finished {n : Nat} (h : v.Streaming (List.replicate n none) t) :
    v.SameRun t ∧ v.quiet = true := by
  constructor
  · obtain ⟨w, hrun, hserial⟩ := h.serial
    rw [List.reduceOption_replicate_none] at hserial
    obtain rfl : w = t := Host.Outcome.next.inj hserial
    exact hrun
  · refine List.all_eq_true.mpr fun b hb => List.all_eq_true.mpr fun x hx => ?_
    rcases (State.mem_blocks v b).mp hb with rfl | hpeer
    · cases x with
      | none => rfl
      | some f => exact absurd (List.mem_of_mem_take (h.mem_take hx)) (by simp)
    · rw [h.peers b hpeer] at hx
      rw [(List.mem_replicate.mp hx).2]
      rfl

end Streaming

/-- Settles O49: the stream begins with an empty pipeline, its requests follow one per cycle, and `LATENCY` more cycles present
nothing. -/
theorem hazardFreePipelineIsSequential : Obligations.HazardFreePipelineIsSequential := by
  intro rs s t hs hlive hq hl hfree hserve htlive
  have hempty : ∀ b ∈ s.blocks, b.Empty := fun b hb => hs.empty_of_quiet hq hb
  have hpipe : s.pipe = List.replicate s.params.latency none := hempty s.block (by simp)
  have hstart : s.Streaming (List.replicate s.params.latency none ++
      (rs.map some ++ List.replicate s.params.latency none)) t :=
    { inv := hs, live := hlive, pipelined := hl, peers := State.peers_empty hempty
      stages := by simp [hpipe]
      hosts := fun f hf => by simp [hpipe] at hf
      samples := fun f hf => by simp [hpipe] at hf
      hazardFree := hazardFree_replicate_append (hazardFree_of_getElem? hfree _) _
      serial := ⟨s, ⟨rfl, rfl, rfl, rfl⟩, by
        simpa [List.reduceOption_append, List.reduceOption_replicate_none, List.reduceOption] using hserve⟩ }
  obtain ⟨u, hrun, hend, -, hindex⟩ := (hstart.hostSide (rs.map fun r => .clock [Pins.present r])).run htlive (rs := rs) rfl
    (n := s.params.latency) (by simp)
  have hline : (List.replicate s.params.latency none ++ (rs.map some ++ List.replicate s.params.latency none)).drop
      (rs.length + s.params.latency) = List.replicate s.params.latency (none : Option Request) := by
    simp [List.drop_append]
  obtain ⟨⟨-, hbuf, hobserved, hulive⟩, hquiet⟩ := State.Streaming.finished (hline ▸ hend)
  exact ⟨u, hrun, hbuf, hobserved, hindex.trans (serveAll_index hserve htlive).symm, hquiet, hulive.trans htlive⟩

end Sys2Proof.Machine

/-! The statements of 30_encoding.md about words and requests: the packed word and its fields, the decoder's answers, and the
reserved control bytes (R48 to R54). -/

namespace Sys2Proof

/-! ### The packed word -/

/-- A request's packed word, field by field from the lowest up (R48). -/
theorem Request.pack_eq (idxW : Nat) (r : Request) :
    r.pack idxW = r.ctl.toNat + 2 ^ 8 * (r.lo + 2 ^ idxW * (r.hi + 2 ^ idxW * r.wval.toNat)) := by
  rw [Request.pack, two_mul]
  ring

theorem Request.fits_iff {idxW : Nat} {r : Request} : r.fits idxW = true ↔ r.lo < 2 ^ idxW ∧ r.hi < 2 ^ idxW := by
  simp [Request.fits]

/-- All fields but `wval` fit in the `8 + 2*IDX_W` bits below it (R48). -/
theorem Request.bounds_lt {idxW : Nat} {r : Request} (h : r.fits idxW = true) :
    r.ctl.toNat + 2 ^ 8 * (r.lo + 2 ^ idxW * r.hi) < 2 ^ (8 + 2 * idxW) := by
  obtain ⟨hlo, hhi⟩ := Request.fits_iff.mp h
  calc r.ctl.toNat + 2 ^ 8 * (r.lo + 2 ^ idxW * r.hi)
    _ < 2 ^ 8 * (2 ^ idxW * 2 ^ idxW) := Nat.add_mul_lt_mul_of_lt_of_lt r.ctl.isLt (Nat.add_mul_lt_mul_of_lt_of_lt hlo hhi)
    _ = 2 ^ (8 + 2 * idxW) := by ring

/-- The packed word as its `wval` on top of the other fields. -/
theorem Request.pack_eq_bounds_add (idxW : Nat) (r : Request) :
    r.pack idxW = r.ctl.toNat + 2 ^ 8 * (r.lo + 2 ^ idxW * r.hi) + 2 ^ (8 + 2 * idxW) * r.wval.toNat := by
  rw [Request.pack]
  ring

/-- The packed word of a request that the ports carry has `REQ_W` bits (R48). -/
theorem Request.pack_lt {idxW : Nat} {r : Request} (h : r.fits idxW = true) : r.pack idxW < 2 ^ reqW idxW :=
  calc r.pack idxW
    _ = r.ctl.toNat + 2 ^ 8 * (r.lo + 2 ^ idxW * r.hi) + 2 ^ (8 + 2 * idxW) * r.wval.toNat := r.pack_eq_bounds_add idxW
    _ < 2 ^ (8 + 2 * idxW) * 2 ^ 128 := Nat.add_mul_lt_mul_of_lt_of_lt (Request.bounds_lt h) r.wval.isLt
    _ = 2 ^ reqW idxW := by rw [reqW]; ring

/-- With `wval` at 0, the packed word keeps the bits below `wval` alone. -/
theorem Request.pack_of_wval_zero {idxW : Nat} {r : Request} (h : r.fits idxW = true) :
    Request.pack idxW { r with wval := 0 } = r.pack idxW % 2 ^ (8 + 2 * idxW) := by
  rw [Request.pack_eq_bounds_add, Request.pack_eq_bounds_add, Nat.add_mul_mod_self_left,
    Nat.mod_eq_of_lt (Request.bounds_lt h)]
  rfl

/-- The fields of a word, each by dividing by the fields below it in turn. -/
theorem Request.unpack_eq (idxW w : Nat) :
    Request.unpack idxW w =
      { ctl := BitVec.ofNat 8 w
        lo := w / 2 ^ 8 % 2 ^ idxW
        hi := w / 2 ^ 8 / 2 ^ idxW % 2 ^ idxW
        wval := BitVec.ofNat 128 (w / 2 ^ 8 / 2 ^ idxW / 2 ^ idxW) } := by
  simp only [Request.unpack, Nat.div_div_eq_div_mul, ← Nat.pow_add, two_mul, Nat.add_assoc]

/-- Dividing by a field's base drops the field and leaves what stands above it. -/
theorem add_mul_div_of_lt {a b x : Nat} (h : a < b) : (a + b * x) / b = x := by
  rw [Nat.add_mul_div_left _ _ (Nat.zero_lt_of_lt h), Nat.div_eq_of_lt h, Nat.zero_add]

/-- The fields of a packed word are the request's own. -/
theorem Request.unpack_pack {idxW : Nat} {r : Request} (h : r.fits idxW = true) :
    Request.unpack idxW (r.pack idxW) = r := by
  obtain ⟨hlo, hhi⟩ := Request.fits_iff.mp h
  have hctl : r.ctl.toNat < 2 ^ 8 := r.ctl.isLt
  have hword : BitVec.ofNat 8 (r.pack idxW) = r.ctl := by
    apply BitVec.eq_of_toNat_eq
    rw [BitVec.toNat_ofNat, Request.pack_eq, Nat.add_mul_mod_self_left, Nat.mod_eq_of_lt hctl]
  rw [Request.unpack_eq, hword, Request.pack_eq, add_mul_div_of_lt hctl, add_mul_div_of_lt hlo, add_mul_div_of_lt hhi,
    Nat.add_mul_mod_self_left, Nat.add_mul_mod_self_left, Nat.mod_eq_of_lt hlo, Nat.mod_eq_of_lt hhi,
    BitVec.ofNat_toNat, BitVec.setWidth_eq]

/-- A word of `REQ_W` bits is packed from its fields. -/
theorem Request.pack_unpack {idxW w : Nat} (h : w < 2 ^ reqW idxW) : (Request.unpack idxW w).pack idxW = w := by
  have htop : w / 2 ^ 8 / 2 ^ idxW / 2 ^ idxW < 2 ^ 128 := by
    rw [Nat.div_div_eq_div_mul, Nat.div_div_eq_div_mul]
    refine Nat.div_lt_of_lt_mul (h.trans_eq ?_)
    rw [reqW]
    ring
  rw [Request.pack_eq, Request.unpack_eq]
  simp only [BitVec.toNat_ofNat, Nat.mod_eq_of_lt htop, Nat.mod_add_div]

/-! ### Rows and operands -/

/-- A made read carries no write value (R52). -/
theorem make_read_wval (form : RangeForm) (w : Width) (chk : Bool) (lo hi : Nat) (v : Value) :
    (Instr.make .read form w chk lo hi v).wval = 0 := by
  cases form <;> cases w <;> rfl

/-- Making a read ignores the write value (R52). -/
theorem make_read_ignores_wval (form : RangeForm) (w : Width) (chk : Bool) (lo hi : Nat) (v v' : Value) :
    Instr.make .read form w chk lo hi v = Instr.make .read form w chk lo hi v' := by
  cases form <;> cases w <;> rfl

theorem Instr.wval_of_read {i : Instr} (h : i.op = .read) : i.wval = 0 := by
  have hmake := Laws.make_self i
  rw [h] at hmake
  exact (congrArg Instr.wval hmake).symm.trans (make_read_wval _ _ _ _ _ _)

/-- A row's `match` byte, its three fields joined as R53 writes them. -/
theorem rowMatch_eq_or (op : Op) (form : RangeForm) (w : Width) :
    rowMatch op form w = BitVec.ofNat 8 ((w.wsel <<< 3) ||| (form.bit <<< 1) ||| op.bit) := by
  cases op <;> cases form <;> cases w <;> rfl

/-! ### The decoder's answers -/

/-- A request decodes to an instruction exactly when the ports carry it and it is the request that presents the instruction,
but for the `wval` of a read (R51, R52). -/
theorem decodeRequest_eq_ok_iff {idxW : Nat} {r : Request} {i : Instr} :
    decodeRequest idxW r = .ok i ↔
      r.fits idxW = true ∧ r.ctl = i.ctl ∧ r.lo = i.lo ∧ r.hi = i.hi ∧ (i.op = .write → r.wval = i.wval) := by
  constructor
  · intro h
    unfold decodeRequest at h
    split at h
    · next hfits =>
      split at h
      · next op form chk w hctl =>
        cases h
        obtain ⟨hop, hform, hw, hchk, hlo, hhi⟩ := Laws.make_fields op form w chk r.lo r.hi r.wval
        refine ⟨hfits, ?_, hlo.symm, hhi.symm, fun hwrite => ?_⟩
        · rw [Instr.ctl, hop, hform, hw, hchk]
          exact Laws.rowMatch_of_decodeControl hctl
        · obtain rfl : op = .write := hop.symm.trans hwrite
          exact (Laws.make_wval form w chk r.lo r.hi r.wval).symm
      · cases h
    · cases h
  · rintro ⟨hfits, hctl, hlo, hhi, hwval⟩
    have hdecode : decodeRequest idxW r = .ok (Instr.make i.op i.form i.width i.chk i.lo i.hi r.wval) := by
      rw [decodeRequest, if_pos hfits, hctl, Laws.decodeControl_ctl, hlo, hhi]
    have hmake : Instr.make i.op i.form i.width i.chk i.lo i.hi r.wval = i := by
      refine Eq.trans ?_ (Laws.make_self i)
      cases hop : i.op with
      | read => exact make_read_ignores_wval _ _ _ _ _ _ _
      | write => rw [hwval hop]
    rw [hdecode, hmake]

/-- The request that presents a well-formed instruction decodes to it. -/
theorem decodeRequest_request {idxW : Nat} {i : Instr} (h : i.wf idxW = true) :
    decodeRequest idxW i.request = .ok i :=
  decodeRequest_eq_ok_iff.mpr ⟨h, rfl, rfl, rfl, fun _ => rfl⟩

/-- A request that the ports carry raises `IllegalControl` exactly for the control bytes from 0x28 on (R54, R79). -/
theorem decodeRequest_eq_illegal_iff {idxW : Nat} {r : Request} (h : r.fits idxW = true) :
    decodeRequest idxW r = .error (.illegalControl r.ctl) ↔ 0x28 ≤ r.ctl.toNat := by
  rw [← Laws.decodeControl_eq_none, decodeRequest, if_pos h]
  cases decodeControl r.ctl <;> simp

/-- A request that the ports carry names an instruction exactly for the control bytes below 0x28 (R53). -/
theorem exists_decodeRequest_eq_ok_iff {idxW : Nat} {r : Request} (h : r.fits idxW = true) :
    (∃ i, decodeRequest idxW r = .ok i) ↔ r.ctl.toNat < 0x28 := by
  rw [← Nat.not_le, ← Laws.decodeControl_eq_none, decodeRequest, if_pos h]
  cases decodeControl r.ctl <;> simp

theorem decode_eq_ok_iff {idxW w : Nat} {i : Instr} :
    decode idxW w = .ok i ↔ w < 2 ^ reqW idxW ∧ decodeRequest idxW (Request.unpack idxW w) = .ok i := by
  unfold decode
  split <;> simp_all

/-- The control bytes with `RSV` not 00 or a reserved `WSEL` are the values from 0x28 on (R54). -/
theorem reserved_iff (c : Byte) : (c.toNat / 64 ≠ 0 ∨ 5 ≤ c.toNat / 8 % 8) ↔ 0x28 ≤ c.toNat := by
  have := c.isLt
  omega

end Sys2Proof

namespace Sys2Proof.Machine

/-- Settles O1: the encoder's word is the packed request of the instruction, whose fields the decoder finds again. -/
theorem decodeOfEncodeIsTheInstruction : Obligations.DecodeOfEncodeIsTheInstruction := by
  intro idxW i hwf
  have hfits : i.request.fits idxW = true := hwf
  have hlt : encode idxW i < 2 ^ reqW idxW := Request.pack_lt hfits
  refine ⟨hlt, decode_eq_ok_iff.mpr ⟨hlt, ?_⟩⟩
  rw [encode, Request.unpack_pack hfits]
  exact decodeRequest_request hwf

/-- Settles O2: the fields of the word are those of the instruction's request, but for the `wval` of a read. -/
theorem encodeOfDecodeIsTheWord : Obligations.EncodeOfDecodeIsTheWord := by
  intro idxW w i h
  obtain ⟨hlt, hreq⟩ := decode_eq_ok_iff.mp h
  obtain ⟨hfits, hctl, hlo, hhi, hwval⟩ := decodeRequest_eq_ok_iff.mp hreq
  refine ⟨wf_of_decodeRequest hreq, fun hop => ?_, fun hop => ?_⟩
  · have : i.request = Request.unpack idxW w := by rw [Instr.request, ← hctl, ← hlo, ← hhi, ← hwval hop]
    rw [encode, this, Request.pack_unpack hlt]
  · have : i.request = { Request.unpack idxW w with wval := 0 } := by
      rw [Instr.request, ← hctl, ← hlo, ← hhi, Instr.wval_of_read hop]
    rw [encode, this, Request.pack_of_wval_zero hfits, Request.pack_unpack hlt]

/-- Settles O3: each listed byte is the control byte of the instruction listed with it. -/
theorem opcodeMapNamesFortyControlBytes : Obligations.OpcodeMapNamesFortyControlBytes := by
  constructor
  · intro idxW lo hi wval hlo hhi c hc
    refine decodeRequest_eq_ok_iff.mpr ⟨Request.fits_iff.mpr ⟨hlo, hhi⟩, ?_⟩
    fin_cases hc <;> exact ⟨rfl, rfl, rfl, by rintro ⟨⟩ <;> rfl⟩
  · intro idxW r hfits
    constructor
    · have := reserved_iff r.ctl
      rw [exists_decodeRequest_eq_ok_iff hfits]
      omega
    · intro i hi
      obtain ⟨-, hctl, -⟩ := decodeRequest_eq_ok_iff.mp hi
      rw [hctl, ← rowMatch_eq_or]
      exact (Laws.rowMatch_masked i.op i.form i.width i.chk).1

/-- Settles O4: performing a request with a reserved control byte takes `IllegalControl`. -/
theorem reservedControlBytesRaiseIllegalControl : Obligations.ReservedControlBytesRaiseIllegalControl := by
  intro r s hfits
  refine ⟨reserved_iff r.ctl, fun hreserved => ?_⟩
  have hillegal := (decodeRequest_eq_illegal_iff hfits).mpr hreserved
  exact ⟨hillegal, perform_of_illegal hillegal⟩

/-- Settles O5: the decoder, run on each word. -/
theorem listedRequestWordsDecode : Obligations.ListedRequestWordsDecode :=
  ⟨rfl, rfl, rfl, rfl, rfl, rfl, rfl, rfl, rfl, rfl⟩

end Sys2Proof.Machine

/-! The statements of 30_encoding.md about the assembler: the lines it takes, the checks that operands fit, and the
pseudo-instructions (R55, R56). -/

namespace Sys2Proof.Machine

/-- A taken line is a head and numbers whose instruction the operand checks let through (R55). -/
theorem operands_of_assembleLine {idxW : Nat} {line : String} {i : Instr} (h : assembleLine idxW line = .ok (some i)) :
    ∃ head ns, assembleOperands idxW head ns = .ok i := by
  simp only [assembleLine] at h
  split at h
  · cases h
  · split at h
    · cases h
    · next head _ =>
      split at h
      · cases h
      · next ns _ =>
        cases hops : assembleOperands idxW head ns with
        | error e => rw [hops] at h; cases h
        | ok j => rw [hops] at h; cases h; exact ⟨head, ns, hops⟩

/-- What the operand checks let through: the head's row, with bounds that fit in `IDX_W` bits and a value that fits in `W` bits,
a read's being 0 (R55). -/
theorem assembleOperands_eq_ok {idxW : Nat} {head : AsmHead} {ns : List Nat} {i : Instr}
    (h : assembleOperands idxW head ns = .ok i) :
    ∃ form lo hi v, lo < 2 ^ idxW ∧ hi < 2 ^ idxW ∧ v < 2 ^ head.width.bits ∧
      i = Instr.make head.op form head.width head.chk lo hi (BitVec.ofNat 128 v) := by
  unfold assembleOperands at h
  split at h
  · next a b hop =>
    dsimp only at h
    split at h
    · next hfit =>
      obtain ⟨hlo, hhi⟩ := hfit
      exact ⟨_, _, _, 0, hlo, hhi, Nat.two_pow_pos _, hop ▸ (Except.ok.inj h).symm⟩
    · cases h
  · next a b v hop =>
    dsimp only at h
    split at h
    · next hfit =>
      obtain ⟨hlo, hhi, hv⟩ := hfit
      exact ⟨_, _, _, v, hlo, hhi, hv, hop ▸ (Except.ok.inj h).symm⟩
    · cases h
  · cases h

/-- A made instruction's write value fits when the number it is made from does. -/
theorem make_wval_lt (op : Op) (form : RangeForm) (w : Width) (chk : Bool) (lo hi : Nat) {v n : Nat} (h : v < 2 ^ n) :
    (Instr.make op form w chk lo hi (BitVec.ofNat 128 v)).wval.toNat < 2 ^ n := by
  cases op with
  | read => rw [make_read_wval]; exact Nat.two_pow_pos n
  | write => rw [Laws.make_wval, BitVec.toNat_ofNat]; exact (Nat.mod_le v _).trans_lt h

/-- A pseudo-read is `RDF.HO` on `s, s + len`, or does not fit (R56). -/
theorem assembleOperands_pseudo_read (idxW : Nat) (w : Width) (chk : Bool) (s len : Nat) :
    assembleOperands idxW { op := .read, form := none, width := w, chk := chk } [s, len] =
      if s + len < 2 ^ idxW then .ok (Instr.make .read .halfOpen w chk s (s + len) 0) else .error .doesNotFit :=
  if_congr ⟨And.right, fun h => ⟨(Nat.le_add_right s len).trans_lt h, h⟩⟩ rfl rfl

/-- A pseudo-write is `WRF.HO` on `s, s + len`, or does not fit (R56). -/
theorem assembleOperands_pseudo_write (idxW : Nat) (w : Width) (chk : Bool) (s len v : Nat) :
    assembleOperands idxW { op := .write, form := none, width := w, chk := chk } [s, len, v] =
      if s + len < 2 ^ idxW ∧ v < 2 ^ w.bits then
        .ok (Instr.make .write .halfOpen w chk s (s + len) (BitVec.ofNat 128 v))
      else .error .doesNotFit :=
  if_congr ⟨And.right, fun h => ⟨(Nat.le_add_right s len).trans_lt h.1, h⟩⟩ rfl rfl

/-- Settles O57: a taken line has passed the operand checks. -/
theorem assembledInstructionsAreWellFormed : Obligations.AssembledInstructionsAreWellFormed := by
  intro idxW line i h
  obtain ⟨head, ns, hops⟩ := operands_of_assembleLine h
  obtain ⟨form, lo, hi, v, hlo, hhi, hv, rfl⟩ := assembleOperands_eq_ok hops
  obtain ⟨-, -, hw, -, hlo', hhi'⟩ :=
    Laws.make_fields head.op form head.width head.chk lo hi (BitVec.ofNat 128 v)
  constructor
  · rw [Instr.wf, hlo', hhi', decide_eq_true hlo, decide_eq_true hhi, Bool.and_self]
  · rw [hw]
    exact make_wval_lt head.op form head.width head.chk lo hi hv

/-- Settles O55: the assembler, run on each line. -/
theorem assemblerTakesTheListedLines : Obligations.AssemblerTakesTheListedLines := by
  refine ⟨?_, ?_, ?_, ?_, ?_, ?_⟩ <;> decide

/-- Settles O56: `s` fits wherever `s + len` does, so the one check of R56 decides. -/
theorem pseudoInstructionsExpandToHalfOpen : Obligations.PseudoInstructionsExpandToHalfOpen := by
  intro idxW w chk s len v
  rw [assembleOperands_pseudo_read, assembleOperands_pseudo_write]
  exact ⟨fun h => if_pos h, fun h hv => if_pos ⟨h, hv⟩,
    fun h => ⟨if_neg (Nat.not_lt.mpr h), if_neg fun hfit => Nat.not_lt.mpr h hfit.1⟩⟩

end Sys2Proof.Machine

/-! The statements of 40_resolver.md: the order of the checks, the results of a resolved range, empty and closed ranges, and
static ranges (R57 to R64). -/

namespace Sys2Proof

/-- The instruction with the range of a static block in place of its own (R64). -/
def Instr.carrying (p : Params) (i : Instr) : Instr :=
  Instr.make i.op p.sForm i.width i.chk p.sLo p.sHi i.wval

/-- Another range changes the form and the bounds, and nothing else. -/
theorem Instr.carrying_fields (p : Params) (i : Instr) :
    (i.carrying p).op = i.op ∧ (i.carrying p).form = p.sForm ∧ (i.carrying p).width = i.width ∧
      (i.carrying p).chk = i.chk ∧ (i.carrying p).lo = p.sLo ∧ (i.carrying p).hi = p.sHi :=
  Laws.make_fields i.op p.sForm i.width i.chk p.sLo p.sHi i.wval

/-- Another range leaves the write value, which a read has at 0 in any case (R52). -/
theorem Instr.carrying_wval (p : Params) (i : Instr) : (i.carrying p).wval = i.wval := by
  rw [Instr.carrying]
  cases hop : i.op with
  | read => rw [make_read_wval, Instr.wval_of_read hop]
  | write => rw [Laws.make_wval]

end Sys2Proof

namespace Sys2Proof.Machine

/-! ### The resolver's errors -/

/-- Checks 1 and 2 decide `OutOfBounds`, and the width has no part in it (R57). -/
theorem resolve_eq_outOfBounds {form : RangeForm} {lo hi w n : Nat} :
    resolve form lo hi w n = .error .outOfBounds ↔ hi < lo ∨ 8 * n < lo + rangeLength form lo hi := by
  unfold resolve
  split
  · next hinverted => simp [hinverted]
  · next hordered =>
    split
    · next hpast => simp [hpast]
    · next hfits => split <;> simp [hordered, hfits]

/-- Check 3 decides `FieldTooWide`, after the other two have passed (R57). -/
theorem resolve_eq_fieldTooWide {form : RangeForm} {lo hi w n : Nat} :
    resolve form lo hi w n = .error .fieldTooWide ↔
      lo ≤ hi ∧ lo + rangeLength form lo hi ≤ 8 * n ∧ w < rangeLength form lo hi := by
  unfold resolve
  split
  · next hinverted => simp; omega
  · next hordered =>
    split
    · next hpast => simp; omega
    · next hfits => split <;> simp <;> omega

@[simp] theorem rangeLength_halfOpen (lo hi : Nat) : rangeLength .halfOpen lo hi = hi - lo := rfl

@[simp] theorem rangeLength_closed (lo hi : Nat) : rangeLength .closed lo hi = hi - lo + 1 := rfl

/-- The empty half-open range resolves wherever it does not start past the buffer's end (R60). -/
theorem resolve_empty {lo n : Nat} (h : lo ≤ 8 * n) (w : Nat) : resolve .halfOpen lo lo w n = .ok (lo, 0) :=
  resolve_eq_ok.mpr (by simp [h])

/-! ### Requests of length 0 -/

/-- The response of a request of length 0 reads 0, has no error and enables nothing (R60). -/
theorem okResponse_empty (i : Instr) (m : Memory) (st : Nat) :
    (okResponse i m st 0).rdValue = 0 ∧ (okResponse i m st 0).err = 0 ∧ (okResponse i m st 0).byteRe = 0 ∧
      (okResponse i m st 0).byteWe = 0 := by
  cases hop : i.op with
  | read => rw [okResponse_read hop]; exact ⟨rfl, rfl, rfl, rfl⟩
  | write => rw [okResponse_write hop]; exact ⟨rfl, rfl, rfl, rfl⟩

/-! ### Static ranges -/

/-- The block that differs only in taking its ranges from its requests (R64). -/
def State.asDynamic (s : State) : State := { s with params := { s.params with staticRange := false } }

/-- The response on a resolved range does not depend on the range that the instruction names. -/
theorem okResponse_carrying (p : Params) (i : Instr) : okResponse (i.carrying p) = okResponse i := by
  obtain ⟨hop, -, hwidth, -⟩ := i.carrying_fields p
  funext m st l
  rw [okResponse, okResponse, Instr.carrying_wval, hop, hwidth]

/-- A static block resolves what the dynamic one resolves for the request that carries the static range (R64). -/
theorem resolveFor_asDynamic {s : State} (hs : s.params.staticRange = true) (i : Instr) :
    resolveFor s.asDynamic.params (i.carrying s.params).form (i.carrying s.params).width (i.carrying s.params).lo
      (i.carrying s.params).hi = resolveFor s.params i.form i.width i.lo i.hi := by
  obtain ⟨-, hform, hwidth, -, hlo, hhi⟩ := i.carrying_fields s.params
  rw [resolveFor_static hs, resolveFor_dynamic rfl, hform, hwidth, hlo, hhi]
  rfl

/-- A static block completes or fails as the dynamic one does on the request that carries the static range (R64). -/
theorem exec_asDynamic {s : State} (hs : s.params.staticRange = true) (i : Instr) :
    ∃ t, exec i s = .next t ∧ t.params = s.params ∧ exec (i.carrying s.params) s.asDynamic = .next t.asDynamic := by
  obtain ⟨-, -, -, hchk, -⟩ := i.carrying_fields s.params
  have hresolve' := resolveFor_asDynamic hs i
  cases hresolve : resolveFor s.params i.form i.width i.lo i.hi with
  | ok range =>
    refine ⟨_, exec_of_ok hresolve, rfl, ?_⟩
    rw [exec_of_ok (hresolve'.trans hresolve), okResponse_carrying]
    rfl
  | error e =>
    refine ⟨_, exec_of_error hresolve, rfl, ?_⟩
    rw [exec_of_error (hresolve'.trans hresolve), hchk]
    rfl

/-- A block whose static range fails check 1 or 2 is not legal (R64). -/
theorem legal_eq_false_of_outOfBounds {p : Params} (hp : p.staticRange = true) {w : Nat}
    (h : resolve p.sForm p.sLo p.sHi w p.nBytes = .error .outOfBounds) : legal p = false := by
  rw [Bool.eq_false_iff]
  intro hlegal
  simp only [legal, hp, Bool.not_true, Bool.false_or, Bool.and_eq_true, decide_eq_true_eq] at hlegal
  obtain ⟨-, hordered, hfits⟩ := hlegal
  rcases resolve_eq_outOfBounds.mp h with hinverted | hpast
  · exact absurd hordered (Nat.not_le.mpr hinverted)
  · exact absurd hfits (Nat.not_le.mpr hpast)

/-- A step of a block that is not legal is refused (R6, R64). -/
theorem step_of_not_legal {s : State} (h : legal s.params = false) : step s = .refused .illFormedInstance := by
  have hlawful : s.lawful = false := by simp [State.lawful, State.blocks, h]
  simp [step, State.advance, hlawful]

/-! ### The statements -/

/-- Settles O8: the bounds of a resolved range, from which those of its positions and of its last footprint byte follow. -/
theorem resolvedRangeLiesInTheBuffer : Obligations.ResolvedRangeLiesInTheBuffer := by
  intro p form w lo hi s l h
  obtain ⟨hend, hwidth, -⟩ := resolveFor_bounds h
  refine ⟨hend, hwidth, width_bits_le w, fun k hk => by omega, fun i hi => ?_⟩
  obtain ⟨hpos, -, hlast⟩ := testBit_footprint_iff.mp hi
  omega

/-- Settles O9: a closed range has length 1 at least, so only `[lo, lo)` is empty, and the response on it does nothing. -/
theorem zeroLengthRangesAreLegalNoOps : Obligations.ZeroLengthRangesAreLegalNoOps := by
  refine ⟨fun form lo hi w n s h => ?_, fun lo w n h => resolve_empty h w, fun w n => ⟨resolve_empty le_rfl w, ?_⟩,
    fun i s st h => ?_⟩
  · obtain ⟨hordered, hend, -, rfl, hempty⟩ := resolve_eq_ok.mp h
    cases form with
    | halfOpen =>
      rw [rangeLength_halfOpen] at hempty
      exact ⟨rfl, by omega, rfl, by omega⟩
    | closed => exact absurd hempty.symm (Nat.succ_ne_zero _)
  · exact resolve_eq_outOfBounds.mpr (.inr (by simp))
  · obtain ⟨hvalue, herr, hre, hwe⟩ := okResponse_empty i s.buf st
    exact ⟨_, exec_of_ok h, hvalue, herr, hre, hwe, commit_of_no_enable _ _ hwe⟩

/-- Settles O11: the two blocks resolve one range and answer it alike, and legality of a static range is checks 1 and 2. -/
theorem staticInstanceActsAsDynamic : Obligations.StaticInstanceActsAsDynamic := by
  refine ⟨fun r s _ hfits hreserved => ?_, fun i s hs => ?_, fun i s hs hlegal h => ?_, fun s w hs h => ?_⟩
  · have hillegal := (decodeRequest_eq_illegal_iff hfits).mpr hreserved
    exact ⟨_, perform_of_illegal hillegal, perform_of_illegal (s := s.asDynamic) hillegal⟩
  · obtain ⟨t, hstatic, hparams, hdynamic⟩ := exec_asDynamic hs i
    exact ⟨t, hstatic, hdynamic.trans (by rw [State.asDynamic, hparams])⟩
  · rw [resolveFor_static hs] at h
    exact absurd hlegal (Bool.eq_false_iff.mp (legal_eq_false_of_outOfBounds hs h))
  · exact step_of_not_legal (legal_eq_false_of_outOfBounds hs h)

/-- Settles O6: each clause is one branch of the resolver, for one of the two lengths. -/
theorem resolverMakesItsChecksInOrder : Obligations.ResolverMakesItsChecksInOrder := fun _ _ _ _ =>
  ⟨fun hinverted => ⟨resolve_eq_outOfBounds.mpr (.inl hinverted), resolve_eq_outOfBounds.mpr (.inl hinverted)⟩,
    fun _ hpast => resolve_eq_outOfBounds.mpr (.inr hpast),
    fun _ hpast => resolve_eq_outOfBounds.mpr (.inr hpast),
    fun hordered hfits hwide => resolve_eq_fieldTooWide.mpr ⟨hordered, hfits, hwide⟩,
    fun hordered hfits hwide => resolve_eq_fieldTooWide.mpr ⟨hordered, hfits, hwide⟩,
    fun hordered hfits hnarrow => resolve_eq_ok.mpr ⟨hordered, hfits, hnarrow, rfl, rfl⟩,
    fun hordered hfits hnarrow => resolve_eq_ok.mpr ⟨hordered, hfits, hnarrow, rfl, rfl⟩⟩

/-- Settles O7: the four results at a named width by evaluation, the five others because neither the empty range nor checks 1
and 2 look at the width. -/
theorem resolverGivesTheListedResults : Obligations.ResolverGivesTheListedResults :=
  ⟨rfl, rfl, rfl, rfl, fun w =>
    ⟨resolve_empty (by decide) w.bits, resolve_empty (by decide) w.bits, resolve_eq_outOfBounds.mpr (.inr (by decide)),
      resolve_eq_outOfBounds.mpr (.inl (by decide)), resolve_eq_outOfBounds.mpr (.inl (by decide))⟩⟩

/-- Settles O10: the length `hi - lo + 1` of a closed range, with the checks it has passed or fails. -/
theorem closedRangesAreNeverEmpty : Obligations.ClosedRangesAreNeverEmpty := by
  refine ⟨fun lo hi w n s l h => ?_, fun lo w n hlo => ?_, fun lo w n hlo => ?_⟩
  · obtain ⟨hordered, hend, -, -, rfl⟩ := resolve_eq_ok.mp h
    rw [rangeLength_closed] at hend ⊢
    exact ⟨by omega, hordered, by omega⟩
  · exact resolve_eq_outOfBounds.mpr (.inl (by omega))
  · refine resolve_eq_outOfBounds.mpr (.inr ?_)
    rw [rangeLength_closed]
    omega

end Sys2Proof.Machine

/-! The statements of 41_read.md: what the reads answer, the value on the port, the byte-wise datapath and the laws of the
reads (R65 to R70). -/

namespace Sys2Proof.Machine

/-! ### Rows of the opcode table -/

/-- The five widths of R6. -/
def Width.all : List Width := [.w8, .w16, .w32, .w64, .w128]

/-- A row of the opcode table (R53) as the statements list it: the width in bits, the `match` byte and the instruction. -/
def listedRow (op : Op) (form : RangeForm) (chk : Bool) (lo hi : Nat) (wval : Value) (w : Width) : Nat × Byte × Instr :=
  (w.bits, rowMatch op form w, Instr.make op form w chk lo hi wval)

theorem ctl_make (op : Op) (form : RangeForm) (w : Width) (chk : Bool) (lo hi : Nat) (wval : Value) :
    (Instr.make op form w chk lo hi wval).ctl = rowMatch op form w + (if chk then 4 else 0) := by
  obtain ⟨hop, hform, hw, hchk, -, -⟩ := Laws.make_fields op form w chk lo hi wval
  rw [Instr.ctl, hop, hform, hw, hchk]

theorem resolveFor_make (p : Params) (op : Op) (form : RangeForm) (w : Width) (chk : Bool) (lo hi : Nat) (wval : Value) :
    resolveFor p (Instr.make op form w chk lo hi wval).form (Instr.make op form w chk lo hi wval).width
      (Instr.make op form w chk lo hi wval).lo (Instr.make op form w chk lo hi wval).hi = resolveFor p form w lo hi := by
  obtain ⟨-, hform, hw, -, hlo, hhi⟩ := Laws.make_fields op form w chk lo hi wval
  rw [hform, hw, hlo, hhi]

/-! ### What a row's instruction answers -/

/-- A read whose range resolves does what R67 says of a read. -/
theorem exec_read_of_ok {i : Instr} (hop : i.op = .read) {s : State} {st l : Nat}
    (h : resolveFor s.params i.form i.width i.lo i.hi = .ok (st, l)) : exec i s = .next (s.readDone st l) := by
  rw [exec_of_ok h, okResponse_read hop, takeOk_ofRead]

theorem exec_make_read_of_ok {form : RangeForm} {w : Width} {chk : Bool} {lo hi : Nat} {wval : Value} {s : State}
    {st l : Nat} (hs : s.params.staticRange = false) (h : resolve form lo hi w.bits s.params.nBytes = .ok (st, l)) :
    exec (Instr.make .read form w chk lo hi wval) s = .next (s.readDone st l) := by
  obtain ⟨hop, -⟩ := Laws.make_fields .read form w chk lo hi wval
  exact exec_read_of_ok hop (by rw [resolveFor_make, resolveFor_dynamic hs, h])

/-- A row's instruction whose range fails is reported as R81 and R82 say, by its `CHK`. -/
theorem exec_make_of_error {op : Op} {form : RangeForm} {w : Width} {chk : Bool} {lo hi : Nat} {wval : Value} {s : State}
    {e : RangeError} (hs : s.params.staticRange = false)
    (h : resolve form lo hi w.bits s.params.nBytes = .error e) :
    exec (Instr.make op form w chk lo hi wval) s = .next (if chk then s.errorDone e else s.faultDone e) := by
  obtain ⟨-, -, -, hchk, -⟩ := Laws.make_fields op form w chk lo hi wval
  rw [exec_of_error (by rw [resolveFor_make, resolveFor_dynamic hs, h]), takeError_eq, hchk]

/-- What a read of a row answers on a block with dynamic ranges, one clause per result of the resolver (R57, R68, R69). -/
theorem exec_make_read (form : RangeForm) (w : Width) (chk : Bool) (lo hi : Nat) {s : State}
    (hs : s.params.staticRange = false) :
    (lo ≤ hi → lo + rangeLength form lo hi ≤ 8 * s.params.nBytes → rangeLength form lo hi ≤ w.bits →
      exec (Instr.make .read form w chk lo hi 0) s = .next (s.readDone lo (rangeLength form lo hi))) ∧
    (hi < lo ∨ 8 * s.params.nBytes < lo + rangeLength form lo hi →
      exec (Instr.make .read form w chk lo hi 0) s =
        .next (if chk then s.errorDone .outOfBounds else s.faultDone .outOfBounds)) ∧
    (lo ≤ hi → lo + rangeLength form lo hi ≤ 8 * s.params.nBytes → w.bits < rangeLength form lo hi →
      exec (Instr.make .read form w chk lo hi 0) s =
        .next (if chk then s.errorDone .fieldTooWide else s.faultDone .fieldTooWide)) :=
  ⟨fun hordered hend hnarrow => exec_make_read_of_ok hs (resolve_eq_ok.mpr ⟨hordered, hend, hnarrow, rfl, rfl⟩),
    fun hbad => exec_make_of_error hs (resolve_eq_outOfBounds.mpr hbad),
    fun hordered hend hwide => exec_make_of_error hs (resolve_eq_fieldTooWide.mpr ⟨hordered, hend, hwide⟩)⟩

/-- Settles O12: the listed rows are one per width, and a half-open range in order ends at `hi`. -/
theorem rdfHoReadsField : Obligations.RdfHoReadsField := by
  intro chk lo hi s hs c hc
  obtain ⟨w, -, rfl⟩ := List.mem_map.mp (show c ∈ Width.all.map (listedRow .read .halfOpen chk lo hi 0) from hc)
  obtain ⟨hdone, hbounds, htooWide⟩ := exec_make_read .halfOpen w chk lo hi hs
  rw [rangeLength_halfOpen] at hdone hbounds htooWide
  exact ⟨ctl_make .read .halfOpen w chk lo hi 0, fun hordered hend => hdone hordered (by omega),
    fun hbad => hbounds (by omega), fun hordered hend => htooWide hordered (by omega)⟩

/-- Settles O13: the listed rows are one per width, and a closed range in order ends after `hi`. -/
theorem rdfClReadsField : Obligations.RdfClReadsField := by
  intro chk lo hi s hs c hc
  obtain ⟨w, -, rfl⟩ := List.mem_map.mp (show c ∈ Width.all.map (listedRow .read .closed chk lo hi 0) from hc)
  obtain ⟨hdone, hbounds, htooWide⟩ := exec_make_read .closed w chk lo hi hs
  rw [rangeLength_closed] at hdone hbounds htooWide
  exact ⟨ctl_make .read .closed w chk lo hi 0, fun hordered hend => hdone hordered (by omega),
    fun hbad => hbounds (by omega), fun hordered hend => htooWide hordered (by omega)⟩

/-! ### The value on the port -/

/-- The 128 lanes of the port carry every bit of a field of at most 128 bits (R65). -/
theorem getLsbD_ofNat_readField (m : Memory) (s : Nat) {l : Nat} (hl : l ≤ 128) (j : Nat) :
    (BitVec.ofNat 128 (readField m s l)).getLsbD j = (decide (j < l) && bitAt m (s + l - 1 - j)) := by
  rw [BitVec.getLsbD_ofNat, testBit_readField]
  by_cases hj : j < l
  · simp [hj, hj.trans_le hl]
  · simp [hj]

/-- Settles O17: the range is at most 128 bits long, so the port holds the whole field. -/
theorem readValueIsTheFieldMostSignificantBitFirst : Obligations.ReadValueIsTheFieldMostSignificantBitFirst := by
  intro i s st l hop hresolve
  obtain ⟨-, -, hl⟩ := resolveFor_bounds hresolve
  refine ⟨_, exec_read_of_ok hop hresolve, fun k hk => ?_, fun j hj => ?_⟩
  · rw [State.readDone_rsp, Response.ofRead_rdValue, getLsbD_ofNat_readField _ _ hl,
      show st + l - 1 - (l - 1 - k) = st + k by omega, decide_eq_true (by omega), Bool.true_and]
  · rw [State.readDone_rsp, Response.ofRead_rdValue, getLsbD_ofNat_readField _ _ hl, decide_eq_false (by omega),
      Bool.false_and]

/-! ### The byte-wise datapath -/

/-- The concatenated bytes are an aligned field (R66). -/
theorem gather_eq_readField (m : Memory) (first c : Nat) : gather m first c = readField m (8 * first) (8 * c) := by
  induction c with
  | zero => rfl
  | succ c ih => rw [gather, ih, show 256 = 2 ^ 8 from rfl, Nat.mul_succ 8 c, readField_add, ← Nat.mul_add, readField_byte]

theorem gather_lt (m : Memory) (first c : Nat) : gather m first c < 2 ^ (8 * c) := by
  rw [gather_eq_readField]
  exact readField_lt m _ _

/-- The bits of a footprint: those before the range, the range, and the tail (R66). -/
theorem footprint_bits (s : Nat) {l : Nat} (hl : 0 < l) :
    8 * (lastByte s l - firstByte s + 1) = s % 8 + l + tailBits s l := by
  unfold tailBits lastByte firstByte
  omega

theorem tailBits_le (s : Nat) {l : Nat} (hl : 0 < l) : tailBits s l ≤ 7 := by
  unfold tailBits lastByte
  omega

/-- A field in the middle of a wider one: drop the bits after it, keep its own (R65). -/
theorem readField_shiftRight_and_mask (m : Memory) (s k l t : Nat) :
    (readField m s (k + l + t) >>> t) &&& mask l = readField m (s + k) l := by
  rw [readField_add, readField_add, mask, Nat.and_two_pow_sub_one_eq_mod, Nat.shiftRight_eq_div_pow, Nat.add_comm,
    Nat.add_mul_div_right _ _ (Nat.two_pow_pos t), Nat.div_eq_of_lt (readField_lt m _ t), Nat.zero_add,
    Nat.mul_add_mod_self_right, Nat.mod_eq_of_lt (readField_lt m _ l)]

/-- The byte-wise datapath cuts the range out of its footprint's bytes (R66). -/
theorem readDatapath_eq_readField (m : Memory) (s l : Nat) : readDatapath m s l = readField m s l := by
  rcases Nat.eq_zero_or_pos l with rfl | hl
  · rfl
  · have hstart : 8 * firstByte s + s % 8 = s := Nat.div_add_mod s 8
    rw [readDatapath, if_neg hl.ne', gather_eq_readField, footprint_bits s hl, readField_shiftRight_and_mask, hstart]

/-- Settles O19: the concatenation has at most 17 bytes, that is 136 bits, by the bound on a footprint. -/
theorem readDatapathEqualsReadField : Obligations.ReadDatapathEqualsReadField := by
  refine fun m s l => ⟨readDatapath_eq_readField m s l, fun hl =>
    ⟨tailBits_le s hl, gather_lt m _ _, fun hwidth => ?_⟩⟩
  have hcount : 8 * (lastByte s l - firstByte s + 1) ≤ 136 := by
    rw [footprint_count s hl]
    omega
  exact (gather_lt m _ _).trans_le (Nat.pow_le_pow_right Nat.two_pos hcount)

/-! ### The laws of the reads -/

/-- The width decides whether a range resolves and not what it resolves to (R57, R70). -/
theorem resolveFor_ok_unique {p : Params} {form : RangeForm} {w w' : Width} {lo hi st st' l l' : Nat}
    (h : resolveFor p form w lo hi = .ok (st, l)) (h' : resolveFor p form w' lo hi = .ok (st', l')) :
    st = st' ∧ l = l' := by
  obtain ⟨-, -, -, rfl, rfl⟩ := resolve_eq_ok.mp h
  obtain ⟨-, -, -, rfl, rfl⟩ := resolve_eq_ok.mp h'
  exact ⟨rfl, rfl⟩

/-- A nonempty half-open range and the closed range of the same positions resolve alike (R61). -/
theorem resolve_halfOpen_succ {lo hi : Nat} (h : lo ≤ hi) (w n : Nat) :
    resolve .halfOpen lo (hi + 1) w n = resolve .closed lo hi w n := by
  have hlength : rangeLength .halfOpen lo (hi + 1) = rangeLength .closed lo hi := Nat.succ_sub h
  rw [resolve, resolve, hlength, if_neg (show ¬lo > hi + 1 by omega), if_neg (show ¬lo > hi by omega)]

/-- A read that reports no error has resolved its range (R67, R78, R82). -/
theorem exec_read_of_err_eq_zero {i : Instr} (hop : i.op = .read) {s t : State} (h : exec i s = .next t)
    (herr : t.rsp.err = 0) :
    ∃ st l, resolveFor s.params i.form i.width i.lo i.hi = .ok (st, l) ∧ t = s.readDone st l := by
  rcases exec_cases h with ⟨st, l, hresolve, rfl⟩ | ⟨e, -, rfl⟩
  · exact ⟨st, l, hresolve, by rw [okResponse_read hop, takeOk_ofRead]⟩
  · exact absurd herr e.code_ne_zero

/-- Reads with one `CHK` and one result of the resolver give one next state. -/
theorem exec_read_congr {i j : Instr} {s : State} (hi : i.op = .read) (hj : j.op = .read) (hchk : i.chk = j.chk)
    (hresolve : resolveFor s.params i.form i.width i.lo i.hi = resolveFor s.params j.form j.width j.lo j.hi) :
    exec i s = exec j s := by
  cases h : resolveFor s.params j.form j.width j.lo j.hi with
  | ok range => rw [exec_read_of_ok hj h, exec_read_of_ok hi (hresolve.trans h)]
  | error e => rw [exec_of_error h, exec_of_error (hresolve.trans h), hchk]

/-- The parts of a field join most significant part first (R70). -/
theorem readField_append (m : Memory) (s k l : Nat) :
    readField m s (k + l) = (readField m s k <<< l) ||| readField m (s + k) l := by
  rw [readField_add, ← Nat.shiftLeft_add_eq_or_of_lt (readField_lt m _ l), Nat.shiftLeft_eq]

/-- Settles O21: one lemma per law. -/
theorem readLawsHold : Obligations.ReadLawsHold := by
  refine ⟨fun i j s t u hi hj hform hlo hhi hexec hexec' herr herr' => ?_,
    fun i j s hs hi hj hform hform' hw hchk hlo hhi hlt => ?_, fun m m' s l hagree => readField_of_agreeOn hagree,
    fun m lo mid hi hlo hhi => ?_⟩
  · obtain ⟨st, l, hresolve, rfl⟩ := exec_read_of_err_eq_zero hi hexec herr
    obtain ⟨st', l', hresolve', rfl⟩ := exec_read_of_err_eq_zero hj hexec' herr'
    rw [hform, hlo, hhi] at hresolve
    obtain ⟨rfl, rfl⟩ := resolveFor_ok_unique hresolve hresolve'
    rfl
  · refine exec_read_congr hi hj hchk ?_
    rw [resolveFor_dynamic hs, resolveFor_dynamic hs, hform, hform', hw, ← hlo, hhi]
    exact resolve_halfOpen_succ (by omega) _ _
  · have happend := readField_append m lo (mid - lo) (hi - mid)
    rwa [show mid - lo + (hi - mid) = hi - lo by omega, show lo + (mid - lo) = mid by omega] at happend

end Sys2Proof.Machine

/-! The statements of 42_write.md: what the writes answer, the bits and bytes a write changes, the byte-wise datapath and the
laws of the writes (R71 to R77). -/

namespace Sys2Proof.Machine

/-! ### What a row's instruction answers -/

/-- A write whose range resolves does what R74 says of a write. -/
theorem exec_write_of_ok {i : Instr} (hop : i.op = .write) {s : State} (hwf : s.buf.wf = true) {st l : Nat}
    (h : resolveFor s.params i.form i.width i.lo i.hi = .ok (st, l)) :
    exec i s = .next (s.writeDone st l (writeValue i.width i.wval)) := by
  obtain ⟨hend, -, -⟩ := resolveFor_bounds h
  rw [exec_of_ok h, okResponse_write hop, takeOk_ofWrite hwf hend]

/-- A write of a row takes the response of R74, whatever the buffer. -/
theorem exec_make_write_eq_takeOk {form : RangeForm} {w : Width} {lo hi st l : Nat} {s : State}
    (h : resolveFor s.params form w lo hi = .ok (st, l)) (chk : Bool) (v : Value) :
    exec (Instr.make .write form w chk lo hi v) s =
      .next (s.takeOk (Response.ofWrite s.buf st l (writeValue w v))) := by
  obtain ⟨hop, -, hw, -⟩ := Laws.make_fields .write form w chk lo hi v
  rw [exec_of_ok (by rw [resolveFor_make, h]), okResponse_write hop, hw, Laws.make_wval]

theorem exec_make_write_of_ok {form : RangeForm} {w : Width} {chk : Bool} {lo hi : Nat} {wval : Value} {s : State}
    {st l : Nat} (hs : s.params.staticRange = false) (hwf : s.buf.wf = true)
    (h : resolve form lo hi w.bits s.params.nBytes = .ok (st, l)) :
    exec (Instr.make .write form w chk lo hi wval) s = .next (s.writeDone st l (writeValue w wval)) := by
  have hresolve := (resolveFor_dynamic hs form w lo hi).trans h
  obtain ⟨hend, -, -⟩ := resolveFor_bounds hresolve
  rw [exec_make_write_eq_takeOk hresolve, takeOk_ofWrite hwf hend]

/-- What a write of a row answers on a block with dynamic ranges, one clause per result of the resolver (R57, R75, R76). -/
theorem exec_make_write (form : RangeForm) (w : Width) (chk : Bool) (lo hi : Nat) (wval : Value) {s : State}
    (hs : s.params.staticRange = false) (hwf : s.buf.wf = true) :
    (lo ≤ hi → lo + rangeLength form lo hi ≤ 8 * s.params.nBytes → rangeLength form lo hi ≤ w.bits →
      exec (Instr.make .write form w chk lo hi wval) s =
        .next (s.writeDone lo (rangeLength form lo hi) (writeValue w wval))) ∧
    (hi < lo ∨ 8 * s.params.nBytes < lo + rangeLength form lo hi →
      exec (Instr.make .write form w chk lo hi wval) s =
        .next (if chk then s.errorDone .outOfBounds else s.faultDone .outOfBounds)) ∧
    (lo ≤ hi → lo + rangeLength form lo hi ≤ 8 * s.params.nBytes → w.bits < rangeLength form lo hi →
      exec (Instr.make .write form w chk lo hi wval) s =
        .next (if chk then s.errorDone .fieldTooWide else s.faultDone .fieldTooWide)) :=
  ⟨fun hordered hend hnarrow => exec_make_write_of_ok hs hwf (resolve_eq_ok.mpr ⟨hordered, hend, hnarrow, rfl, rfl⟩),
    fun hbad => exec_make_of_error hs (resolve_eq_outOfBounds.mpr hbad),
    fun hordered hend hwide => exec_make_of_error hs (resolve_eq_fieldTooWide.mpr ⟨hordered, hend, hwide⟩)⟩

/-- Settles O14: the listed rows are one per width, and a half-open range in order ends at `hi`. -/
theorem wrfHoWritesField : Obligations.WrfHoWritesField := by
  intro chk lo hi wval s hs hwf c hc
  obtain ⟨w, -, rfl⟩ := List.mem_map.mp (show c ∈ Width.all.map (listedRow .write .halfOpen chk lo hi wval) from hc)
  obtain ⟨hdone, hbounds, htooWide⟩ := exec_make_write .halfOpen w chk lo hi wval hs hwf
  rw [rangeLength_halfOpen] at hdone hbounds htooWide
  exact ⟨ctl_make .write .halfOpen w chk lo hi wval, fun hordered hend => hdone hordered (by omega),
    fun hbad => hbounds (by omega), fun hordered hend => htooWide hordered (by omega)⟩

/-- Settles O15: the listed rows are one per width, and a closed range in order ends after `hi`. -/
theorem wrfClWritesField : Obligations.WrfClWritesField := by
  intro chk lo hi wval s hs hwf c hc
  obtain ⟨w, -, rfl⟩ := List.mem_map.mp (show c ∈ Width.all.map (listedRow .write .closed chk lo hi wval) from hc)
  obtain ⟨hdone, hbounds, htooWide⟩ := exec_make_write .closed w chk lo hi wval hs hwf
  rw [rangeLength_closed] at hdone hbounds htooWide
  exact ⟨ctl_make .write .closed w chk lo hi wval, fun hordered hend => hdone hordered (by omega),
    fun hbad => hbounds (by omega), fun hordered hend => htooWide hordered (by omega)⟩

/-! ### The bits a write changes -/

/-- The bit at distance `k` from the start of the range is bit `l-1-k` of the value (R71). -/
theorem bitAt_writeField_inside {m : Memory} (h : m.wf = true) (s : Nat) {l k : Nat} (hk : k < l) (v : Nat) :
    bitAt (writeField m s l v) (s + k) = v.testBit (l - 1 - k) := by
  rw [bitAt_writeField h, if_pos (by omega), Nat.add_sub_cancel_left]

/-- The bits before and after the range stay as they are (R71). -/
theorem bitAt_writeField_outside {m : Memory} (h : m.wf = true) {s l q : Nat} (hq : q < s ∨ s + l ≤ q) (v : Nat) :
    bitAt (writeField m s l v) q = bitAt m q := by
  rw [bitAt_writeField h, if_neg (by omega)]

/-- Settles O18. -/
theorem writeSetsTheFieldAndNoOtherBit : Obligations.WriteSetsTheFieldAndNoOtherBit :=
  fun _ _ st _ hwf hop hresolve => ⟨_, exec_write_of_ok hop hwf hresolve,
    fun _ hk => bitAt_writeField_inside hwf st hk _, fun _ hq => bitAt_writeField_outside hwf hq _⟩

/-! ### The byte-wise datapath -/

/-- Bit `k` of the byte at distance `j` from the end of a number that was moved up past the tail (R72). -/
theorem getLsbD_byte_of_shiftLeft (x t j : Nat) {k : Nat} (hk : k < 8) :
    (BitVec.ofNat 8 ((x <<< t) >>> (8 * j))).getLsbD k = (decide (t ≤ 8 * j + k) && x.testBit (8 * j + k - t)) := by
  rw [BitVec.getLsbD_ofNat, Nat.testBit_shiftRight, Nat.testBit_shiftLeft, decide_eq_true hk, Bool.true_and]

/-- The mask has the bits from the tail on, as many as the range is long (R72). -/
theorem getLsbD_byteMask (s l j : Nat) {k : Nat} (hk : k < 8) :
    (byteMask s l j).getLsbD k = decide (tailBits s l ≤ 8 * j + k ∧ 8 * j + k - tailBits s l < l) := by
  rw [byteMask, getLsbD_byte_of_shiftLeft _ _ _ hk, mask, Nat.testBit_two_pow_sub_one, Bool.decide_and]

/-- The slice has the value's bits where the mask has ones, and zeros elsewhere (R72). -/
theorem getLsbD_byteSlice (s l v j : Nat) {k : Nat} (hk : k < 8) :
    (byteSlice s l v j).getLsbD k = ((byteMask s l j).getLsbD k && v.testBit (8 * j + k - tailBits s l)) := by
  rw [byteSlice, getLsbD_byte_of_shiftLeft _ _ _ hk, getLsbD_byteMask _ _ _ hk, mask, Nat.testBit_and,
    Nat.testBit_two_pow_sub_one, Bool.decide_and]
  ac_rfl

theorem wf_combine {m : Memory} (h : m.wf = true) (s l v c : Nat) : (combine m s l v c).wf = true := by
  induction c with
  | zero => exact h
  | succ c ih => exact Memory.wf_write ih _ _

/-- Combining changes the bytes it has reached, each by its own mask and slice, and no other byte (R72). -/
theorem read_combine {m : Memory} (h : m.wf = true) (s l v c a : Nat) :
    (combine m s l v c).read a =
      if firstByte s ≤ a ∧ a < firstByte s + c then
        (m.read a &&& ~~~byteMask s l (lastByte s l - a)) ||| byteSlice s l v (lastByte s l - a)
      else m.read a := by
  induction c with
  | zero => rw [if_neg (by omega)]; rfl
  | succ c ih =>
    rw [combine, Memory.read_write (wf_combine h s l v c), ih]
    by_cases ha : a = firstByte s + c
    · subst ha
      rw [if_pos rfl, if_pos (by omega)]
    · simp only [if_neg ha, show a < firstByte s + (c + 1) ↔ a < firstByte s + c by omega]

/-- A combined byte takes the value's bits where the mask has ones and keeps its own elsewhere (R72). -/
theorem getLsbD_combined (b : Byte) (s l v j : Nat) {k : Nat} (hk : k < 8) :
    ((b &&& ~~~byteMask s l j) ||| byteSlice s l v j).getLsbD k =
      if (byteMask s l j).getLsbD k = true then v.testBit (8 * j + k - tailBits s l) else b.getLsbD k := by
  rw [BitVec.getLsbD_or, BitVec.getLsbD_and, BitVec.getLsbD_not, getLsbD_byteSlice _ _ _ _ hk, decide_eq_true hk]
  cases (byteMask s l j).getLsbD k <;> simp

/-- In the bytes up to the last the mask's ones are the positions of the range (R72). -/
theorem getLsbD_byteMask_position {s l q : Nat} (hq : q / 8 ≤ lastByte s l) :
    (byteMask s l (lastByte s l - q / 8)).getLsbD (7 - q % 8) = decide (s ≤ q ∧ q < s + l) := by
  rw [getLsbD_byteMask _ _ _ (by omega), decide_eq_decide]
  unfold tailBits
  unfold lastByte at *
  omega

/-- The position of the value's bit that goes to a position of the range (R71, R72). -/
theorem slice_position {s l q : Nat} (hlo : s ≤ q) (hhi : q < s + l) :
    8 * (lastByte s l - q / 8) + (7 - q % 8) - tailBits s l = l - 1 - (q - s) := by
  unfold tailBits lastByte
  omega

/-- What the byte-wise datapath leaves at each bit position is what the bit-wise function leaves there (R71, R72). -/
theorem bitAt_combine {m : Memory} (h : m.wf = true) (s : Nat) {l : Nat} (hl : 0 < l) (v q : Nat) :
    bitAt (combine m s l v (lastByte s l - firstByte s + 1)) q =
      if s ≤ q ∧ q < s + l then v.testBit (l - 1 - (q - s)) else bitAt m q := by
  have hspan : firstByte s ≤ lastByte s l := Nat.div_le_div_right (by omega)
  rw [bitAt, read_combine h]
  by_cases hin : firstByte s ≤ q / 8 ∧ q / 8 ≤ lastByte s l
  · rw [if_pos (by omega), getLsbD_combined _ _ _ _ _ (by omega), getLsbD_byteMask_position hin.2]
    simp only [decide_eq_true_eq]
    by_cases hq : s ≤ q ∧ q < s + l
    · rw [if_pos hq, if_pos hq, slice_position hq.1 hq.2]
    · rw [if_neg hq, if_neg hq, bitAt]
  · have hout : ¬(s ≤ q ∧ q < s + l) := fun ⟨hlo, hhi⟩ =>
      hin ⟨Nat.div_le_div_right hlo, Nat.div_le_div_right (by omega)⟩
    rw [if_neg (by omega), if_neg hout, bitAt]

/-- The byte-wise datapath writes the field (R72). -/
theorem writeDatapath_eq_writeField {m : Memory} (h : m.wf = true) (s l v : Nat) :
    writeDatapath m s l v = writeField m s l v := by
  rcases Nat.eq_zero_or_pos l with rfl | hl
  · rfl
  · rw [writeDatapath, if_neg hl.ne']
    exact Memory.ext_bits (wf_combine h _ _ _ _) (wf_writeField h _ _ _) fun q => by
      rw [bitAt_combine h s hl, bitAt_writeField h]

/-- Every mask of the footprint has a one: at the tail in the last byte, at the byte's end in the others (R72). -/
theorem byteMask_ne_zero {s l j : Nat} (hl : 0 < l) (hj : j ≤ lastByte s l - firstByte s) : byteMask s l j ≠ 0 := by
  intro hzero
  have htail := tailBits_le s hl
  have hbits := footprint_bits s hl
  have hone : (byteMask s l j).getLsbD (tailBits s l - 8 * j) = true := by
    rw [getLsbD_byteMask _ _ _ (by omega), decide_eq_true_eq]
    omega
  simp [hzero] at hone

/-- The masks between the first and the last byte have ones only (R72). -/
theorem byteMask_inner {s l j : Nat} (hl : 0 < l) (hpos : 0 < j) (hj : j < lastByte s l - firstByte s) :
    byteMask s l j = 0xFF := by
  have htail := tailBits_le s hl
  have hbits := footprint_bits s hl
  have hones : ∀ k < 8, (0xFF : Byte).getLsbD k = true := by decide
  refine byte_ext fun k hk => ?_
  rw [getLsbD_byteMask _ _ _ hk, hones k hk, decide_eq_true_eq]
  omega

/-- A number of at most `l` bits, moved up past the tail, fits in the bytes of the footprint (R72). -/
theorem shiftLeft_tailBits_lt (s : Nat) {l x : Nat} (hl : 0 < l) (hx : x < 2 ^ l) :
    x <<< tailBits s l < 2 ^ (8 * (lastByte s l - firstByte s + 1)) := by
  refine (Nat.shiftLeft_lt hx).trans_le (Nat.pow_le_pow_right Nat.two_pos ?_)
  rw [footprint_bits s hl]
  omega

theorem mask_lt (l : Nat) : mask l < 2 ^ l := Nat.sub_one_lt (Nat.two_pow_pos l).ne'

/-- Settles O20. -/
theorem writeDatapathEqualsWriteField : Obligations.WriteDatapathEqualsWriteField :=
  fun _ s l v hwf => ⟨writeDatapath_eq_writeField hwf s l v, fun hl =>
    ⟨fun _ hj => byteMask_ne_zero hl hj, fun _ hpos hj => byteMask_inner hl hpos hj,
      shiftLeft_tailBits_lt s hl (mask_lt l),
      shiftLeft_tailBits_lt s hl (Nat.and_le_right.trans_lt (mask_lt l))⟩⟩

/-! ### The laws of the writes -/

/-- What is read from the range just written is the value's low bits (R77). -/
theorem readField_writeField {m : Memory} (h : m.wf = true) (s l v : Nat) :
    readField (writeField m s l v) s l = v &&& mask l := by
  refine Nat.eq_of_testBit_eq fun j => ?_
  rw [testBit_readField, mask, Nat.testBit_and, Nat.testBit_two_pow_sub_one, Bool.and_comm]
  by_cases hj : j < l
  · rw [show s + l - 1 - j = s + (l - 1 - j) by omega, bitAt_writeField_inside h s (by omega),
      show l - 1 - (l - 1 - j) = j by omega]
  · simp [hj]

/-- Of two writes to a range the last wins (R77). -/
theorem writeField_writeField {m : Memory} (h : m.wf = true) (s l v v' : Nat) :
    writeField (writeField m s l v) s l v' = writeField m s l v' := by
  have hv := wf_writeField h s l v
  refine Memory.ext_bits (wf_writeField hv s l v') (wf_writeField h s l v') fun q => ?_
  rw [bitAt_writeField hv, bitAt_writeField h s l v']
  by_cases hq : s ≤ q ∧ q < s + l
  · rw [if_pos hq, if_pos hq]
  · rw [if_neg hq, if_neg hq, bitAt_writeField_outside h (by omega)]

/-- Writing back what a range reads as changes nothing (R77). -/
theorem writeField_readField {m : Memory} (h : m.wf = true) (s l : Nat) : writeField m s l (readField m s l) = m := by
  refine Memory.ext_bits (wf_writeField h _ _ _) h fun q => ?_
  rw [bitAt_writeField h]
  by_cases hq : s ≤ q ∧ q < s + l
  · rw [if_pos hq, testBit_readField, decide_eq_true (by omega), Bool.true_and,
      show s + l - 1 - (l - 1 - (q - s)) = q by omega]
  · rw [if_neg hq]

/-- Settles O22: one lemma per law, and idempotence is the last write that wins. -/
theorem writeLawsHold : Obligations.WriteLawsHold :=
  fun _ s l v v' hwf => ⟨readField_writeField hwf s l v, fun _ hq => bitAt_writeField_outside hwf hq v,
    writeField_writeField hwf s l v v, writeField_writeField hwf s l v v', writeField_readField hwf s l⟩

/-! ### The value a write takes -/

/-- A range no longer than the width takes its bits from `wval` as the port carries it (R52, R71). -/
theorem writeValue_mod {w : Width} {l : Nat} (hl : l ≤ w.bits) (wval : Value) :
    writeValue w wval % 2 ^ l = wval.toNat % 2 ^ l :=
  Nat.mod_mod_of_dvd _ (Nat.pow_dvd_pow 2 hl)

/-- Settles O23: the write does not change what the range resolves to, and the port holds the whole field. -/
theorem readAfterWriteGivesTheValue : Obligations.ReadAfterWriteGivesTheValue := by
  intro wr rd s st l hwf hwr hrd hform hwidth hlo hhi hresolve
  obtain ⟨-, hnarrow, hport⟩ := resolveFor_bounds hresolve
  refine ⟨_, _, exec_write_of_ok hwr hwf hresolve,
    exec_read_of_ok hrd (st := st) (l := l) (by rw [hform, hwidth, hlo, hhi]; exact hresolve), ?_, rfl⟩
  have hlt : wr.wval.toNat % 2 ^ l < 2 ^ 128 :=
    (Nat.mod_lt _ (Nat.two_pow_pos l)).trans_le (Nat.pow_le_pow_right Nat.two_pos hport)
  rw [State.readDone_rsp, Response.ofRead_rdValue, State.writeDone_buf, readField_writeField hwf, mask,
    Nat.and_two_pow_sub_one_eq_mod, writeValue_mod hnarrow, BitVec.toNat_ofNat, Nat.mod_eq_of_lt hlt]

/-- A write depends only on the low bits of its value (R71, R73). -/
theorem writeField_congr (m : Memory) (s : Nat) {l v v' : Nat} (h : ∀ k < l, v.testBit k = v'.testBit k) :
    writeField m s l v = writeField m s l v' := by
  induction l generalizing m s with
  | zero => rfl
  | succ l ih => rw [writeField, writeField, h l (by omega), ih _ _ fun k hk => h k (by omega)]

/-- Values with the same low bits are written alike (R73). -/
theorem writeField_of_mod_eq (m : Memory) (s : Nat) {l v v' : Nat} (h : v % 2 ^ l = v' % 2 ^ l) :
    writeField m s l v = writeField m s l v' :=
  writeField_congr m s fun k hk => by simpa [hk] using congrArg (Nat.testBit · k) h

theorem Response.ofWrite_of_mod_eq (m : Memory) (s : Nat) {l v v' : Nat} (h : v % 2 ^ l = v' % 2 ^ l) :
    Response.ofWrite m s l v = Response.ofWrite m s l v' := by
  rw [Response.ofWrite, Response.ofWrite, writeField_of_mod_eq m s h]

/-- Settles O24: both writes take one response, whatever the buffer. -/
theorem excessValueBitsAreIgnored : Obligations.ExcessValueBitsAreIgnored := by
  intro form w chk lo hi st l v v' s hresolve hmod
  obtain ⟨-, hnarrow, -⟩ := resolveFor_bounds hresolve
  have hvalues : writeValue w v % 2 ^ l = writeValue w v' % 2 ^ l := by
    rw [writeValue_mod hnarrow, writeValue_mod hnarrow, hmod]
  refine ⟨?_, _, exec_make_write_eq_takeOk hresolve chk v, rfl⟩
  rw [exec_make_write_eq_takeOk hresolve, exec_make_write_eq_takeOk hresolve, Response.ofWrite_of_mod_eq _ _ hvalues]

end Sys2Proof.Machine

/-! The statements of 60_exceptions.md: the range errors and their order, a reserved control byte, what a checked error leaves
behind, and the restart after a mark (R78 to R85). -/

namespace Sys2Proof.Machine

/-! ### The codes on `rsp_err` -/

/-- The codes of R78, as the statement of the range errors spells them. -/
theorem RangeError.code_eq (e : RangeError) : e.code = if e = .outOfBounds then 1 else 2 := by cases e <;> rfl

@[simp] theorem okResponse_err (i : Instr) (m : Memory) (st l : Nat) : (okResponse i m st l).err = 0 := by
  cases hop : i.op with
  | read => rw [okResponse_read hop]; rfl
  | write => rw [okResponse_write hop]; rfl

/-- An instruction whose range fails reports the code of the resolver's error (R78). -/
theorem exec_err_of_error {i : Instr} {s t : State} {e : RangeError} (h : exec i s = .next t)
    (hresolve : resolveFor s.params i.form i.width i.lo i.hi = .error e) : t.rsp.err = e.code := by
  obtain rfl := Host.Outcome.next.inj ((exec_of_error hresolve).symm.trans h)
  rfl

/-- An instruction whose range resolves reports no error (R78). -/
theorem exec_err_of_ok {i : Instr} {s t : State} {st l : Nat} (h : exec i s = .next t)
    (hresolve : resolveFor s.params i.form i.width i.lo i.hi = .ok (st, l)) : t.rsp.err = 0 := by
  obtain rfl := Host.Outcome.next.inj ((exec_of_ok hresolve).symm.trans h)
  exact okResponse_err ..

/-- Settles O28: a range error is taken by `State.takeError`, whose response is that of R82. -/
theorem rangeErrorsAreReported : Obligations.RangeErrorsAreReported :=
  fun i s e hresolve =>
    ⟨_, exec_of_error hresolve, takeError_eq s e i.chk, e.code_eq, rfl, rfl, rfl, rfl, rfl, rfl⟩

/-- Settles O29: the decoder's refusal comes before any range check, and each further clause is one answer of the resolver. -/
theorem firstApplicableErrorIsReported : Obligations.FirstApplicableErrorIsReported := by
  intro r s hfits hdynamic
  obtain ⟨t, ht⟩ := perform_next hfits
  refine ⟨t, ht, fun hreserved => ?_, fun i hdecode => ?_⟩
  · have hillegal := perform_of_illegal ((decodeRequest_eq_illegal_iff hfits).mpr hreserved)
    obtain rfl := Host.Outcome.next.inj (hillegal.symm.trans ht)
    rfl
  · obtain ⟨-, -, hlo, hhi, -⟩ := decodeRequest_eq_ok_iff.mp hdecode
    have hexec : exec i s = .next t := (perform_of_ok hdecode).symm.trans ht
    have hresolve : resolveFor s.params i.form i.width i.lo i.hi =
        resolve i.form r.lo r.hi i.width.bits s.params.nBytes := by rw [resolveFor_dynamic hdynamic, hlo, hhi]
    exact ⟨fun hinverted => exec_err_of_error hexec (hresolve.trans (resolve_eq_outOfBounds.mpr (.inl hinverted))),
      fun _ hpast => exec_err_of_error hexec (hresolve.trans (resolve_eq_outOfBounds.mpr (.inr hpast))),
      fun hordered hend hwide =>
        exec_err_of_error hexec (hresolve.trans (resolve_eq_fieldTooWide.mpr ⟨hordered, hend, hwide⟩)),
      fun hordered hend hnarrow =>
        exec_err_of_ok hexec (hresolve.trans (resolve_eq_ok.mpr ⟨hordered, hend, hnarrow, rfl, rfl⟩))⟩

/-! ### What an error leaves behind -/

/-- An instruction reads neither the outputs nor the observations: from a state that differs in these alone it drives the same
outputs and appends the same observations (R12, R24). -/
theorem exec_of_other_rsp_observed (i : Instr) (s : State) :
    ∃ t os, exec i s = .next t ∧ t.observed = s.observed ++ os ∧
      ∀ rsp observed, exec i { s with rsp := rsp, observed := observed } =
        .next { t with observed := observed ++ os } := by
  cases hresolve : resolveFor s.params i.form i.width i.lo i.hi with
  | ok range =>
    obtain ⟨st, l⟩ := range
    exact ⟨_, _, exec_of_ok hresolve, rfl, fun _ _ => exec_of_ok hresolve⟩
  | error e => exact ⟨_, _, exec_of_error hresolve, rfl, fun _ _ => exec_of_error hresolve⟩

/-- Taking a checked error changes the outputs, and the observations by `err(e)` (R81). -/
theorem takeError_checked (s : State) (e : RangeError) :
    s.takeError e true =
      { s with rsp := Response.ofError s.buf e.code false, observed := s.observed ++ [.err e] } := rfl

/-- Settles O31: the checked error changes only what the next instruction does not read. -/
theorem checkedErrorLeavesNothingBehind : Obligations.CheckedErrorLeavesNothingBehind := by
  intro i j s e hchk hresolve
  obtain ⟨v, os, hv, hobserved, hother⟩ := exec_of_other_rsp_observed j s
  have herror : exec i s = .next (s.takeError e true) := hchk ▸ exec_of_error hresolve
  rw [takeError_checked] at herror
  exact ⟨_, _, v, herror, hother _ _, hv, rfl, os, hobserved, List.append_assoc ..⟩

/-! ### The end of a run, and the next one -/

/-- No mark is set in a live state (R23). -/
theorem State.live_iff {s : State} : s.live = true ↔ s.faulted = none ∧ s.refused = none := by
  simp [State.live]

/-- A step keeps the blocks lawful: it starts from lawful ones and does not change their parameters (R16, R64). -/
theorem step_lawful {s t : State} (h : step s = .next t) : t.lawful = true := by
  obtain ⟨hlawful, -⟩ := step_cases h
  have hparams : s.SameParams t := stepsKeepTheParameters s t h
  exact hparams.lawful_eq.trans hlawful

/-- The step of an issued reserved control byte takes `IllegalControl` (R79). -/
theorem step_of_issue_illegal {s : State} {r : Request} {rest : List HostAction} {c : Byte} (hl : s.lawful = true)
    (hlive : s.live = true) (hq : s.quiet = true) (hp : s.pending = .issue r :: rest)
    (hillegal : decodeRequest s.params.idxW r = .error (.illegalControl c)) :
    step s = .next (State.takeIllegal { s.idlePeers with pending := rest, index := s.index + 1 }) :=
  (step_of_issue hl hlive hq hp).trans
    (perform_of_illegal (s := { s.idlePeers with pending := rest, index := s.index + 1 }) hillegal)

/-- Settles O30: the step takes `IllegalControl`, which leaves the blocks lawful and the run refused. -/
theorem reservedControlByteEndsTheRun : Obligations.ReservedControlByteEndsTheRun := by
  intro r rest s hlawful hlive hquiet hpending hfits hreserved
  have hstep := step_of_issue_illegal hlawful hlive hquiet hpending ((decodeRequest_eq_illegal_iff hfits).mpr hreserved)
  obtain ⟨hfaulted, -⟩ := State.live_iff.mp hlive
  exact ⟨_, hstep, rfl, rfl, rfl, rfl, rfl, rfl, rfl, rfl, rfl, step_of_refused (step_lawful hstep) hfaulted rfl⟩

@[simp] theorem Block.fresh_quiet (m : Memory) (p : Params) : (Block.fresh m p).quiet = true := by
  simp [Block.fresh, Block.quiet]

@[simp] theorem State.launch_quiet (p : Params) (others : List Params) (m : Memory) (actions : List HostAction) :
    (State.launch p others m actions).quiet = true := by
  simp [State.quiet, State.launch_blocks]

/-- A launch has the blocks that its parameters name (R23, R42). -/
theorem State.launch_params (p : Params) (others : List Params) (m : Memory) (actions : List HostAction) :
    (State.launch p others m actions).blocks.map (·.params) = p :: others := by
  simp [State.launch_blocks, Function.comp_def, Block.fresh]

/-- Settles O42: a restart is a launch on the buffer as it stands, of blocks that the invariant makes legal and of one
length. -/
theorem restartKeepsTheBuffer : Obligations.RestartKeepsTheBuffer := by
  intro s actions hs
  have hown : s.block.Good s.params.nBytes := hs.blocks s.block List.mem_cons_self
  have hpeers : ∀ q ∈ s.peers.map (·.params), legal q = true ∧ q.nBytes = s.params.nBytes :=
    List.forall_mem_map.mpr fun b hb =>
      have hgood := hs.blocks b (List.mem_cons_of_mem _ hb)
      ⟨hgood.params, hgood.size⟩
  exact ⟨State.inv_launch actions hown.params hpeers hs.buf, rfl, rfl, State.launch_params .., State.launch_quiet ..⟩

end Sys2Proof.Machine

/-! The statements of 70_reset_and_hazards.md: the start of a run, the pin `rst` with and without a pipeline, and the hazard of a
write in flight (R93 to R96, R101). -/

namespace Sys2Proof.Machine

/-! ### The start of a run -/

/-- Settles O40: each block of a launch is fresh, and so are the marks. -/
theorem resetValuesAreTheListedOnes : Obligations.ResetValuesAreTheListedOnes := by
  intro p others m actions
  refine ⟨rfl, rfl, rfl, State.launch_params .., ?_⟩
  rw [State.launch_blocks, List.forall_mem_map]
  exact fun q _ => ⟨List.length_replicate, fun f hf => List.eq_of_mem_replicate hf, rfl⟩

/-- Settles O41: the reset state and the launch are the same record, and a launch has nothing in flight. -/
theorem resetStateIsALaunch : Obligations.ResetStateIsALaunch :=
  ⟨rfl, rfl, State.launch_quiet Config.resetParams [] [] [], rfl⟩

/-! ### A request over a write in flight -/

/-- A request accepted over a byte of its own stream's write in flight breaks R101. -/
theorem hazardous_of_shared_byte {ds : List Driven} {x y : Issued} (hx : x ∈ acceptedOf ds) (hy : y ∈ flightsOf ds)
    (hstream : x.sameStream y = true) (hwrites : y.posed.writes = true)
    (hshared : sharesByte y.posed x.posed = true) : hazardous ds = true :=
  List.any_eq_true.mpr ⟨x, hx, List.any_eq_true.mpr ⟨y, hy, by simp [hstream, hwrites, hshared]⟩⟩

/-- A cycle that breaks R101 sets `refused` and performs nothing (assumption 11). -/
theorem clock_of_hazardous {ps : List Pins} {s : State} (ho : (s.driven ps).any Driven.overflows = false)
    (hh : hazardous (s.driven ps) = true) :
    s.clock ps = .next { s.idle with
      faulted := if racing (s.driven ps) then some .race else s.faulted
      refused := some .hazard } := by
  simp [State.clock, ho, hh]

/-- No step follows a mark (R23, R25). -/
theorem step_ne_next_of_not_live {s : State} (h : s.live = false) (t : State) : step s ≠ .next t := by
  intro hstep
  obtain ⟨-, hlive, -⟩ := step_cases hstep
  simp [h] at hlive

/-- Settles O50: the cycle is hazardous, whichever other requests race in it. -/
theorem hazardousIssueRefusesTheRun : Obligations.HazardousIssueRefusesTheRun := by
  intro s ps rest x y hlawful hlive hpending hover hx hy hblock hhost hwrites hshared
  have hstream : x.sameStream y = true := decide_eq_true ⟨hblock, hhost⟩
  have hhazard : hazardous (State.driven ps { s with pending := rest }) = true :=
    hazardous_of_shared_byte hx hy hstream hwrites (sharesByte_iff.mpr hshared)
  refine ⟨_, (step_of_clock hlawful hlive hpending).trans (clock_of_hazardous hover hhazard), rfl, rfl, rfl,
    step_ne_next_of_not_live ?_⟩
  simp [State.live]

/-! ### The pin `rst` without a pipeline -/

/-- The first pins drive the state's own block, the rest the other blocks by their number (assumption 26). -/
theorem State.driven_cons (p : Pins) (ps : List Pins) (s : State) :
    s.driven (p :: ps) = { block := 0, pins := p, unit := s.block } ::
      (s.peers.zipIdx 1).map fun x => { block := x.2, pins := ps.getD (x.2 - 1) Pins.idle, unit := x.1 } := by
  refine List.cons_eq_cons.mpr ⟨rfl, List.map_congr_left fun x hx => ?_⟩
  obtain ⟨k, hk⟩ := Nat.exists_eq_add_of_le' (List.le_snd_of_mem_zipIdx hx)
  simp [hk]

/-- The pins of the state's own block take no part in the cycles of the others. -/
theorem cyclePeers_of_other_head (p q : Pins) (ps : List Pins) (m : Memory) (k : Nat) (s : State) :
    State.cyclePeers (p :: ps) m k s = State.cyclePeers (q :: ps) m k s := by
  induction k with
  | zero => rfl
  | succ k ih => rw [State.cyclePeers, ih]; rfl

section Combinational

variable {s : State} (hl : s.params.latency = 0) (pins : Pins) (b : Bool)
include hl

/-- Without a pipeline the pin `rst` takes no part in the block's cycle (R93). -/
theorem blockCycle_of_other_rst (m : Memory) : s.blockCycle { pins with rst := b } m = s.blockCycle pins m := by
  rw [State.blockCycle, State.blockCycle, if_pos hl, if_pos hl]
  rfl

theorem Driven.resets_of_comb (k : Nat) (p : Pins) :
    Driven.resets { block := k, pins := p, unit := s.block } = false := by
  simp [Driven.resets, hl]

/-- Without a pipeline `rst` decides neither what the block's cycle accepts nor what it finds in flight, and so neither whether
R101 is broken nor whether requesters clash. -/
theorem marks_of_other_rst (ps : List Pins) :
    hazardous (s.driven ({ pins with rst := b } :: ps)) = hazardous (s.driven (pins :: ps)) ∧
      racing (s.driven ({ pins with rst := b } :: ps)) = racing (s.driven (pins :: ps)) := by
  have haccepted : acceptedOf (s.driven ({ pins with rst := b } :: ps)) = acceptedOf (s.driven (pins :: ps)) := by
    simp only [State.driven_cons, acceptedOf, List.filterMap_cons, Driven.accepted, Driven.resets_of_comb hl]
  have hflights : flightsOf (s.driven ({ pins with rst := b } :: ps)) = flightsOf (s.driven (pins :: ps)) := by
    simp only [State.driven_cons, flightsOf, List.flatMap_cons, Driven.flights, Driven.resets_of_comb hl]
  simp only [hazardous, racing, haccepted, hflights, and_self]

/-- Without a pipeline the pin `rst` takes no part in the cycle of all blocks (R93). -/
theorem clock_of_other_rst (ps : List Pins) : s.clock ({ pins with rst := b } :: ps) = s.clock (pins :: ps) := by
  obtain ⟨hhazard, hrace⟩ := marks_of_other_rst hl pins b ps
  have hoverflows : (s.driven ({ pins with rst := b } :: ps)).any Driven.overflows =
      (s.driven (pins :: ps)).any Driven.overflows := by
    rw [State.driven_cons, State.driven_cons]
    rfl
  have hpeers := funext (cyclePeers_of_other_head { pins with rst := b } pins ps s.buf s.peers.length)
  simp only [State.clock, hhazard, hrace, hoverflows, List.getD_cons_zero, blockCycle_of_other_rst hl pins b, hpeers]

end Combinational

/-- The response of a completed request depends on the request, its sample and the parameters alone (R12, R99). -/
theorem complete_rsp_eq {f : InFlight} {s s' t t' : State} (hp : s'.params = s.params) (h : s.complete f = .next t)
    (h' : s'.complete f = .next t') : t.rsp = t'.rsp := by
  obtain ⟨u, hu, rfl⟩ := complete_cases h
  obtain ⟨u', hu', rfl⟩ := complete_cases h'
  obtain ⟨hrsp, -⟩ := responseDependsOnRequestAndBufferOnly f.req { s with buf := f.bufIn } { s' with buf := f.bufIn } u u'
    s.params.latency hp rfl hu hu'
  exact hrsp

/-- Without a pipeline the outputs of a cycle are those of the presented request on `buf_in`, or idle (R19, R93). -/
theorem blockCycle_rsp_eq_of_comb {s s' t t' : State} {pins : Pins} {m : Memory} (hl : s.params.latency = 0)
    (hp : s'.params = s.params) (h : s.blockCycle pins m = .next t) (h' : s'.blockCycle pins m = .next t') :
    t.rsp = t'.rsp := by
  have hl' : s'.params.latency = 0 := hp ▸ hl
  cases hv : pins.reqValid with
  | true =>
    rw [blockCycle_of_comb hl hv] at h
    rw [blockCycle_of_comb hl' hv] at h'
    exact complete_rsp_eq (s := { s with index := s.index + 1 }) (s' := { s' with index := s'.index + 1 }) hp h h'
  | false =>
    rw [blockCycle_of_comb_idle hl hv, Host.Outcome.next.injEq] at h
    rw [blockCycle_of_comb_idle hl' hv, Host.Outcome.next.injEq] at h'
    rw [← h, ← h', State.idleOn_rsp, State.idleOn_rsp]

/-- Settles O46: without a pipeline `rst` decides neither what a cycle accepts nor what it finds in flight. -/
theorem resetPinHasNoEffectWithoutPipeline : Obligations.ResetPinHasNoEffectWithoutPipeline := by
  intro s pins b hl
  refine ⟨blockCycle_of_other_rst hl pins b, clock_of_other_rst hl pins b, fun s' t t' m hp h h' => ?_⟩
  rw [blockCycle_of_other_rst (s := s') (hp ▸ hl) pins b] at h'
  exact blockCycle_rsp_eq_of_comb hl hp h h'

/-! ### A reset cycle with a pipeline -/

/-- A cycle that accepts nothing meets no hazard and no race, whatever is in flight. -/
theorem clock_of_nothing_accepted {ps : List Pins} {s : State} (hfit : s.PinsFit ps)
    (h : acceptedOf (s.driven ps) = []) :
    s.clock ps = andThen (s.blockCycle (ps.getD 0 Pins.idle) s.buf) (State.cyclePeers ps s.buf s.peers.length) :=
  clock_of_calm (State.pinsFit_iff.mp hfit) (by simp [hazardous, h]) (by simp [racing, h, race])

theorem blockCycle_of_reset {s : State} {pins : Pins} (hl : s.params.latency ≠ 0) (hr : pins.rst = true) (m : Memory) :
    s.blockCycle pins m = .next (s.resetCycle m) := by
  simp [State.blockCycle, hl, hr]

/-- A block in reset accepts no request (R94), and the others are idle. -/
theorem acceptedOf_driven_of_reset {s : State} {pins : Pins} (hl : s.params.latency ≠ 0) (hr : pins.rst = true) :
    acceptedOf (s.driven [pins]) = [] := by
  obtain ⟨ds, hdriven, hidle⟩ := s.driven_singleton pins
  have hhead : Driven.accepted { block := 0, pins := pins, unit := s.block } = none := by
    simp [Driven.accepted, Driven.resets, hr, hl]
  have hrest : ds.filterMap Driven.accepted = [] := acceptedOf_of_idle hidle
  rw [hdriven, acceptedOf, List.filterMap_cons_none hhead, hrest]

theorem State.pinsFit_singleton_of_valid {p : Pins} {s : State}
    (h : p.reqValid = true → p.req.fits s.params.idxW = true) : s.PinsFit [p] := by
  intro k q hq hvalid
  cases k with
  | zero =>
    obtain rfl : s.params = q := Option.some.inj hq
    exact h hvalid
  | succ k => simp [Pins.idle] at hvalid

/-- A reset cycle where the other blocks have nothing in flight empties the pipeline and drives idle values (R94). -/
theorem clock_of_reset {s : State} {pins : Pins} (hl : s.params.latency ≠ 0) (hr : pins.rst = true)
    (hfit : pins.reqValid = true → pins.req.fits s.params.idxW = true) (hempty : ∀ b ∈ s.peers, b.Empty) :
    s.clock [pins] = .next { s.resetCycle s.buf with peers := s.peers.map (Block.idleOn s.buf) } := by
  rw [clock_of_nothing_accepted (State.pinsFit_singleton_of_valid hfit) (acceptedOf_driven_of_reset hl hr),
    List.getD_cons_zero, blockCycle_of_reset hl hr, andThen_next]
  exact cyclePeers_idle (s := s.resetCycle s.buf) (fun _ => rfl) hempty s.buf

/-! ### The cycles before the first response -/

/-- No request in flight responds in the next `n` cycles: each in the pipeline of the state's own block has at least `n` stages
ahead of it (R98), and the other blocks have none. -/
structure State.SilentFor (s : State) (n : Nat) : Prop where
  inv : s.Inv
  pipelined : s.params.latency ≠ 0
  ahead : ∀ i f, s.pipe[i]? = some (some f) → i + n < s.params.latency
  peers : ∀ b ∈ s.peers, b.Empty

/-- What the host does next is no part of what is in flight. -/
theorem State.SilentFor.hostSide {n : Nat} {s : State} (h : s.SilentFor n) (pending : List HostAction) :
    State.SilentFor { s with pending := pending } n :=
  { h with inv := h.inv.hostSide s.index pending }

/-- With a silent cycle to come the last stage is invalid. -/
theorem State.SilentFor.retire {n : Nat} {s : State} (h : s.SilentFor (n + 1)) (m : Memory) :
    s.retire m = .next (s.idleOn m) := by
  obtain ⟨hlength, -⟩ := h.inv.pipeGood
  unfold State.retire
  split
  · next f hf =>
    rw [List.getLast?_eq_getElem?, hlength] at hf
    have := h.ahead _ _ hf
    omega
  · rfl

/-- A silent cycle of the state's own block drives idle values and moves each stage on, or clears them all (R94, R98). -/
theorem State.SilentFor.blockCycle {n : Nat} {s t : State} {p : Pins} {m : Memory} (h : s.SilentFor (n + 1))
    (ht : s.blockCycle p m = .next t) :
    ∃ pipe index, t = { s.idleOn m with pipe := pipe, index := index } ∧
      ∀ i f, pipe[i]? = some (some f) → (i = 0 ∧ p.reqValid = true) ∨ ∃ j, i = j + 1 ∧ s.pipe[j]? = some (some f) := by
  rcases blockCycle_cases ht with ⟨hl, -⟩ | ⟨hl, -⟩ | ⟨-, -, rfl⟩ | ⟨-, -, hshift⟩
  · exact absurd hl h.pipelined
  · exact absurd hl h.pipelined
  · refine ⟨_, s.index, rfl, fun i f hf => ?_⟩
    simp [List.getElem?_replicate] at hf
  · obtain ⟨u, hu, rfl⟩ := shiftCycle_cases hshift
    obtain rfl : s.idleOn m = u := Host.Outcome.next.inj ((h.retire m).symm.trans hu)
    refine ⟨_, _, rfl, fun i f hf => ?_⟩
    cases i with
    | zero =>
      obtain ⟨hvalid, -⟩ := stageOf_eq_some (Option.some.inj hf)
      exact .inl ⟨rfl, hvalid⟩
    | succ j =>
      rw [List.getElem?_cons_succ, List.getElem?_dropLast] at hf
      exact .inr ⟨j, rfl, (Option.ite_none_right_eq_some.mp hf).2⟩

/-- The first of `n + 1` silent cycles: the buffer stays, the outputs are idle, and `n` silent cycles are left where a request
presented in it has `n` stages ahead. -/
theorem State.SilentFor.clock {n : Nat} {s t : State} {p : Pins} (h : s.SilentFor (n + 1))
    (hp : p.reqValid = true → n < s.params.latency) (ht : s.clock [p] = .next t) :
    t.SilentFor n ∧ t.params = s.params ∧ t.buf = s.buf ∧ t.rsp = Response.idle s.buf ∧ t.pending = s.pending := by
  have hpeers : ∀ b ∈ s.peers.map (Block.idleOn s.buf), b.Empty :=
    List.forall_mem_map.mpr fun b hb => (h.peers b hb).idleOn s.buf
  have hinv := (clock_goodStep h.inv ht).inv
  obtain ⟨-, ⟨-, rfl⟩ | ⟨-, -, u, hu, hothers⟩⟩ := clock_cases ht
  · refine ⟨⟨hinv, h.pipelined, fun i f hf => ?_, hpeers⟩, rfl, rfl, rfl, rfl⟩
    have hahead : i + (n + 1) < s.params.latency := h.ahead i f hf
    exact Nat.lt_of_succ_lt hahead
  · obtain ⟨pipe, index, rfl, hstages⟩ := h.blockCycle hu
    obtain rfl := Host.Outcome.next.inj ((cyclePeers_idle
      (s := { s.idleOn s.buf with pipe := pipe, index := index }) (fun _ => rfl) h.peers s.buf).symm.trans hothers)
    refine ⟨⟨hinv, h.pipelined, fun i f hf => ?_, hpeers⟩, rfl, rfl, rfl, rfl⟩
    rcases hstages i f hf with ⟨rfl, hvalid⟩ | ⟨j, rfl, hj⟩
    · exact (Nat.zero_add n).symm ▸ hp hvalid
    · have hahead := h.ahead j f hj
      rwa [Nat.add_assoc, Nat.add_comm 1 n]

/-- What `k + 1` steps answer: a step, and what the other `k` answer from there. -/
theorem core_run_succ_cases {k : Nat} {s u : State} (h : Sys2Proof.core.run (k + 1) s = .next u) :
    ∃ t, step s = .next t ∧ Sys2Proof.core.run k t = .next u := by
  cases hstep : step s with
  | next t => exact ⟨t, rfl, (core_run_succ hstep).symm.trans h⟩
  | fault r =>
    have hcore : Sys2Proof.core.step s = .fault r := hstep
    simp [Host.Core.run, hcore] at h
  | refused r =>
    have hcore : Sys2Proof.core.step s = .refused r := hstep
    simp [Host.Core.run, hcore] at h

/-- A step that answers with a clock cycle next is that cycle. -/
theorem clock_of_step {ps : List Pins} {rest : List HostAction} {s t : State} (hp : s.pending = .clock ps :: rest)
    (h : step s = .next t) : State.clock ps { s with pending := rest } = .next t := by
  obtain ⟨hlawful, hlive, -⟩ := step_cases h
  rw [← step_of_clock hlawful hlive hp, h]

/-- A request is presented only where fewer than `l` cycles are left after it. -/
def PresentsLate (l : Nat) (ps : List Pins) : Prop := ∀ p ∈ ps.take (ps.length - l), p.reqValid = false

theorem presentsLate_cons {l : Nat} {p : Pins} {ps : List Pins} (h : PresentsLate l (p :: ps)) :
    (p.reqValid = true → ps.length < l) ∧ PresentsLate l ps := by
  unfold PresentsLate at h ⊢
  rw [List.length_cons] at h
  rcases Nat.lt_or_ge ps.length l with hlt | hge
  · exact ⟨fun _ => hlt, by simp [Nat.sub_eq_zero_of_le hlt.le]⟩
  · rw [Nat.succ_sub hge, List.take_succ_cons, List.forall_mem_cons] at h
    obtain ⟨hp, hps⟩ := h
    exact ⟨fun hvalid => by simp [hp] at hvalid, hps⟩

/-- Cycles that present requests too late for a response among them leave the buffer and the idle outputs (R94, R98). -/
theorem State.SilentFor.run {ps : List Pins} {s u : State} (h : s.SilentFor ps.length)
    (hlate : PresentsLate s.params.latency ps) (hrsp : s.rsp = Response.idle s.buf)
    (hp : s.pending = ps.map fun p => .clock [p]) (hrun : Sys2Proof.core.run ps.length s = .next u) :
    u.buf = s.buf ∧ u.rsp = Response.idle s.buf := by
  induction ps generalizing s with
  | nil =>
    obtain rfl : s = u := Host.Outcome.next.inj hrun
    exact ⟨rfl, hrsp⟩
  | cons p ps ih =>
    obtain ⟨t, hstep, hrest⟩ := core_run_succ_cases hrun
    obtain ⟨hvalid, hlate'⟩ := presentsLate_cons hlate
    obtain ⟨hsilent, hparams, hbuf, hidle, hpending⟩ := (h.hostSide (ps.map fun p => .clock [p])).clock hvalid
      (clock_of_step hp hstep)
    have hbuf : t.buf = s.buf := hbuf
    rw [← hbuf]
    exact ih hsilent (hparams ▸ hlate') (hbuf ▸ hidle) hpending hrest

/-- With nothing in flight, nothing in flight responds in any number of cycles. -/
theorem State.silentFor_of_empty {s : State} (hs : s.Inv) (hl : s.params.latency ≠ 0)
    (hpipe : s.pipe = List.replicate s.params.latency none) (hempty : ∀ b ∈ s.peers, b.Empty) (n : Nat) :
    s.SilentFor n :=
  ⟨hs, hl, fun i f hf => by simp [hpipe, List.getElem?_replicate] at hf, hempty⟩

/-- Settles O47: after the reset cycle every pipeline is empty, so that the first response is that of a request issued later. -/
theorem resetCycleDiscardsRequestsInFlight : Obligations.ResetCycleDiscardsRequestsInFlight := by
  refine ⟨fun s pins m hl hr => blockCycle_of_reset hl hr m, fun s pins hs _ hquiet hl hr hfit => ?_⟩
  have hempty : ∀ b ∈ s.peers, b.Empty := fun b hb =>
    (hs.blocks b (List.mem_cons_of_mem _ hb)).empty_of_quiet (hquiet b hb)
  have hclock := clock_of_reset hl hr hfit hempty
  have hsilent := State.silentFor_of_empty (clock_goodStep hs hclock).inv hl rfl
    (List.forall_mem_map.mpr fun b hb => (hempty b hb).idleOn s.buf)
  exact ⟨_, hclock, fun f hf => List.eq_of_mem_replicate hf, rfl, rfl, rfl, fun ps u hlate hrun =>
    ((hsilent ps.length).hostSide (ps.map fun p => .clock [p])).run hlate rfl rfl hrun⟩

end Sys2Proof.Machine
